-- ==== Sys2Proof/Word.lean ====
section
/-! DEFINITION. The word types of the MMX machine (spec 00_scope.md R5, R7). -/

namespace Sys2Proof

/-- A byte: 8 bits (R5). -/
abbrev Byte := BitVec 8

/-- A word: 16 bits (R5). -/
abbrev Word := BitVec 16

/-- A doubleword: 32 bits; also a general register, `EIP` and a linear address (R5, R27, R29, R50). -/
abbrev Dword := BitVec 32

/-- A quadword: 64 bits, the width of an MMX register (R5, R20). -/
abbrev Quad := BitVec 64

/-- The number in a 3-bit register field of an instruction (R86): `n` names `MMn`, or the general
register `EAX ECX EDX EBX ESP EBP ESI EDI` for `n = 0..7`, as the instruction's operand says. -/
abbrev RegNum := BitVec 3

end Sys2Proof
end

