-- ==== Sys2Proof/Machine/Lanes.lean ====
section
/-! DEFINITION. Packed data: the lanes of a quadword (spec 10_state.md R21, 00_scope.md R7), saturation
(R9), and the lane operations that the instruction families share. -/

namespace Sys2Proof.Machine

/-! ## Lanes (R7, R21): lane 0 is the least significant -/

/-- Byte lane `Bk = v[8k+7:8k]`. -/
def byteLane (v : Quad) (k : Nat) : Byte := v.extractLsb' (8 * k) 8

/-- Word lane `Wk = v[16k+15:16k]`. -/
def wordLane (v : Quad) (k : Nat) : Word := v.extractLsb' (16 * k) 16

/-- Doubleword lane `Dk = v[32k+31:32k]`. -/
def dwordLane (v : Quad) (k : Nat) : Dword := v.extractLsb' (32 * k) 32

/-- The quadword with byte lanes `f 0 .. f 7`. -/
def ofBytes (f : Nat → Byte) : Quad := f 7 ++ f 6 ++ f 5 ++ f 4 ++ f 3 ++ f 2 ++ f 1 ++ f 0

/-- The quadword with word lanes `f 0 .. f 3`. -/
def ofWords (f : Nat → Word) : Quad := f 3 ++ f 2 ++ f 1 ++ f 0

/-- The quadword with doubleword lanes `f 0` and `f 1`. -/
def ofDwords (f : Nat → Dword) : Quad := f 1 ++ f 0

/-- Each byte lane from the same lane of two quadwords. -/
def zipBytes (f : Byte → Byte → Byte) (a b : Quad) : Quad :=
  ofBytes fun k => f (byteLane a k) (byteLane b k)

/-- Each word lane from the same lane of two quadwords. -/
def zipWords (f : Word → Word → Word) (a b : Quad) : Quad :=
  ofWords fun k => f (wordLane a k) (wordLane b k)

/-- Each doubleword lane from the same lane of two quadwords. -/
def zipDwords (f : Dword → Dword → Dword) (a b : Quad) : Quad :=
  ofDwords fun k => f (dwordLane a k) (dwordLane b k)

/-- Each word lane from the same lane of one quadword. -/
def mapWords (f : Word → Word) (a : Quad) : Quad := ofWords fun k => f (wordLane a k)

/-- Each doubleword lane from the same lane of one quadword. -/
def mapDwords (f : Dword → Dword) (a : Quad) : Quad := ofDwords fun k => f (dwordLane a k)

/-! ## Saturation (R9) -/

/-- `SatS_n`: an integer clamped to the range of `n`-bit two's complement (R9). -/
def satS (n : Nat) (x : Int) : BitVec n :=
  if x < -(2 ^ (n - 1) : Int) then BitVec.ofInt n (-(2 ^ (n - 1) : Int))
  else if (2 ^ (n - 1) : Int) - 1 < x then BitVec.ofInt n ((2 ^ (n - 1) : Int) - 1)
  else BitVec.ofInt n x

/-- `SatU_n`: an integer clamped to the range of `n` unsigned bits (R9). -/
def satU (n : Nat) (x : Int) : BitVec n :=
  if x < 0 then 0
  else if (2 ^ n : Int) - 1 < x then BitVec.allOnes n
  else BitVec.ofInt n x

/-! ## Lane arithmetic (R168) -/

/-- Wraparound add: `(u(x) + u(y)) mod 2^n`. -/
def addWrap {n : Nat} (x y : BitVec n) : BitVec n := x + y

/-- Wraparound subtract: `(u(x) - u(y)) mod 2^n`. -/
def subWrap {n : Nat} (x y : BitVec n) : BitVec n := x - y

/-- Signed saturating add. -/
def addSatS {n : Nat} (x y : BitVec n) : BitVec n := satS n (x.toInt + y.toInt)

/-- Signed saturating subtract. -/
def subSatS {n : Nat} (x y : BitVec n) : BitVec n := satS n (x.toInt - y.toInt)

/-- Unsigned saturating add. -/
def addSatU {n : Nat} (x y : BitVec n) : BitVec n := satU n ((x.toNat : Int) + (y.toNat : Int))

/-- Unsigned saturating subtract. -/
def subSatU {n : Nat} (x y : BitVec n) : BitVec n := satU n ((x.toNat : Int) - (y.toNat : Int))

/-- The exact signed product of two words, which fits 32 bits (R168). -/
def product (x y : Word) : Dword := BitVec.ofInt 32 (x.toInt * y.toInt)

/-- Signed multiply, high half: bits 31:16 of the product. -/
def mulHigh (x y : Word) : Word := (product x y).extractLsb' 16 16

/-- Multiply, low half: bits 15:0 of the product. -/
def mulLow (x y : Word) : Word := (product x y).extractLsb' 0 16

/-! ## Lane comparison (R180): a mask of ones where the relation holds -/

/-- All ones if `p`, all zeros if not. -/
def mask (n : Nat) (p : Bool) : BitVec n := if p then BitVec.allOnes n else 0

/-- Equality of lanes. -/
def cmpEq {n : Nat} (x y : BitVec n) : BitVec n := mask n (x == y)

/-- Signed greater-than of lanes: the first operand's lane is greater. -/
def cmpGt {n : Nat} (x y : BitVec n) : BitVec n := mask n (decide (y.toInt < x.toInt))

/-! ## Lane shifts (R209): a count of the width or more gives zeros, or copies of the sign bit -/

/-- Shift left logical. -/
def shl {n : Nat} (count : Nat) (x : BitVec n) : BitVec n := if n ≤ count then 0 else x <<< count

/-- Shift right logical. -/
def shrLogical {n : Nat} (count : Nat) (x : BitVec n) : BitVec n :=
  if n ≤ count then 0 else x >>> count

/-- Shift right arithmetic; a count of `n` or more is taken as `n`. -/
def shrArith {n : Nat} (count : Nat) (x : BitVec n) : BitVec n :=
  x.sshiftRight (if n ≤ count then n else count)

end Sys2Proof.Machine
end

