-- ==== Sys2Proof/Config.lean ====
section
/-! DEFINITION. What is fixed for this machine: its parameters (spec 00_scope.md R5) and the values
the spec leaves free. The parameters that R5 calls "launch" are data of the state
(`Machine.Launch`), so that a claim quantifies over them. -/

namespace Sys2Proof

/-- The size of the linear address space in bytes: addresses are `0 .. 2^32 - 1` (R50). -/
abbrev Config.addressSpace : Nat := 4294967296

/-- The longest in-scope instruction: prefix, `0F`, opcode, ModRM, SIB, disp32 (R80, R88). -/
abbrev Config.maxLength : Nat := 9

/-- What a byte of memory reads as when the memory lists nothing at its address.
DESIGN CHOICE (notes/assumptions/2.md), unsafe: the spec gives memory no contents at reset (R36). -/
def Config.unlistedByte : Byte := 0

/-- The value of general register `i` after an INIT, which R36 leaves "unspecified here": a free
value, no body, so nothing can be proved of it (notes/assumptions/7.md). -/
opaque Config.initGpr : Nat → Dword

end Sys2Proof
end

