-- ==== Sys2Proof/Syntax.lean ====
section
/-! DEFINITION. The syntax of the machine: one constructor of `Instr` for each of the 57 rows of
spec/opcode_table.json (spec 30_encoding.md R90), in the table's order, with its operands as the
encoding gives them (R81 to R89). -/

namespace Sys2Proof

/-- The six segment registers (R28). The segment of a memory operand selects `#SS` or `#GP` (R85). -/
inductive Seg where
  | es
  | cs
  | ss
  | ds
  | fs
  | gs
deriving DecidableEq, Repr

/-- The displacement of an address that has a base register (R83, R96): none (`mod = 00B`), one byte
(`mod = 01B`) or four (`mod = 10B`). The form is kept, not only the value: it decides the length. -/
inductive Disp where
  | none
  | d8 (b : Byte)
  | d32 (w : Dword)
deriving DecidableEq, Repr

/-- A memory operand in the form its bytes give it (R83, R84). -/
inductive MemOperand where
  /-- `[x[r] + disp]`, no SIB byte (`rm = r`). -/
  | base (r : RegNum) (disp : Disp)
  /-- `[disp32]`, no register (`mod = 00B`, `rm = 101B`). -/
  | abs (w : Dword)
  /-- `[x[b] + x[idx]*2^ss + disp]` with a SIB byte; `idx = 100B` means no index. -/
  | sib (ss : BitVec 2) (idx b : RegNum) (disp : Disp)
  /-- `[x[idx]*2^ss + disp32]` with a SIB byte and no base (`mod = 00B`, SIB base `101B`). -/
  | sibNoBase (ss : BitVec 2) (idx : RegNum) (w : Dword)
deriving DecidableEq, Repr

/-- The operand named by `mod` and `rm` (R82): register number `rm` if `mod = 11B`, else memory.
The instruction says whether the number names an MMX or a general register (R86, R95). -/
inductive RegMem where
  | reg (r : RegNum)
  | mem (m : MemOperand)
deriving DecidableEq, Repr

/-- The instructions. `pre` is the segment-override prefix, if there is one (R89). In the `RM` rows
`reg` is ModRM's register field and `rm` the operand of its `mod` and `rm` fields; in the `SHI` rows
`rm` is the register that is source and destination and `imm` the shift count (R81). -/
inductive Instr where
  /-- `PUNPCKLBW mm, mm/m32`, `0F 60 /r` (R137). -/
  | punpcklbw (pre : Option Seg) (reg : RegNum) (rm : RegMem)
  /-- `PUNPCKLWD mm, mm/m32`, `0F 61 /r` (R138). -/
  | punpcklwd (pre : Option Seg) (reg : RegNum) (rm : RegMem)
  /-- `PUNPCKLDQ mm, mm/m32`, `0F 62 /r` (R139). -/
  | punpckldq (pre : Option Seg) (reg : RegNum) (rm : RegMem)
  /-- `PACKSSWB mm, mm/m64`, `0F 63 /r` (R131). -/
  | packsswb (pre : Option Seg) (reg : RegNum) (rm : RegMem)
  /-- `PCMPGTB mm, mm/m64`, `0F 64 /r` (R184). -/
  | pcmpgtb (pre : Option Seg) (reg : RegNum) (rm : RegMem)
  /-- `PCMPGTW mm, mm/m64`, `0F 65 /r` (R185). -/
  | pcmpgtw (pre : Option Seg) (reg : RegNum) (rm : RegMem)
  /-- `PCMPGTD mm, mm/m64`, `0F 66 /r` (R186). -/
  | pcmpgtd (pre : Option Seg) (reg : RegNum) (rm : RegMem)
  /-- `PACKUSWB mm, mm/m64`, `0F 67 /r` (R133). -/
  | packuswb (pre : Option Seg) (reg : RegNum) (rm : RegMem)
  /-- `PUNPCKHBW mm, mm/m64`, `0F 68 /r` (R134). -/
  | punpckhbw (pre : Option Seg) (reg : RegNum) (rm : RegMem)
  /-- `PUNPCKHWD mm, mm/m64`, `0F 69 /r` (R135). -/
  | punpckhwd (pre : Option Seg) (reg : RegNum) (rm : RegMem)
  /-- `PUNPCKHDQ mm, mm/m64`, `0F 6A /r` (R136). -/
  | punpckhdq (pre : Option Seg) (reg : RegNum) (rm : RegMem)
  /-- `PACKSSDW mm, mm/m64`, `0F 6B /r` (R132). -/
  | packssdw (pre : Option Seg) (reg : RegNum) (rm : RegMem)
  /-- `MOVD mm, r/m32`, `0F 6E /r` (R121). -/
  | movdToMm (pre : Option Seg) (reg : RegNum) (rm : RegMem)
  /-- `MOVQ mm, mm/m64`, `0F 6F /r` (R123). -/
  | movqToMm (pre : Option Seg) (reg : RegNum) (rm : RegMem)
  /-- `PSRLW mm, imm8`, `0F 71 /2 ib` (R204). -/
  | psrlwImm (pre : Option Seg) (rm : RegNum) (imm : Byte)
  /-- `PSRAW mm, imm8`, `0F 71 /4 ib` (R207). -/
  | psrawImm (pre : Option Seg) (rm : RegNum) (imm : Byte)
  /-- `PSLLW mm, imm8`, `0F 71 /6 ib` (R201). -/
  | psllwImm (pre : Option Seg) (rm : RegNum) (imm : Byte)
  /-- `PSRLD mm, imm8`, `0F 72 /2 ib` (R205). -/
  | psrldImm (pre : Option Seg) (rm : RegNum) (imm : Byte)
  /-- `PSRAD mm, imm8`, `0F 72 /4 ib` (R208). -/
  | psradImm (pre : Option Seg) (rm : RegNum) (imm : Byte)
  /-- `PSLLD mm, imm8`, `0F 72 /6 ib` (R202). -/
  | pslldImm (pre : Option Seg) (rm : RegNum) (imm : Byte)
  /-- `PSRLQ mm, imm8`, `0F 73 /2 ib` (R206). -/
  | psrlqImm (pre : Option Seg) (rm : RegNum) (imm : Byte)
  /-- `PSLLQ mm, imm8`, `0F 73 /6 ib` (R203). -/
  | psllqImm (pre : Option Seg) (rm : RegNum) (imm : Byte)
  /-- `PCMPEQB mm, mm/m64`, `0F 74 /r` (R181). -/
  | pcmpeqb (pre : Option Seg) (reg : RegNum) (rm : RegMem)
  /-- `PCMPEQW mm, mm/m64`, `0F 75 /r` (R182). -/
  | pcmpeqw (pre : Option Seg) (reg : RegNum) (rm : RegMem)
  /-- `PCMPEQD mm, mm/m64`, `0F 76 /r` (R183). -/
  | pcmpeqd (pre : Option Seg) (reg : RegNum) (rm : RegMem)
  /-- `EMMS`, `0F 77` (R221). -/
  | emms (pre : Option Seg)
  /-- `MOVD r/m32, mm`, `0F 7E /r` (R122). -/
  | movdFromMm (pre : Option Seg) (reg : RegNum) (rm : RegMem)
  /-- `MOVQ mm/m64, mm`, `0F 7F /r` (R124). -/
  | movqFromMm (pre : Option Seg) (reg : RegNum) (rm : RegMem)
  /-- `PSRLW mm, mm/m64`, `0F D1 /r` (R204). -/
  | psrlw (pre : Option Seg) (reg : RegNum) (rm : RegMem)
  /-- `PSRLD mm, mm/m64`, `0F D2 /r` (R205). -/
  | psrld (pre : Option Seg) (reg : RegNum) (rm : RegMem)
  /-- `PSRLQ mm, mm/m64`, `0F D3 /r` (R206). -/
  | psrlq (pre : Option Seg) (reg : RegNum) (rm : RegMem)
  /-- `PMULLW mm, mm/m64`, `0F D5 /r` (R166). -/
  | pmullw (pre : Option Seg) (reg : RegNum) (rm : RegMem)
  /-- `PSUBUSB mm, mm/m64`, `0F D8 /r` (R163). -/
  | psubusb (pre : Option Seg) (reg : RegNum) (rm : RegMem)
  /-- `PSUBUSW mm, mm/m64`, `0F D9 /r` (R164). -/
  | psubusw (pre : Option Seg) (reg : RegNum) (rm : RegMem)
  /-- `PAND mm, mm/m64`, `0F DB /r` (R191). -/
  | pand (pre : Option Seg) (reg : RegNum) (rm : RegMem)
  /-- `PADDUSB mm, mm/m64`, `0F DC /r` (R156). -/
  | paddusb (pre : Option Seg) (reg : RegNum) (rm : RegMem)
  /-- `PADDUSW mm, mm/m64`, `0F DD /r` (R157). -/
  | paddusw (pre : Option Seg) (reg : RegNum) (rm : RegMem)
  /-- `PANDN mm, mm/m64`, `0F DF /r` (R192). -/
  | pandn (pre : Option Seg) (reg : RegNum) (rm : RegMem)
  /-- `PSRAW mm, mm/m64`, `0F E1 /r` (R207). -/
  | psraw (pre : Option Seg) (reg : RegNum) (rm : RegMem)
  /-- `PSRAD mm, mm/m64`, `0F E2 /r` (R208). -/
  | psrad (pre : Option Seg) (reg : RegNum) (rm : RegMem)
  /-- `PMULHW mm, mm/m64`, `0F E5 /r` (R165). -/
  | pmulhw (pre : Option Seg) (reg : RegNum) (rm : RegMem)
  /-- `PSUBSB mm, mm/m64`, `0F E8 /r` (R161). -/
  | psubsb (pre : Option Seg) (reg : RegNum) (rm : RegMem)
  /-- `PSUBSW mm, mm/m64`, `0F E9 /r` (R162). -/
  | psubsw (pre : Option Seg) (reg : RegNum) (rm : RegMem)
  /-- `POR mm, mm/m64`, `0F EB /r` (R193). -/
  | por (pre : Option Seg) (reg : RegNum) (rm : RegMem)
  /-- `PADDSB mm, mm/m64`, `0F EC /r` (R154). -/
  | paddsb (pre : Option Seg) (reg : RegNum) (rm : RegMem)
  /-- `PADDSW mm, mm/m64`, `0F ED /r` (R155). -/
  | paddsw (pre : Option Seg) (reg : RegNum) (rm : RegMem)
  /-- `PXOR mm, mm/m64`, `0F EF /r` (R194). -/
  | pxor (pre : Option Seg) (reg : RegNum) (rm : RegMem)
  /-- `PSLLW mm, mm/m64`, `0F F1 /r` (R201). -/
  | psllw (pre : Option Seg) (reg : RegNum) (rm : RegMem)
  /-- `PSLLD mm, mm/m64`, `0F F2 /r` (R202). -/
  | pslld (pre : Option Seg) (reg : RegNum) (rm : RegMem)
  /-- `PSLLQ mm, mm/m64`, `0F F3 /r` (R203). -/
  | psllq (pre : Option Seg) (reg : RegNum) (rm : RegMem)
  /-- `PMADDWD mm, mm/m64`, `0F F5 /r` (R167). -/
  | pmaddwd (pre : Option Seg) (reg : RegNum) (rm : RegMem)
  /-- `PSUBB mm, mm/m64`, `0F F8 /r` (R158). -/
  | psubb (pre : Option Seg) (reg : RegNum) (rm : RegMem)
  /-- `PSUBW mm, mm/m64`, `0F F9 /r` (R159). -/
  | psubw (pre : Option Seg) (reg : RegNum) (rm : RegMem)
  /-- `PSUBD mm, mm/m64`, `0F FA /r` (R160). -/
  | psubd (pre : Option Seg) (reg : RegNum) (rm : RegMem)
  /-- `PADDB mm, mm/m64`, `0F FC /r` (R151). -/
  | paddb (pre : Option Seg) (reg : RegNum) (rm : RegMem)
  /-- `PADDW mm, mm/m64`, `0F FD /r` (R152). -/
  | paddw (pre : Option Seg) (reg : RegNum) (rm : RegMem)
  /-- `PADDD mm, mm/m64`, `0F FE /r` (R153). -/
  | paddd (pre : Option Seg) (reg : RegNum) (rm : RegMem)
deriving DecidableEq, Repr

end Sys2Proof
end

