-- ==== Sys2Proof/WellFormed.lean ====
section
/-! DEFINITION. Which syntax has an encoding. ModRM and SIB give some combinations another meaning
(spec 30_encoding.md R83, R84), so a term that claims one of those is ill-formed. -/

namespace Sys2Proof

/-- A memory operand that the ModRM and SIB bytes can express:
`rm = 100B` announces a SIB byte, so it is no plain base register (R83, R84);
`rm = 101B` with `mod = 00B` is disp32 without a base (R83);
SIB base `101B` with `mod = 00B` is no base and a disp32 (R84). -/
def MemOperand.wf : MemOperand → Bool
  | .base r .none => r != 4 && r != 5
  | .base r _ => r != 4
  | .abs _ => true
  | .sib _ _ b .none => b != 5
  | .sib _ _ _ _ => true
  | .sibNoBase _ _ _ => true

/-- A register operand is always encodable. -/
def RegMem.wf : RegMem → Bool
  | .reg _ => true
  | .mem m => m.wf

/-- An instruction whose operands can be encoded. -/
def Instr.wf : Instr → Bool
  | .punpcklbw _ _ rm => rm.wf
  | .punpcklwd _ _ rm => rm.wf
  | .punpckldq _ _ rm => rm.wf
  | .packsswb _ _ rm => rm.wf
  | .pcmpgtb _ _ rm => rm.wf
  | .pcmpgtw _ _ rm => rm.wf
  | .pcmpgtd _ _ rm => rm.wf
  | .packuswb _ _ rm => rm.wf
  | .punpckhbw _ _ rm => rm.wf
  | .punpckhwd _ _ rm => rm.wf
  | .punpckhdq _ _ rm => rm.wf
  | .packssdw _ _ rm => rm.wf
  | .movdToMm _ _ rm => rm.wf
  | .movqToMm _ _ rm => rm.wf
  | .psrlwImm _ _ _ => true
  | .psrawImm _ _ _ => true
  | .psllwImm _ _ _ => true
  | .psrldImm _ _ _ => true
  | .psradImm _ _ _ => true
  | .pslldImm _ _ _ => true
  | .psrlqImm _ _ _ => true
  | .psllqImm _ _ _ => true
  | .pcmpeqb _ _ rm => rm.wf
  | .pcmpeqw _ _ rm => rm.wf
  | .pcmpeqd _ _ rm => rm.wf
  | .emms _ => true
  | .movdFromMm _ _ rm => rm.wf
  | .movqFromMm _ _ rm => rm.wf
  | .psrlw _ _ rm => rm.wf
  | .psrld _ _ rm => rm.wf
  | .psrlq _ _ rm => rm.wf
  | .pmullw _ _ rm => rm.wf
  | .psubusb _ _ rm => rm.wf
  | .psubusw _ _ rm => rm.wf
  | .pand _ _ rm => rm.wf
  | .paddusb _ _ rm => rm.wf
  | .paddusw _ _ rm => rm.wf
  | .pandn _ _ rm => rm.wf
  | .psraw _ _ rm => rm.wf
  | .psrad _ _ rm => rm.wf
  | .pmulhw _ _ rm => rm.wf
  | .psubsb _ _ rm => rm.wf
  | .psubsw _ _ rm => rm.wf
  | .por _ _ rm => rm.wf
  | .paddsb _ _ rm => rm.wf
  | .paddsw _ _ rm => rm.wf
  | .pxor _ _ rm => rm.wf
  | .psllw _ _ rm => rm.wf
  | .pslld _ _ rm => rm.wf
  | .psllq _ _ rm => rm.wf
  | .pmaddwd _ _ rm => rm.wf
  | .psubb _ _ rm => rm.wf
  | .psubw _ _ rm => rm.wf
  | .psubd _ _ rm => rm.wf
  | .paddb _ _ rm => rm.wf
  | .paddw _ _ rm => rm.wf
  | .paddd _ _ rm => rm.wf

end Sys2Proof
end

