-- ==== Sys2Proof/Decode.lean ====
section
/-! DEFINITION. The decoder and the encoder (spec 30_encoding.md). The decoder is total on any bytes:
it gives an instruction and the bytes after it, `#UD`, or a refusal by name, or says that the bytes
end before the instruction does. -/

namespace Sys2Proof

/-! ## Fields of bytes -/

/-- `ModRM[7:6]`, and the scale `SIB[7:6]` (R82, R84). -/
def field76 (b : Byte) : BitVec 2 := b.extractLsb' 6 2

/-- `ModRM[5:3]`, and the index `SIB[5:3]` (R82, R84). -/
def field53 (b : Byte) : BitVec 3 := b.extractLsb' 3 3

/-- `ModRM[2:0]`, and the base `SIB[2:0]` (R82, R84). -/
def field20 (b : Byte) : BitVec 3 := b.extractLsb' 0 3

/-- A ModRM or SIB byte from its three fields, the highest first (R82, R84). -/
def packFields (hi : BitVec 2) (mid lo : BitVec 3) : Byte := hi ++ mid ++ lo

/-- The four bytes of a doubleword, least significant first (R51, R96). -/
def bytesOfDword (w : Dword) : List Byte :=
  [w.extractLsb' 0 8, w.extractLsb' 8 8, w.extractLsb' 16 8, w.extractLsb' 24 8]

/-- The doubleword whose bytes in address order are `b0 b1 b2 b3` (R51, R96). -/
def dwordOfBytes (b0 b1 b2 b3 : Byte) : Dword := b3 ++ b2 ++ b1 ++ b0

/-! ## Prefixes (R89) -/

/-- The segment of a segment-override prefix byte. -/
def segOfPrefix : Byte → Option Seg
  | 0x26#8 => some .es
  | 0x2E#8 => some .cs
  | 0x36#8 => some .ss
  | 0x3E#8 => some .ds
  | 0x64#8 => some .fs
  | 0x65#8 => some .gs
  | _ => none

/-- The prefix byte that overrides with a segment. -/
def prefixOfSeg : Seg → Byte
  | .es => 0x26
  | .cs => 0x2E
  | .ss => 0x36
  | .ds => 0x3E
  | .fs => 0x64
  | .gs => 0x65

/-- The `LOCK` prefix, illegal before every in-scope opcode (R261). -/
def lockPrefix : Byte := 0xF0

/-- The prefix bytes that are refused where an escape byte is due (R89, R94): operand size, address
size, `REPNE`, `REP`, and a second segment override. -/
def refusedPrefix (b : Byte) : Bool :=
  b == 0x66 || b == 0x67 || b == 0xF2 || b == 0xF3 || (segOfPrefix b).isSome

/-- The escape byte of every in-scope instruction (R80). -/
def escapeByte : Byte := 0x0F

/-! ## The opcode map (R90) -/

/-- The constructor of a format-`RM` opcode. -/
def rmInstr : Byte → Option (Option Seg → RegNum → RegMem → Instr)
  | 0x60#8 => some .punpcklbw
  | 0x61#8 => some .punpcklwd
  | 0x62#8 => some .punpckldq
  | 0x63#8 => some .packsswb
  | 0x64#8 => some .pcmpgtb
  | 0x65#8 => some .pcmpgtw
  | 0x66#8 => some .pcmpgtd
  | 0x67#8 => some .packuswb
  | 0x68#8 => some .punpckhbw
  | 0x69#8 => some .punpckhwd
  | 0x6A#8 => some .punpckhdq
  | 0x6B#8 => some .packssdw
  | 0x6E#8 => some .movdToMm
  | 0x6F#8 => some .movqToMm
  | 0x74#8 => some .pcmpeqb
  | 0x75#8 => some .pcmpeqw
  | 0x76#8 => some .pcmpeqd
  | 0x7E#8 => some .movdFromMm
  | 0x7F#8 => some .movqFromMm
  | 0xD1#8 => some .psrlw
  | 0xD2#8 => some .psrld
  | 0xD3#8 => some .psrlq
  | 0xD5#8 => some .pmullw
  | 0xD8#8 => some .psubusb
  | 0xD9#8 => some .psubusw
  | 0xDB#8 => some .pand
  | 0xDC#8 => some .paddusb
  | 0xDD#8 => some .paddusw
  | 0xDF#8 => some .pandn
  | 0xE1#8 => some .psraw
  | 0xE2#8 => some .psrad
  | 0xE5#8 => some .pmulhw
  | 0xE8#8 => some .psubsb
  | 0xE9#8 => some .psubsw
  | 0xEB#8 => some .por
  | 0xEC#8 => some .paddsb
  | 0xED#8 => some .paddsw
  | 0xEF#8 => some .pxor
  | 0xF1#8 => some .psllw
  | 0xF2#8 => some .pslld
  | 0xF3#8 => some .psllq
  | 0xF5#8 => some .pmaddwd
  | 0xF8#8 => some .psubb
  | 0xF9#8 => some .psubw
  | 0xFA#8 => some .psubd
  | 0xFC#8 => some .paddb
  | 0xFD#8 => some .paddw
  | 0xFE#8 => some .paddd
  | _ => none

/-- Is the opcode one of the shift-by-immediate group (format `SHI`, R81)? -/
def isShiftGroup (op : Byte) : Bool := op == 0x71 || op == 0x72 || op == 0x73

/-- The constructor of a shift-group opcode and its extension `/n`, ModRM's `reg` field. -/
def shiInstr : Byte → BitVec 3 → Option (Option Seg → RegNum → Byte → Instr)
  | 0x71#8, 2#3 => some .psrlwImm
  | 0x71#8, 4#3 => some .psrawImm
  | 0x71#8, 6#3 => some .psllwImm
  | 0x72#8, 2#3 => some .psrldImm
  | 0x72#8, 4#3 => some .psradImm
  | 0x72#8, 6#3 => some .pslldImm
  | 0x73#8, 2#3 => some .psrlqImm
  | 0x73#8, 6#3 => some .psllqImm
  | _, _ => none

/-- The opcode of `EMMS`, the one instruction of format `NONE`. -/
def emmsOpcode : Byte := 0x77

/-- The name of what a later extension put at `0F op`, for the refusal (R91 (b), R239, R240, R250). -/
def extensionName : Byte → String
  | 0x6C#8 => "PUNPCKLQDQ"
  | 0x6D#8 => "PUNPCKHQDQ"
  | 0x70#8 => "PSHUFW"
  | 0xC4#8 => "PINSRW"
  | 0xC5#8 => "PEXTRW"
  | 0xD4#8 => "PADDQ"
  | 0xD7#8 => "PMOVMSKB"
  | 0xDA#8 => "PMINUB"
  | 0xDE#8 => "PMAXUB"
  | 0xE0#8 => "PAVGB"
  | 0xE3#8 => "PAVGW"
  | 0xE4#8 => "PMULHUW"
  | 0xE7#8 => "MOVNTQ"
  | 0xEA#8 => "PMINSW"
  | 0xEE#8 => "PMAXSW"
  | 0xF4#8 => "PMULUDQ"
  | 0xF6#8 => "PSADBW"
  | 0xF7#8 => "MASKMOVQ"
  | 0xFB#8 => "PSUBQ"
  | _ => "unlisted"

/-! ## Decoding (R94) -/

/-- Why the decoder refuses a byte string. None of these says that a chip faults (R6). -/
inductive DecodeRefusal where
  /-- A prefix that the spec gives no meaning, or a second one (R89). -/
  | prefixByte (b : Byte)
  /-- The first byte after the optional prefix is not `0F` (R91 (c)). -/
  | firstByte (b : Byte)
  /-- `0F op` is not a row of the opcode map; `name` is what a later extension put there (R91). -/
  | opcode (op : Byte) (name : String)
deriving DecidableEq, Repr

/-- What the decoder makes of a byte string. -/
inductive Decoded where
  /-- An instruction, and the bytes that follow it. -/
  | instr (i : Instr) (rest : List Byte)
  /-- An illegal encoding: the machine raises `#UD` (R91 (a), R261). -/
  | invalid
  /-- No instruction of this spec. -/
  | refused (r : DecodeRefusal)
  /-- The bytes end before the instruction does. -/
  | short
deriving DecidableEq, Repr

/-- A displacement of four bytes, and the bytes after it (R96). -/
def takeDword : List Byte → Option (Dword × List Byte)
  | b0 :: b1 :: b2 :: b3 :: rest => some (dwordOfBytes b0 b1 b2 b3, rest)
  | _ => none

/-- The displacement that `mod` calls for (R83). -/
def takeDisp (mod : BitVec 2) (bs : List Byte) : Option (Disp × List Byte) :=
  if mod = 0 then some (.none, bs)
  else if mod = 1 then
    match bs with
    | b :: rest => some (.d8 b, rest)
    | [] => none
  else (takeDword bs).map fun (w, rest) => (.d32 w, rest)

/-- The memory operand of a SIB byte (R84). -/
def takeSib (mod : BitVec 2) : List Byte → Option (MemOperand × List Byte)
  | [] => none
  | s :: bs =>
    if field20 s = 5 ∧ mod = 0 then
      (takeDword bs).map fun (w, rest) => (.sibNoBase (field76 s) (field53 s) w, rest)
    else
      (takeDisp mod bs).map fun (d, rest) =>
        (.sib (field76 s) (field53 s) (field20 s) d, rest)

/-- The memory operand of `mod` and `rm`, `mod` not `11B` (R83). -/
def takeMem (mod : BitVec 2) (rm : RegNum) (bs : List Byte) : Option (MemOperand × List Byte) :=
  if rm = 4 then takeSib mod bs
  else if rm = 5 ∧ mod = 0 then
    (takeDword bs).map fun (w, rest) => (.abs w, rest)
  else (takeDisp mod bs).map fun (d, rest) => (.base rm d, rest)

/-- The operand of `mod` and `rm` (R82, R83). -/
def takeRegMem (modrm : Byte) (bs : List Byte) : Option (RegMem × List Byte) :=
  if field76 modrm = 3 then some (.reg (field20 modrm), bs)
  else (takeMem (field76 modrm) (field20 modrm) bs).map fun (m, rest) => (.mem m, rest)

/-- A format-`RM` instruction, from its ModRM byte on. -/
def decodeRm (mk : RegNum → RegMem → Instr) : List Byte → Decoded
  | [] => .short
  | modrm :: bs =>
    match takeRegMem modrm bs with
    | some (rm, rest) => .instr (mk (field53 modrm) rm) rest
    | none => .short

/-- A shift-group instruction, from its ModRM byte on: `mod` must be `11B` and `/n` listed, else
`#UD`, before the immediate is read (R91 (a), R94). -/
def decodeShift (pre : Option Seg) (op : Byte) : List Byte → Decoded
  | [] => .short
  | modrm :: bs =>
    if field76 modrm = 3 then
      match shiInstr op (field53 modrm) with
      | none => .invalid
      | some mk =>
        match bs with
        | [] => .short
        | imm :: rest => .instr (mk pre (field20 modrm) imm) rest
    else .invalid

/-- From the opcode byte on. -/
def decodeOpcode (pre : Option Seg) : List Byte → Decoded
  | [] => .short
  | op :: bs =>
    if op = emmsOpcode then .instr (.emms pre) bs
    else if isShiftGroup op then decodeShift pre op bs
    else
      match rmInstr op with
      | some mk => decodeRm (mk pre) bs
      | none => .refused (.opcode op (extensionName op))

/-- From the byte after the optional segment override on. -/
def decodeEscape (pre : Option Seg) : List Byte → Decoded
  | [] => .short
  | b :: bs =>
    if b = lockPrefix then .invalid
    else if refusedPrefix b then .refused (.prefixByte b)
    else if b = escapeByte then decodeOpcode pre bs
    else .refused (.firstByte b)

/-- Decode the bytes at the program counter, in address order (R94). -/
def decode : List Byte → Decoded
  | [] => .short
  | b :: bs =>
    match segOfPrefix b with
    | some sg => decodeEscape (some sg) bs
    | none => decodeEscape none (b :: bs)

/-! ## Encoding (R80 to R84, R90, R96) -/

/-- The three formats (R81), with the opcode byte and the fields. -/
inductive Format where
  | rm (op : Byte) (reg : RegNum) (rm : RegMem)
  | shi (op : Byte) (ext : BitVec 3) (rm : RegNum) (imm : Byte)
  | bare (op : Byte)
deriving DecidableEq, Repr

/-- The row of the opcode map (R90) that an instruction is, with its fields. -/
def Instr.format : Instr → Format
  | .punpcklbw _ reg rm => .rm 0x60 reg rm
  | .punpcklwd _ reg rm => .rm 0x61 reg rm
  | .punpckldq _ reg rm => .rm 0x62 reg rm
  | .packsswb _ reg rm => .rm 0x63 reg rm
  | .pcmpgtb _ reg rm => .rm 0x64 reg rm
  | .pcmpgtw _ reg rm => .rm 0x65 reg rm
  | .pcmpgtd _ reg rm => .rm 0x66 reg rm
  | .packuswb _ reg rm => .rm 0x67 reg rm
  | .punpckhbw _ reg rm => .rm 0x68 reg rm
  | .punpckhwd _ reg rm => .rm 0x69 reg rm
  | .punpckhdq _ reg rm => .rm 0x6A reg rm
  | .packssdw _ reg rm => .rm 0x6B reg rm
  | .movdToMm _ reg rm => .rm 0x6E reg rm
  | .movqToMm _ reg rm => .rm 0x6F reg rm
  | .psrlwImm _ rm imm => .shi 0x71 2 rm imm
  | .psrawImm _ rm imm => .shi 0x71 4 rm imm
  | .psllwImm _ rm imm => .shi 0x71 6 rm imm
  | .psrldImm _ rm imm => .shi 0x72 2 rm imm
  | .psradImm _ rm imm => .shi 0x72 4 rm imm
  | .pslldImm _ rm imm => .shi 0x72 6 rm imm
  | .psrlqImm _ rm imm => .shi 0x73 2 rm imm
  | .psllqImm _ rm imm => .shi 0x73 6 rm imm
  | .pcmpeqb _ reg rm => .rm 0x74 reg rm
  | .pcmpeqw _ reg rm => .rm 0x75 reg rm
  | .pcmpeqd _ reg rm => .rm 0x76 reg rm
  | .emms _ => .bare 0x77
  | .movdFromMm _ reg rm => .rm 0x7E reg rm
  | .movqFromMm _ reg rm => .rm 0x7F reg rm
  | .psrlw _ reg rm => .rm 0xD1 reg rm
  | .psrld _ reg rm => .rm 0xD2 reg rm
  | .psrlq _ reg rm => .rm 0xD3 reg rm
  | .pmullw _ reg rm => .rm 0xD5 reg rm
  | .psubusb _ reg rm => .rm 0xD8 reg rm
  | .psubusw _ reg rm => .rm 0xD9 reg rm
  | .pand _ reg rm => .rm 0xDB reg rm
  | .paddusb _ reg rm => .rm 0xDC reg rm
  | .paddusw _ reg rm => .rm 0xDD reg rm
  | .pandn _ reg rm => .rm 0xDF reg rm
  | .psraw _ reg rm => .rm 0xE1 reg rm
  | .psrad _ reg rm => .rm 0xE2 reg rm
  | .pmulhw _ reg rm => .rm 0xE5 reg rm
  | .psubsb _ reg rm => .rm 0xE8 reg rm
  | .psubsw _ reg rm => .rm 0xE9 reg rm
  | .por _ reg rm => .rm 0xEB reg rm
  | .paddsb _ reg rm => .rm 0xEC reg rm
  | .paddsw _ reg rm => .rm 0xED reg rm
  | .pxor _ reg rm => .rm 0xEF reg rm
  | .psllw _ reg rm => .rm 0xF1 reg rm
  | .pslld _ reg rm => .rm 0xF2 reg rm
  | .psllq _ reg rm => .rm 0xF3 reg rm
  | .pmaddwd _ reg rm => .rm 0xF5 reg rm
  | .psubb _ reg rm => .rm 0xF8 reg rm
  | .psubw _ reg rm => .rm 0xF9 reg rm
  | .psubd _ reg rm => .rm 0xFA reg rm
  | .paddb _ reg rm => .rm 0xFC reg rm
  | .paddw _ reg rm => .rm 0xFD reg rm
  | .paddd _ reg rm => .rm 0xFE reg rm

/-- The segment-override prefix an instruction carries (R89). -/
def Instr.override : Instr → Option Seg
  | .punpcklbw pre _ _ => pre
  | .punpcklwd pre _ _ => pre
  | .punpckldq pre _ _ => pre
  | .packsswb pre _ _ => pre
  | .pcmpgtb pre _ _ => pre
  | .pcmpgtw pre _ _ => pre
  | .pcmpgtd pre _ _ => pre
  | .packuswb pre _ _ => pre
  | .punpckhbw pre _ _ => pre
  | .punpckhwd pre _ _ => pre
  | .punpckhdq pre _ _ => pre
  | .packssdw pre _ _ => pre
  | .movdToMm pre _ _ => pre
  | .movqToMm pre _ _ => pre
  | .psrlwImm pre _ _ => pre
  | .psrawImm pre _ _ => pre
  | .psllwImm pre _ _ => pre
  | .psrldImm pre _ _ => pre
  | .psradImm pre _ _ => pre
  | .pslldImm pre _ _ => pre
  | .psrlqImm pre _ _ => pre
  | .psllqImm pre _ _ => pre
  | .pcmpeqb pre _ _ => pre
  | .pcmpeqw pre _ _ => pre
  | .pcmpeqd pre _ _ => pre
  | .emms pre => pre
  | .movdFromMm pre _ _ => pre
  | .movqFromMm pre _ _ => pre
  | .psrlw pre _ _ => pre
  | .psrld pre _ _ => pre
  | .psrlq pre _ _ => pre
  | .pmullw pre _ _ => pre
  | .psubusb pre _ _ => pre
  | .psubusw pre _ _ => pre
  | .pand pre _ _ => pre
  | .paddusb pre _ _ => pre
  | .paddusw pre _ _ => pre
  | .pandn pre _ _ => pre
  | .psraw pre _ _ => pre
  | .psrad pre _ _ => pre
  | .pmulhw pre _ _ => pre
  | .psubsb pre _ _ => pre
  | .psubsw pre _ _ => pre
  | .por pre _ _ => pre
  | .paddsb pre _ _ => pre
  | .paddsw pre _ _ => pre
  | .pxor pre _ _ => pre
  | .psllw pre _ _ => pre
  | .pslld pre _ _ => pre
  | .psllq pre _ _ => pre
  | .pmaddwd pre _ _ => pre
  | .psubb pre _ _ => pre
  | .psubw pre _ _ => pre
  | .psubd pre _ _ => pre
  | .paddb pre _ _ => pre
  | .paddw pre _ _ => pre
  | .paddd pre _ _ => pre

/-- The instruction of a prefix and a format, if the opcode map lists it: the decoder's table read
from the encoder's side. -/
def assemble (pre : Option Seg) : Format → Option Instr
  | .rm op reg rm => (rmInstr op).map fun mk => mk pre reg rm
  | .shi op ext rm imm => (shiInstr op ext).map fun mk => mk pre rm imm
  | .bare op => if op = emmsOpcode then some (.emms pre) else none

/-- The `mod` field that a displacement calls for (R83). -/
def Disp.mod : Disp → BitVec 2
  | .none => 0
  | .d8 _ => 1
  | .d32 _ => 2

/-- The bytes of a displacement (R96). -/
def Disp.bytes : Disp → List Byte
  | .none => []
  | .d8 b => [b]
  | .d32 w => bytesOfDword w

/-- ModRM and what follows it, for a memory operand (R83, R84). -/
def MemOperand.bytes (reg : RegNum) : MemOperand → List Byte
  | .base r d => packFields d.mod reg r :: d.bytes
  | .abs w => packFields 0 reg 5 :: bytesOfDword w
  | .sib ss idx b d => packFields d.mod reg 4 :: packFields ss idx b :: d.bytes
  | .sibNoBase ss idx w => packFields 0 reg 4 :: packFields ss idx 5 :: bytesOfDword w

/-- ModRM and what follows it (R82). -/
def RegMem.bytes (reg : RegNum) : RegMem → List Byte
  | .reg r => [packFields 3 reg r]
  | .mem m => m.bytes reg

/-- The opcode byte and what follows it. -/
def Format.bytes : Format → List Byte
  | .rm op reg operand => op :: operand.bytes reg
  | .shi op ext r imm => [op, packFields 3 ext r, imm]
  | .bare op => [op]

/-- The bytes of the optional segment override. -/
def prefixBytes : Option Seg → List Byte
  | none => []
  | some sg => [prefixOfSeg sg]

/-- The bytes of a well-formed instruction, in address order (R80). -/
def encode (i : Instr) : List Byte :=
  prefixBytes i.override ++ escapeByte :: i.format.bytes

/-! ## Lengths (R88) -/

/-- The length of the optional prefix. -/
def prefixLength : Option Seg → Nat
  | none => 0
  | some _ => 1

/-- `dispsize` of R88 for a displacement after a base register. -/
def Disp.size : Disp → Nat
  | .none => 0
  | .d8 _ => 1
  | .d32 _ => 4

/-- SIB byte and displacement of a memory operand. -/
def MemOperand.size : MemOperand → Nat
  | .base _ d => d.size
  | .abs _ => 4
  | .sib _ _ _ d => 1 + d.size
  | .sibNoBase _ _ _ => 5

/-- What follows ModRM. -/
def RegMem.size : RegMem → Nat
  | .reg _ => 0
  | .mem m => m.size

/-- The length of a format-`RM` instruction: prefix, `0F`, opcode, ModRM, and what ModRM calls for. -/
def rmLength (pre : Option Seg) (rm : RegMem) : Nat := prefixLength pre + 3 + rm.size

/-- The length of a shift by immediate. -/
def shiLength (pre : Option Seg) : Nat := prefixLength pre + 4

/-- The length of `EMMS`. -/
def bareLength (pre : Option Seg) : Nat := prefixLength pre + 2

/-- The length of an instruction in bytes (R88). -/
def Instr.length (i : Instr) : Nat :=
  match i.format with
  | .rm _ _ rm => rmLength i.override rm
  | .shi _ _ _ _ => shiLength i.override
  | .bare _ => bareLength i.override

/-! ## The opcode table's numbers (R98) -/

/-- Byte `k` of a number, counted from its least significant byte. -/
def byteOfNat (w k : Nat) : Byte := BitVec.ofNat 8 (w / 256 ^ k)

/-- Bytes `k`, `k-1`, … `0` of a number: `n` of them, the most significant first. -/
def bytesDown (w : Nat) : Nat → List Byte
  | 0 => []
  | n + 1 => byteOfNat w n :: bytesDown w n

/-- `n` bytes of a number from byte `k` up. -/
def bytesUp (w k : Nat) : Nat → List Byte
  | 0 => []
  | n + 1 => byteOfNat w k :: bytesUp w (k + 1) n

/-- The bytes in address order that a number of a row may stand for, tried in this order. First the
table's own numbering: "the first three bytes" as one number with the first byte most significant
(R98: `match`, `mask`, `fixed`), and a fourth byte, the `imm8` of format `SHI`, counting on above
them; a number with a row's fixed bits where the table puts them always reads as that row. After it,
for a number the first reading gives no instruction: the row's whole pattern with the first byte most
significant, then with the first byte least significant (notes/assumptions/14.md). -/
def tableReadings (nbits w : Nat) : List (List Byte) :=
  let n := (nbits + 7) / 8
  [ bytesDown w (min n 3) ++ bytesUp w 3 (n - 3), bytesDown w n, bytesUp w 0 n ]

/-- Zeros after the row's bits, up to the longest instruction. -/
def padded (bs : List Byte) : List Byte :=
  bs ++ List.replicate (Config.maxLength - bs.length) 0

/-- Does the decoder read an instruction from these bytes? -/
def decodesToInstr (bs : List Byte) : Bool :=
  match decode bs with
  | .instr _ _ => true
  | _ => false

/-- The instruction's bytes in address order, for a number of the opcode table. -/
def tableBytes (nbits w : Nat) : List Byte :=
  (((tableReadings nbits w).map padded).find? decodesToInstr).getD
    (padded (bytesDown w (min ((nbits + 7) / 8) 3)))

/-- The instruction that the decoder reads from an instruction whose bits are `w`, numbered as
spec/opcode_table.json numbers them. -/
def decodeTableWord (nbits w : Nat) : Option Instr :=
  match decode (tableBytes nbits w) with
  | .instr i _ => some i
  | _ => none

end Sys2Proof
end

