-- ==== Sys2Proof/Machine/State.lean ====
section
/-! DEFINITION. The state of the machine, its reset value, and the ways a step can stop
(spec 10_state.md, 00_scope.md R5 and R6, 60_exceptions.md R260 and R271). -/

namespace Sys2Proof.Machine

/-- The operating modes that the spec names (R92, R274). It gives a meaning to 32-bit protected mode
only and refuses the others (R92). -/
inductive Mode where
  | protected32
  | protected16
  | realAddress
  | virtual8086
  | long64
  | systemManagement
deriving DecidableEq, Repr

/-- The addresses `lo ≤ a < hi`. -/
structure AddrRange where
  lo : Nat
  hi : Nat
deriving DecidableEq, Repr

/-- The kinds of data access that memory admission tells apart (R57). -/
inductive AccessKind where
  | read
  | write
deriving DecidableEq, Repr

/-- Why memory admission denies a byte: a segment's limit or rights (R265), or its page (R268), with
the error-code bits `P` (the page is present, a protection violation) and `RSVD`. -/
inductive DenialCause where
  | segment
  | page (present rsvd : Bool)
deriving DecidableEq, Repr

/-- One rule of the memory admission of a launch (R57): accesses through `seg` (every segment, if
none) of kind `kind` (both, if none) to a byte of `range` are denied; with `onlyUser`, at privilege
level 3 only. -/
structure Denial where
  seg : Option Seg
  kind : Option AccessKind
  range : AddrRange
  onlyUser : Bool
  cause : DenialCause
deriving DecidableEq, Repr

/-- What a ruling answers for an operand (R57): it lets it pass, and only the alignment check (R55) can
still stop it; or a segment violation (R265); or a page fault (R268) with the error-code bits `P` and
`RSVD`, at the operand's byte `offset` (modulo its size). -/
inductive Verdict where
  | pass
  | segment
  | page (present rsvd : Bool) (offset : Nat)
deriving DecidableEq, Repr

/-- One ruling of a launch's `Admit` (R57), by its arguments: for an operand that begins in `start`, of
`size` bytes (either size, if none), accessed through `seg` (every segment, if none) as `kind` (both,
if none). -/
structure Ruling where
  seg : Option Seg
  kind : Option AccessKind
  size : Option Nat
  start : AddrRange
  verdict : Verdict
deriving DecidableEq, Repr

/-- The launch parameters of R5 that are not bits of a register: no instruction changes them. -/
structure Launch where
  /-- `HAS_MMX` (R5, R266). -/
  hasMmx : Bool
  /-- `EMMS_TOS_ZERO`: whether `EMMS` also clears the top-of-stack field (R5, R221). -/
  emmsTosZero : Bool
  /-- `MODEL_X87_ALIAS`: whether the x87 side effects are carried (R5, R22). -/
  modelX87Alias : Bool
  /-- What `Admit` answers by its arguments, the first ruling that speaks deciding (R57). -/
  rulings : List Ruling
  /-- What `Admit` denies where no ruling speaks, beyond an operand that would pass the top of memory
  (R57). -/
  denials : List Denial
  /-- Whether `Admit`, where no ruling speaks, lets an operand pass address `2^32 - 1` and go on at 0
  (R50, R52, R57). -/
  admitWrap : Bool
  /-- `CodeRange`, the bytes that hold the program (R5, R64). -/
  codeRange : List AddrRange
  /-- `EndAddr`, the address at which a run is over (R5, R302). -/
  endAddr : Dword
deriving DecidableEq, Repr

/-- The state of the machine: plain data, everything the spec gives it. -/
structure State where
  /-- The physical x87 registers `R[0..7]`: bits 63:0 of `R[i]` are `MM[i]` (R20, R22). -/
  x87 : Vector (BitVec 80) 8
  /-- The x87 tag word `TAG` (R25). -/
  tag : BitVec 16
  /-- The x87 status word: `TOS` is its bits 13:11 (R26), `X87_PENDING` its bit 7, `ES` (R33). -/
  fsw : BitVec 16
  /-- The general registers `EAX ECX EDX EBX ESP EBP ESI EDI` (R27). -/
  gpr : Vector Dword 8
  /-- `EIP` (R29). -/
  eip : Dword
  /-- `EFLAGS`; bit 18 is `AC` (R30, R33). -/
  eflags : Dword
  /-- `CR0`; bits 1 `MP`, 2 `EM`, 3 `TS`, 5 `NE`, 18 `AM` (R33). -/
  cr0 : Dword
  /-- `CR4`, no bit of which governs an in-scope instruction (R33, R36). -/
  cr4 : Dword
  /-- `CPL`, the privilege level 0 to 3 (R33, R274). -/
  cpl : BitVec 2
  /-- The bases of the segment registers `ES CS SS DS FS GS`, all 0 in the flat mode that runs (R28,
  R36). No in-scope instruction reads or writes a segment register. -/
  segBase : Vector Dword 6
  /-- The operating mode (R5, R92). -/
  mode : Mode
  /-- Memory: the bytes that differ from what an unlisted address reads as, by rising address (R50). -/
  mem : List Host.Cell
  /-- The launch parameters (R5, R301). -/
  launch : Launch
deriving DecidableEq, Repr

/-- The launch parameters at their defaults (R5), with no program placed. `codeRange` and `endAddr`
have no default: DESIGN CHOICE, empty and 0 (notes/assumptions/4.md). -/
def Launch.default : Launch where
  hasMmx := true
  emmsTosZero := true
  modelX87Alias := true
  rulings := []
  denials := []
  admitWrap := false
  codeRange := []
  endAddr := 0

/-- The segment bases after RESET and INIT: `CS` at `0xFFFF0000` (R36), the others 0
(notes/assumptions/1.md). -/
def resetSegBase : Vector Dword 6 := #v[0, 0xFFFF0000, 0, 0, 0, 0]

/-- The machine right after RESET, by the table of R36; what that table leaves open is named in
notes/assumptions/1.md and 2.md. -/
def State.reset : State where
  x87 := Vector.replicate 8 0
  tag := 0x5555
  fsw := 0
  gpr := Vector.replicate 8 0
  eip := 0x0000FFF0
  eflags := 0x00000002
  cr0 := 0x60000010
  cr4 := 0
  cpl := 0
  segBase := resetSegBase
  mode := .realAddress
  mem := []
  launch := Launch.default

/-- The exceptions an in-scope instruction can raise (R260). Each is a fault: reported before the
instruction has changed anything. -/
inductive Exception where
  /-- `#UD`, vector 6: raised by the decoder on `LOCK` and on an illegal shift-group encoding, and by
  every instruction when `HAS_MMX` is false or `CR0.EM` is 1 (R91, R261, R262, R266). Safe. -/
  | invalidOpcode
  /-- `#NM`, vector 7: raised by every instruction when `CR0.TS` is 1 and `CR0.EM` is 0 (R263). Safe. -/
  | deviceNotAvailable
  /-- `#SS(0)`, vector 12: raised by memory admission for an operand in `SS` (R57, R265). Safe. -/
  | stackFault
  /-- `#GP(0)`, vector 13: raised by memory admission for an operand in another segment (R57, R265).
  Safe. -/
  | generalProtection
  /-- `#PF(code)`, vector 14, with the linear address that `CR2` receives: raised by memory admission
  where the launch denies a page (R57, R268). Safe. -/
  | pageFault (code : BitVec 5) (address : Dword)
  /-- `#MF`, vector 16: raised by every instruction while an x87 error is pending (R264). Safe. -/
  | x87Error
  /-- `#AC(0)`, vector 17: raised by a misaligned operand under alignment checking (R55, R267). Safe. -/
  | alignmentCheck
deriving DecidableEq, Repr

/-- How a run ends in a fault. -/
inductive Fault where
  /-- The processor would raise `cause`; `saved` is the unchanged state before the instruction, its
  `EIP` at the instruction's first byte (R6, R271). Raised by `Machine.raise` only. Safe: the chip
  would go on in a handler that the spec does not describe, and the model stops. -/
  | raised (cause : Exception) (saved : State)
deriving DecidableEq, Repr

/-- Why the model gives a step no meaning. None of these says that a chip faults (R6, R12). -/
inductive Refusal where
  /-- An arm of `exec` whose instruction has no meaning yet. Safe. -/
  | notModelled (mnemonic : String)
  /-- Raised by `step`: the bytes at `EIP` are no instruction of this spec (R89, R91, R94). Safe. -/
  | encoding (why : DecodeRefusal)
  /-- Raised by `step`: a byte of the instruction at `EIP` lies outside `CodeRange` (R64, R94). Safe. -/
  | fetchOutsideCode
  /-- Raised by `step`: the instruction at `EIP` would pass address `2^32 - 1` (R29). Safe. -/
  | fetchPastTop
  /-- Raised by a store, a byte of which lies in `CodeRange` (R64). Safe. -/
  | storeToCode
  /-- Raised by `step`: the machine is in a mode that the spec refuses (R6, R92). Safe. -/
  | mode (m : Mode)
  /-- Raised by `step` at `EIP = EndAddr`: the run is over and no step is taken (R302). Safe. -/
  | runOver
deriving DecidableEq, Repr

/-- What a step or a meaning answers. -/
abbrev Result := Host.Outcome State Fault Refusal

end Sys2Proof.Machine
end

