-- ==== Sys2Proof/Machine/Flags.lean ====
section
/-! DEFINITION. The bits of the control and status registers that in-scope instructions depend on
(spec 10_state.md R25, R26, R30, R33). No in-scope instruction reads or writes an arithmetic flag:
the comparison instructions deliver masks, and saturation is reported nowhere (R30). -/

namespace Sys2Proof.Machine

/-- `CR0.EM`, bit 2 (R33). -/
def State.em (s : State) : Bool := s.cr0.getLsbD 2

/-- `CR0.TS`, bit 3 (R33). -/
def State.ts (s : State) : Bool := s.cr0.getLsbD 3

/-- `CR0.AM`, bit 18 (R33). -/
def State.am (s : State) : Bool := s.cr0.getLsbD 18

/-- `EFLAGS.AC`, bit 18 (R33). -/
def State.ac (s : State) : Bool := s.eflags.getLsbD 18

/-- Privilege level 3, the least privileged (R274). -/
def State.user (s : State) : Bool := s.cpl == 3

/-- `ALIGN_CHECK`: `CR0.AM = 1` and `EFLAGS.AC = 1` and `CPL = 3` (R5, R55). -/
def State.alignCheck (s : State) : Bool := s.am && s.ac && s.user

/-- `X87_PENDING`: bit 7, `ES`, of the x87 status word (R33). -/
def State.x87Pending (s : State) : Bool := s.fsw.getLsbD 7

/-- `TOS`: bits 13:11 of the x87 status word (R26). -/
def State.tos (s : State) : BitVec 3 := s.fsw.extractLsb' 11 3

/-- An x87 status word with its `TOS` field replaced and its other bits kept (R23, R26). -/
def setTos (fsw : BitVec 16) (t : BitVec 3) : BitVec 16 :=
  fsw.extractLsb' 14 2 ++ t ++ fsw.extractLsb' 0 11

/-- The tag of physical register `R[i]`: bits `2i+1:2i` of `TAG` (R25). -/
def State.tagField (s : State) (i : RegNum) : BitVec 2 := s.tag.extractLsb' (2 * i.toNat) 2

/-- The tag word that marks all eight registers valid, `00B` (R23, R25). -/
def tagAllValid : BitVec 16 := 0x0000

/-- The tag word that marks all eight registers empty, `11B` (R25, R221). -/
def tagAllEmpty : BitVec 16 := 0xFFFF

end Sys2Proof.Machine
end

