-- ==== Sys2Proof/Machine/Memory.lean ====
section
/-! DEFINITION. Memory as data: a list of the bytes that differ from what an unlisted address reads
as, by strictly rising address (spec 20_memory.md R50, R52). -/

namespace Sys2Proof.Machine

/-- The byte at an address. -/
def readCell : List Host.Cell → Nat → Byte
  | [], _ => Config.unlistedByte
  | (k, v) :: rest, a => if k = a then v else readCell rest a

/-- Store a byte and keep the canonical form: a byte equal to what an unlisted address reads as is
not listed. -/
def writeCell : List Host.Cell → Nat → Byte → List Host.Cell
  | [], a, v => if v = Config.unlistedByte then [] else [(a, v)]
  | (k, w) :: rest, a, v =>
    if a < k then
      if v = Config.unlistedByte then (k, w) :: rest else (a, v) :: (k, w) :: rest
    else if a = k then
      if v = Config.unlistedByte then rest else (a, v) :: rest
    else (k, w) :: writeCell rest a v

/-- The canonical form from address `lo` on: addresses strictly rising and inside the address space,
no listed byte equal to what an unlisted address reads as. -/
def cellsFrom (lo : Nat) : List Host.Cell → Bool
  | [] => true
  | (k, v) :: rest =>
    decide (lo ≤ k) && decide (k < Config.addressSpace) && decide (v ≠ Config.unlistedByte) &&
      cellsFrom (k + 1) rest

/-- The canonical form of memory. -/
def Memory.wf (m : List Host.Cell) : Bool := cellsFrom 0 m

/-- Store bytes at rising addresses, taken modulo 2^32 (R52). -/
def writeCells (m : List Host.Cell) (a : Dword) : List Byte → List Host.Cell
  | [] => m
  | b :: bs => writeCells (writeCell m a.toNat b) (a + 1) bs

end Sys2Proof.Machine
end

