-- ==== Sys2Proof/Machine/Ops.lean ====
section
/-! DEFINITION. The named operations on registers and memory: reading and writing registers with their
x87 side effects, memory admission and access, and taking an exception. -/

namespace Sys2Proof.Machine

/-! ## Exceptions -/

/-- The vector of an exception (R260). -/
def Exception.vector : Exception → Nat
  | .invalidOpcode => 6
  | .deviceNotAvailable => 7
  | .stackFault => 12
  | .generalProtection => 13
  | .pageFault _ _ => 14
  | .x87Error => 16
  | .alignmentCheck => 17

/-- The error code of an exception, where it has one (R260). -/
def Exception.errorCode : Exception → Option (BitVec 5)
  | .invalidOpcode => none
  | .deviceNotAvailable => none
  | .stackFault => some 0
  | .generalProtection => some 0
  | .pageFault code _ => some code
  | .x87Error => none
  | .alignmentCheck => some 0

/-- Take an exception: the run ends with the unchanged state before the instruction (R6, R271). There
is no return from one (R272). -/
def raise (x : Exception) (s : State) : Result := .fault (.raised x s)

/-- `MMXCheck()` (R266), in the order of R269: the exception that keeps every in-scope instruction from
running in this state, if there is one. -/
def mmxCheck (s : State) : Option Exception :=
  if s.launch.hasMmx = false then some .invalidOpcode
  else if s.em then some .invalidOpcode
  else if s.ts then some .deviceNotAvailable
  else if s.x87Pending then some .x87Error
  else none

/-! ## Registers -/

/-- Physical x87 register `R[i]` (R22). -/
def State.x87Reg (s : State) (i : RegNum) : BitVec 80 := s.x87[i.toNat]'i.isLt

/-- MMX register `MM[i]`: bits 63:0 of `R[i]` (R20, R22). -/
def State.mm (s : State) (i : RegNum) : Quad := (s.x87Reg i).extractLsb' 0 64

/-- Bits 79:64 of `R[i]`: the x87 sign and exponent (R22). -/
def State.x87Top (s : State) (i : RegNum) : BitVec 16 := (s.x87Reg i).extractLsb' 64 16

/-- Bits 79:64 of `R[i]` after a write to `MM[i]`: all ones (R24), or as before in a launch that does
not carry the x87 side effects (R22). -/
def State.topAfterWrite (s : State) (i : RegNum) : BitVec 16 :=
  if s.launch.modelX87Alias then 0xFFFF else s.x87Top i

/-- `MM[i] <- v` with its side effect on `R[i][79:64]` (R24). -/
def State.writeMm (s : State) (i : RegNum) (v : Quad) : State :=
  { s with x87 := s.x87.set i.toNat (s.topAfterWrite i ++ v) i.isLt }

/-- General register `x[i]` (R27). -/
def State.reg (s : State) (i : RegNum) : Dword := s.gpr[i.toNat]'i.isLt

/-- `x[i] <- v` (R27). -/
def State.writeReg (s : State) (i : RegNum) (v : Dword) : State :=
  { s with gpr := s.gpr.set i.toNat v i.isLt }

/-- The number of a segment register, in the order of R28. -/
def segIndex : Seg → Fin 6
  | .es => 0
  | .cs => 1
  | .ss => 2
  | .ds => 3
  | .fs => 4
  | .gs => 5

/-- The base of a segment register (R28). -/
def State.baseOf (s : State) (g : Seg) : Dword := s.segBase[segIndex g]

/-- `MMXTouch()`: the x87 side effect of every instruction but `EMMS` (R23). -/
def State.touch (s : State) : State :=
  if s.launch.modelX87Alias then { s with tag := tagAllValid, fsw := setTos s.fsw 0 } else s

/-- `TAG <- 0xFFFF`, and `TOS <- 0` where the launch says so: what `EMMS` does to the x87 state (R221). -/
def State.empty (s : State) : State :=
  if s.launch.modelX87Alias then
    { s with
      tag := tagAllEmpty
      fsw := if s.launch.emmsTosZero then setTos s.fsw 0 else s.fsw }
  else s

/-- `pc <- pc + len`, modulo 2^32 (R29). -/
def State.advance (s : State) (len : Nat) : State := { s with eip := s.eip + BitVec.ofNat 32 len }

/-- How every instruction but `EMMS` ends: `MMXTouch(); pc <- pc + len` (R10). -/
def State.complete (s : State) (len : Nat) : State := s.touch.advance len

/-! ## Memory -/

/-- `M[a]`, the byte at a linear address (R52). -/
def State.byteAt (s : State) (a : Dword) : Byte := readCell s.mem a.toNat

/-- Is the address in the range? -/
def AddrRange.has (r : AddrRange) (a : Nat) : Bool := decide (r.lo ≤ a) && decide (a < r.hi)

/-- Is the address in `CodeRange` (R64)? -/
def State.inCode (s : State) (a : Nat) : Bool := s.launch.codeRange.any fun r => r.has a

/-- The addresses of an operand of `n` bytes at `a`, modulo 2^32 (R50, R52). -/
def operandBytes (a : Dword) : Nat → List Dword
  | 0 => []
  | n + 1 => a :: operandBytes (a + 1) n

/-- Does a denial speak of this access? -/
def Denial.applies (d : Denial) (seg : Seg) (kind : AccessKind) (s : State) : Bool :=
  (d.seg.isNone || d.seg == some seg) && (d.kind.isNone || d.kind == some kind) &&
    (!d.onlyUser || s.user)

/-- The first byte of an operand that a denial denies, counted from the operand's start. -/
def Denial.firstByte (d : Denial) (seg : Seg) (a : Dword) (n : Nat) (kind : AccessKind) (s : State) :
    Option Nat :=
  if d.applies seg kind s then
    (List.range n).find? fun k => d.range.has (a + BitVec.ofNat 32 k).toNat
  else none

/-- Does the operand pass address `2^32 - 1` (R50)? -/
def passesTop (a : Dword) (n : Nat) : Bool := decide (Config.addressSpace < a.toNat + n)

/-- Is the operand outside what its segment admits, by the denials (R57, R265)? -/
def segmentDenied (seg : Seg) (a : Dword) (n : Nat) (kind : AccessKind) (s : State) : Bool :=
  (passesTop a n && !s.launch.admitWrap) ||
    s.launch.denials.any fun d =>
      d.cause == .segment && (d.firstByte seg a n kind s).isSome

/-- The page fault of one denial, if it denies a byte of the operand (R268). -/
def Denial.pageVerdict (d : Denial) (seg : Seg) (a : Dword) (n : Nat) (kind : AccessKind) (s : State) :
    Option Verdict :=
  match d.cause with
  | .segment => none
  | .page present rsvd => (d.firstByte seg a n kind s).map fun k => .page present rsvd k

/-- What the denials answer for an operand: a segment violation before a page fault (R269;
notes/assumptions/9.md). -/
def denialsVerdict (seg : Seg) (a : Dword) (n : Nat) (kind : AccessKind) (s : State) : Verdict :=
  if segmentDenied seg a n kind s then .segment
  else (s.launch.denials.findSome? fun d => d.pageVerdict seg a n kind s).getD .pass

/-- Does a ruling speak of this operand? -/
def Ruling.applies (r : Ruling) (seg : Seg) (a : Dword) (n : Nat) (kind : AccessKind) : Bool :=
  (r.seg.isNone || r.seg == some seg) && (r.kind.isNone || r.kind == some kind) &&
    (r.size.isNone || r.size == some n) && r.start.has a.toNat

/-- What the launch answers for an operand: the first ruling that speaks of it, else the denials. -/
def verdictOf (seg : Seg) (a : Dword) (n : Nat) (kind : AccessKind) (s : State) : Verdict :=
  match s.launch.rulings.find? fun r => r.applies seg a n kind with
  | some r => r.verdict
  | none => denialsVerdict seg a n kind s

/-- The exception of a segment violation: `#SS(0)` in the stack segment, else `#GP(0)` (R57, R265). -/
def segmentException : Seg → Exception
  | .ss => .stackFault
  | _ => .generalProtection

/-- The error code of a page fault: bits `P`, `W/R`, `U/S`, `RSVD`, `I/D` from bit 0 up (R268). -/
def pageFaultCode (present rsvd : Bool) (kind : AccessKind) (s : State) : BitVec 5 :=
  BitVec.ofBool false ++ BitVec.ofBool rsvd ++ BitVec.ofBool s.user ++
    BitVec.ofBool (kind == .write) ++ BitVec.ofBool present

/-- The exception that a verdict raises, if any: an operand that may pass is still checked for its
alignment (R55, R267). -/
def Verdict.exception (v : Verdict) (seg : Seg) (a : Dword) (n : Nat) (kind : AccessKind) (s : State) :
    Option Exception :=
  match v with
  | .pass => if s.alignCheck && a.toNat % n != 0 then some .alignmentCheck else none
  | .segment => some (segmentException seg)
  | .page present rsvd k =>
    some (.pageFault (pageFaultCode present rsvd kind s) (a + BitVec.ofNat 32 (k % n)))

/-- `Admit(seg, addr, n, kind)` (R57): the one exception that keeps an operand from being accessed, or
none. A launch can supply every answer that R57 allows, through its rulings (notes/assumptions/5.md). -/
def admission (seg : Seg) (a : Dword) (n : Nat) (kind : AccessKind) (s : State) : Option Exception :=
  (verdictOf seg a n kind s).exception seg a n kind s

/-- The doubleword with bytes `f 0 .. f 3`, the least significant first (R51). -/
def ofBytes32 (f : Nat → Byte) : Dword := dwordOfBytes (f 0) (f 1) (f 2) (f 3)

/-- `MemRead(a, 4)` (R52): little-endian, one access, admitted as a whole. -/
def memRead32 (seg : Seg) (a : Dword) (s : State) : Except Exception Dword :=
  match admission seg a 4 .read s with
  | some x => .error x
  | none => .ok (ofBytes32 fun k => s.byteAt (a + BitVec.ofNat 32 k))

/-- `MemRead(a, 8)` (R52). -/
def memRead64 (seg : Seg) (a : Dword) (s : State) : Except Exception Quad :=
  match admission seg a 8 .read s with
  | some x => .error x
  | none => .ok (ofBytes fun k => s.byteAt (a + BitVec.ofNat 32 k))

/-- The bytes of a quadword, least significant first (R51). -/
def bytesOfQuad (v : Quad) : List Byte :=
  [byteLane v 0, byteLane v 1, byteLane v 2, byteLane v 3, byteLane v 4, byteLane v 5, byteLane v 6,
    byteLane v 7]

/-- `MemWrite` (R52): admitted as a whole before any byte is stored; then refused if a byte lies in
`CodeRange` (R64); else all bytes are stored. -/
def memWrite (seg : Seg) (a : Dword) (bs : List Byte) (s : State) : Result :=
  match admission seg a bs.length .write s with
  | some x => raise x s
  | none =>
    if (operandBytes a bs.length).any fun b => s.inCode b.toNat then .refused .storeToCode
    else .next { s with mem := writeCells s.mem a bs }

/-- Go on after an operation that answered a next state. -/
def thenNext (r : Result) (f : State → State) : Result :=
  match r with
  | .next s => .next (f s)
  | .fault x => .fault x
  | .refused x => .refused x

/-! ## Events from outside -/

/-- The INIT event, by the INIT column of R36: the MMX registers, the x87 state and memory are
unchanged, the general registers are unspecified (free values), and the rest is as after RESET, but
that `CR0` keeps `CD` and `NW` (bits 30 and 29). No step takes it (R270). -/
def State.afterInit (s : State) : State :=
  { s with
    gpr := Vector.ofFn fun i => Config.initGpr i.val
    eip := 0x0000FFF0
    eflags := 0x00000002
    cr0 := (s.cr0 &&& 0x60000000) ||| 0x00000010
    cr4 := 0
    cpl := 0
    segBase := resetSegBase
    mode := .realAddress }

end Sys2Proof.Machine
end

