-- ==== Sys2Proof/Machine/Operands.lean ====
section
/-! DEFINITION. Operand forms: effective addresses and segments (spec 30_encoding.md R85), the source
operands (R95), and the instruction shapes that the families share (00_scope.md R10, 42 R150). -/

namespace Sys2Proof.Machine

/-! ## Effective address and segment (R85) -/

/-- The value of a displacement: `disp8` sign-extended, `disp32` as it is (R96). -/
def dispValue : Disp → Dword
  | .none => 0
  | .d8 b => b.signExtend 32
  | .d32 w => w

/-- The scaled index: nothing if the field is `100B`, else `x[idx] * 2^ss` (R84). -/
def indexValue (ss : BitVec 2) (idx : RegNum) (s : State) : Dword :=
  if idx = 4 then 0 else s.reg idx <<< ss.toNat

/-- The effective address of a memory operand, modulo 2^32 (R85). -/
def effAddr (s : State) : MemOperand → Dword
  | .base r d => s.reg r + dispValue d
  | .abs w => w
  | .sib ss idx b d => s.reg b + indexValue ss idx s + dispValue d
  | .sibNoBase ss idx w => indexValue ss idx s + w

/-- The segment of a memory operand without an override: `SS` for a base of `EBP`, or of `ESP` or
`EBP` in a SIB byte, else `DS` (R85). -/
def defaultSeg : MemOperand → Seg
  | .base r _ => if r = 5 then .ss else .ds
  | .abs _ => .ds
  | .sib _ _ b _ => if b = 4 ∨ b = 5 then .ss else .ds
  | .sibNoBase _ _ _ => .ds

/-- The segment of a memory operand: the override's, if there is one (R85, R89). -/
def segOf (pre : Option Seg) (m : MemOperand) : Seg := pre.getD (defaultSeg m)

/-! ## Source operands (R95) -/

/-- `Src64()`: the 64-bit source, an MMX register or memory. -/
def src64 (pre : Option Seg) (rm : RegMem) (s : State) : Except Exception Quad :=
  match rm with
  | .reg r => .ok (s.mm r)
  | .mem m => memRead64 (segOf pre m) (effAddr s m) s

/-- `Src32L()`: the low doubleword of an MMX register, or four bytes of memory. -/
def src32L (pre : Option Seg) (rm : RegMem) (s : State) : Except Exception Dword :=
  match rm with
  | .reg r => .ok ((s.mm r).extractLsb' 0 32)
  | .mem m => memRead32 (segOf pre m) (effAddr s m) s

/-- The `r/m32` source of `MOVD mm, r/m32`: a general register or memory. -/
def src32 (pre : Option Seg) (rm : RegMem) (s : State) : Except Exception Dword :=
  match rm with
  | .reg r => .ok (s.reg r)
  | .mem m => memRead32 (segOf pre m) (effAddr s m) s

/-! ## Instruction shapes -/

/-- An instruction with an MMX destination: `MMXCheck()`, the source in full, then the destination,
then `MMXTouch(); pc <- pc + len` (R10, R66, R150). `f` gives the new value of `MM[d]` from its old
value and the source. -/
def toMm {α : Type} (src : State → Except Exception α) (d : RegNum) (len : Nat) (f : Quad → α → Quad)
    (s : State) : Result :=
  match mmxCheck s with
  | some x => raise x s
  | none =>
    match src s with
    | .error x => raise x s
    | .ok b => .next ((s.writeMm d (f (s.mm d) b)).complete len)

/-- `OP mm, mm/m64`: `MM[reg] <- f(MM[reg], Src64())` (R95, R150). -/
def binary64 (pre : Option Seg) (reg : RegNum) (rm : RegMem) (f : Quad → Quad → Quad) (s : State) :
    Result :=
  toMm (src64 pre rm) reg (rmLength pre rm) f s

/-- `OP mm, mm/m32`: `MM[reg] <- f(MM[reg], Src32L())` (R95, R130). -/
def binary32L (pre : Option Seg) (reg : RegNum) (rm : RegMem) (f : Quad → Dword → Quad) (s : State) :
    Result :=
  toMm (src32L pre rm) reg (rmLength pre rm) f s

/-- A shift with its count in an MMX register or memory: all 64 bits of it, unsigned (R209). -/
def shiftByOperand (pre : Option Seg) (reg : RegNum) (rm : RegMem) (f : Nat → Quad → Quad)
    (s : State) : Result :=
  binary64 pre reg rm (fun a b => f b.toNat a) s

/-- A shift by immediate: `MM[rm]` shifted by the zero-extended `imm8` (R87, R209). -/
def shiftByImm (pre : Option Seg) (rm : RegNum) (imm : Byte) (f : Nat → Quad → Quad) (s : State) :
    Result :=
  toMm (fun _ => .ok imm) rm (shiLength pre) (fun a c => f c.toNat a) s

/-- A store to memory: `MMXCheck(); MemWrite; MMXTouch(); pc <- pc + len` (R122, R124). -/
def toMemory (pre : Option Seg) (m : MemOperand) (len : Nat) (bs : List Byte) (s : State) : Result :=
  match mmxCheck s with
  | some x => raise x s
  | none => thenNext (memWrite (segOf pre m) (effAddr s m) bs s) fun t => t.complete len

end Sys2Proof.Machine
end

