-- ==== Sys2Proof/Machine/Arithmetic.lean ====
section
/-! DEFINITION. Packed arithmetic (spec 42_packed_arithmetic.md). The first operand is the destination's
old value, the second the source: subtraction is destination minus source (R150). -/

namespace Sys2Proof.Machine

/-- Per doubleword, the sum of the two signed products of its words, modulo 2^32 (R167, R168). -/
def multiplyAdd (a b : Quad) : Quad :=
  ofDwords fun j =>
    product (wordLane a (2 * j)) (wordLane b (2 * j)) +
      product (wordLane a (2 * j + 1)) (wordLane b (2 * j + 1))

/-- `PADDB` (R151). -/
def execPaddb (pre : Option Seg) (reg : RegNum) (rm : RegMem) (s : State) : Result :=
  binary64 pre reg rm (zipBytes addWrap) s

/-- `PADDW` (R152). -/
def execPaddw (pre : Option Seg) (reg : RegNum) (rm : RegMem) (s : State) : Result :=
  binary64 pre reg rm (zipWords addWrap) s

/-- `PADDD` (R153). -/
def execPaddd (pre : Option Seg) (reg : RegNum) (rm : RegMem) (s : State) : Result :=
  binary64 pre reg rm (zipDwords addWrap) s

/-- `PADDSB` (R154). -/
def execPaddsb (pre : Option Seg) (reg : RegNum) (rm : RegMem) (s : State) : Result :=
  binary64 pre reg rm (zipBytes addSatS) s

/-- `PADDSW` (R155). -/
def execPaddsw (pre : Option Seg) (reg : RegNum) (rm : RegMem) (s : State) : Result :=
  binary64 pre reg rm (zipWords addSatS) s

/-- `PADDUSB` (R156). -/
def execPaddusb (pre : Option Seg) (reg : RegNum) (rm : RegMem) (s : State) : Result :=
  binary64 pre reg rm (zipBytes addSatU) s

/-- `PADDUSW` (R157). -/
def execPaddusw (pre : Option Seg) (reg : RegNum) (rm : RegMem) (s : State) : Result :=
  binary64 pre reg rm (zipWords addSatU) s

/-- `PSUBB` (R158). -/
def execPsubb (pre : Option Seg) (reg : RegNum) (rm : RegMem) (s : State) : Result :=
  binary64 pre reg rm (zipBytes subWrap) s

/-- `PSUBW` (R159). -/
def execPsubw (pre : Option Seg) (reg : RegNum) (rm : RegMem) (s : State) : Result :=
  binary64 pre reg rm (zipWords subWrap) s

/-- `PSUBD` (R160). -/
def execPsubd (pre : Option Seg) (reg : RegNum) (rm : RegMem) (s : State) : Result :=
  binary64 pre reg rm (zipDwords subWrap) s

/-- `PSUBSB` (R161). -/
def execPsubsb (pre : Option Seg) (reg : RegNum) (rm : RegMem) (s : State) : Result :=
  binary64 pre reg rm (zipBytes subSatS) s

/-- `PSUBSW` (R162). -/
def execPsubsw (pre : Option Seg) (reg : RegNum) (rm : RegMem) (s : State) : Result :=
  binary64 pre reg rm (zipWords subSatS) s

/-- `PSUBUSB` (R163). -/
def execPsubusb (pre : Option Seg) (reg : RegNum) (rm : RegMem) (s : State) : Result :=
  binary64 pre reg rm (zipBytes subSatU) s

/-- `PSUBUSW` (R164). -/
def execPsubusw (pre : Option Seg) (reg : RegNum) (rm : RegMem) (s : State) : Result :=
  binary64 pre reg rm (zipWords subSatU) s

/-- `PMULHW` (R165). -/
def execPmulhw (pre : Option Seg) (reg : RegNum) (rm : RegMem) (s : State) : Result :=
  binary64 pre reg rm (zipWords mulHigh) s

/-- `PMULLW` (R166). -/
def execPmullw (pre : Option Seg) (reg : RegNum) (rm : RegMem) (s : State) : Result :=
  binary64 pre reg rm (zipWords mulLow) s

/-- `PMADDWD` (R167). -/
def execPmaddwd (pre : Option Seg) (reg : RegNum) (rm : RegMem) (s : State) : Result :=
  binary64 pre reg rm multiplyAdd s

end Sys2Proof.Machine
end

