-- ==== Sys2Proof/Machine/Comparison.lean ====
section
/-! DEFINITION. Comparison (spec 43_comparison.md): masks in the destination, no flag (R180). -/

namespace Sys2Proof.Machine

/-- `PCMPEQB` (R181). -/
def execPcmpeqb (pre : Option Seg) (reg : RegNum) (rm : RegMem) (s : State) : Result :=
  binary64 pre reg rm (zipBytes cmpEq) s

/-- `PCMPEQW` (R182). -/
def execPcmpeqw (pre : Option Seg) (reg : RegNum) (rm : RegMem) (s : State) : Result :=
  binary64 pre reg rm (zipWords cmpEq) s

/-- `PCMPEQD` (R183). -/
def execPcmpeqd (pre : Option Seg) (reg : RegNum) (rm : RegMem) (s : State) : Result :=
  binary64 pre reg rm (zipDwords cmpEq) s

/-- `PCMPGTB` (R184). -/
def execPcmpgtb (pre : Option Seg) (reg : RegNum) (rm : RegMem) (s : State) : Result :=
  binary64 pre reg rm (zipBytes cmpGt) s

/-- `PCMPGTW` (R185). -/
def execPcmpgtw (pre : Option Seg) (reg : RegNum) (rm : RegMem) (s : State) : Result :=
  binary64 pre reg rm (zipWords cmpGt) s

/-- `PCMPGTD` (R186). -/
def execPcmpgtd (pre : Option Seg) (reg : RegNum) (rm : RegMem) (s : State) : Result :=
  binary64 pre reg rm (zipDwords cmpGt) s

end Sys2Proof.Machine
end

