-- ==== Sys2Proof/Machine/Conversion.lean ====
section
/-! DEFINITION. Conversion: packs and unpacks (spec 41_conversion.md). `a` is the destination's old
value and `b` the source. -/

namespace Sys2Proof.Machine

/-- Four words of `a` and then four of `b`, each narrowed to a byte (R130, R131, R133). -/
def packWords (f : Word → Byte) (a b : Quad) : Quad :=
  ofBytes fun k => if k < 4 then f (wordLane a k) else f (wordLane b (k - 4))

/-- Two doublewords of `a` and then two of `b`, each narrowed to a word (R130, R132). -/
def packDwords (f : Dword → Word) (a b : Quad) : Quad :=
  ofWords fun k => if k < 2 then f (dwordLane a k) else f (dwordLane b (k - 2))

/-- Bytes of `a` and `b` in turn from byte lane `from_` up, `a`'s in the lower place (R130). -/
def interleaveBytes (from_ : Nat) (a b : Quad) : Quad :=
  ofBytes fun k => if k % 2 = 0 then byteLane a (from_ + k / 2) else byteLane b (from_ + k / 2)

/-- Words of `a` and `b` in turn from word lane `from_` up (R130). -/
def interleaveWords (from_ : Nat) (a b : Quad) : Quad :=
  ofWords fun k => if k % 2 = 0 then wordLane a (from_ + k / 2) else wordLane b (from_ + k / 2)

/-- Doublewords of `a` and `b` in turn from doubleword lane `from_` up (R130). -/
def interleaveDwords (from_ : Nat) (a b : Quad) : Quad :=
  ofDwords fun k => if k % 2 = 0 then dwordLane a (from_ + k / 2) else dwordLane b (from_ + k / 2)

/-- `PACKSSWB` (R131). -/
def execPacksswb (pre : Option Seg) (reg : RegNum) (rm : RegMem) (s : State) : Result :=
  binary64 pre reg rm (packWords fun w => satS 8 w.toInt) s

/-- `PACKSSDW` (R132). -/
def execPackssdw (pre : Option Seg) (reg : RegNum) (rm : RegMem) (s : State) : Result :=
  binary64 pre reg rm (packDwords fun w => satS 16 w.toInt) s

/-- `PACKUSWB` (R133): the words are signed, the bytes unsigned. -/
def execPackuswb (pre : Option Seg) (reg : RegNum) (rm : RegMem) (s : State) : Result :=
  binary64 pre reg rm (packWords fun w => satU 8 w.toInt) s

/-- `PUNPCKHBW` (R134). -/
def execPunpckhbw (pre : Option Seg) (reg : RegNum) (rm : RegMem) (s : State) : Result :=
  binary64 pre reg rm (interleaveBytes 4) s

/-- `PUNPCKHWD` (R135). -/
def execPunpckhwd (pre : Option Seg) (reg : RegNum) (rm : RegMem) (s : State) : Result :=
  binary64 pre reg rm (interleaveWords 2) s

/-- `PUNPCKHDQ` (R136). -/
def execPunpckhdq (pre : Option Seg) (reg : RegNum) (rm : RegMem) (s : State) : Result :=
  binary64 pre reg rm (interleaveDwords 1) s

/-- `PUNPCKLBW` (R137): the source has 32 bits. -/
def execPunpcklbw (pre : Option Seg) (reg : RegNum) (rm : RegMem) (s : State) : Result :=
  binary32L pre reg rm (fun a b => interleaveBytes 0 a (b.zeroExtend 64)) s

/-- `PUNPCKLWD` (R138): the source has 32 bits. -/
def execPunpcklwd (pre : Option Seg) (reg : RegNum) (rm : RegMem) (s : State) : Result :=
  binary32L pre reg rm (fun a b => interleaveWords 0 a (b.zeroExtend 64)) s

/-- `PUNPCKLDQ` (R139): the source has 32 bits. -/
def execPunpckldq (pre : Option Seg) (reg : RegNum) (rm : RegMem) (s : State) : Result :=
  binary32L pre reg rm (fun a b => interleaveDwords 0 a (b.zeroExtend 64)) s

end Sys2Proof.Machine
end

