-- ==== Sys2Proof/Machine/DataTransfer.lean ====
section
/-! DEFINITION. Data transfer: `MOVD` and `MOVQ`, each in two directions (spec 40_data_transfer.md). -/

namespace Sys2Proof.Machine

/-- `MOVD mm, r/m32` (R121): the doubleword, zero-extended. -/
def execMovdToMm (pre : Option Seg) (reg : RegNum) (rm : RegMem) (s : State) : Result :=
  toMm (src32 pre rm) reg (rmLength pre rm) (fun _ v => v.zeroExtend 64) s

/-- `MOVQ mm, mm/m64` (R123). -/
def execMovqToMm (pre : Option Seg) (reg : RegNum) (rm : RegMem) (s : State) : Result :=
  toMm (src64 pre rm) reg (rmLength pre rm) (fun _ v => v) s

/-- `MOVD r/m32, mm` (R122): the low doubleword, to a general register or to memory. -/
def execMovdFromMm (pre : Option Seg) (reg : RegNum) (rm : RegMem) (s : State) : Result :=
  match rm with
  | .mem m => toMemory pre m (rmLength pre rm) (bytesOfDword ((s.mm reg).extractLsb' 0 32)) s
  | .reg r =>
    match mmxCheck s with
    | some x => raise x s
    | none => .next ((s.writeReg r ((s.mm reg).extractLsb' 0 32)).complete (rmLength pre rm))

/-- `MOVQ mm/m64, mm` (R124): to MMX register `rm` or to memory. -/
def execMovqFromMm (pre : Option Seg) (reg : RegNum) (rm : RegMem) (s : State) : Result :=
  match rm with
  | .mem m => toMemory pre m (rmLength pre rm) (bytesOfQuad (s.mm reg)) s
  | .reg r => toMm (fun t => .ok (t.mm reg)) r (rmLength pre rm) (fun _ v => v) s

end Sys2Proof.Machine
end

