-- ==== Sys2Proof/Machine/Logical.lean ====
section
/-! DEFINITION. Logical operations on the whole quadword (spec 44_logical.md). -/

namespace Sys2Proof.Machine

/-- `PAND` (R191). -/
def execPand (pre : Option Seg) (reg : RegNum) (rm : RegMem) (s : State) : Result :=
  binary64 pre reg rm (fun a b => a &&& b) s

/-- `PANDN` (R192): the destination is complemented, not the source. -/
def execPandn (pre : Option Seg) (reg : RegNum) (rm : RegMem) (s : State) : Result :=
  binary64 pre reg rm (fun a b => ~~~a &&& b) s

/-- `POR` (R193). -/
def execPor (pre : Option Seg) (reg : RegNum) (rm : RegMem) (s : State) : Result :=
  binary64 pre reg rm (fun a b => a ||| b) s

/-- `PXOR` (R194). -/
def execPxor (pre : Option Seg) (reg : RegNum) (rm : RegMem) (s : State) : Result :=
  binary64 pre reg rm (fun a b => a ^^^ b) s

end Sys2Proof.Machine
end

