-- ==== Sys2Proof/Machine/Shift.lean ====
section
/-! DEFINITION. Shifts (spec 45_shift.md): one count for every lane, from the source operand or an
immediate byte (R209). -/

namespace Sys2Proof.Machine

/-- `PSLLW` (R201), the count in a register or memory. -/
def execPsllw (pre : Option Seg) (reg : RegNum) (rm : RegMem) (s : State) : Result :=
  shiftByOperand pre reg rm (fun c a => mapWords (shl c) a) s

/-- `PSLLW mm, imm8` (R201). -/
def execPsllwImm (pre : Option Seg) (rm : RegNum) (imm : Byte) (s : State) : Result :=
  shiftByImm pre rm imm (fun c a => mapWords (shl c) a) s

/-- `PSLLD` (R202), the count in a register or memory. -/
def execPslld (pre : Option Seg) (reg : RegNum) (rm : RegMem) (s : State) : Result :=
  shiftByOperand pre reg rm (fun c a => mapDwords (shl c) a) s

/-- `PSLLD mm, imm8` (R202). -/
def execPslldImm (pre : Option Seg) (rm : RegNum) (imm : Byte) (s : State) : Result :=
  shiftByImm pre rm imm (fun c a => mapDwords (shl c) a) s

/-- `PSLLQ` (R203), the count in a register or memory. -/
def execPsllq (pre : Option Seg) (reg : RegNum) (rm : RegMem) (s : State) : Result :=
  shiftByOperand pre reg rm (fun c a => shl c a) s

/-- `PSLLQ mm, imm8` (R203). -/
def execPsllqImm (pre : Option Seg) (rm : RegNum) (imm : Byte) (s : State) : Result :=
  shiftByImm pre rm imm (fun c a => shl c a) s

/-- `PSRLW` (R204), the count in a register or memory. -/
def execPsrlw (pre : Option Seg) (reg : RegNum) (rm : RegMem) (s : State) : Result :=
  shiftByOperand pre reg rm (fun c a => mapWords (shrLogical c) a) s

/-- `PSRLW mm, imm8` (R204). -/
def execPsrlwImm (pre : Option Seg) (rm : RegNum) (imm : Byte) (s : State) : Result :=
  shiftByImm pre rm imm (fun c a => mapWords (shrLogical c) a) s

/-- `PSRLD` (R205), the count in a register or memory. -/
def execPsrld (pre : Option Seg) (reg : RegNum) (rm : RegMem) (s : State) : Result :=
  shiftByOperand pre reg rm (fun c a => mapDwords (shrLogical c) a) s

/-- `PSRLD mm, imm8` (R205). -/
def execPsrldImm (pre : Option Seg) (rm : RegNum) (imm : Byte) (s : State) : Result :=
  shiftByImm pre rm imm (fun c a => mapDwords (shrLogical c) a) s

/-- `PSRLQ` (R206), the count in a register or memory. -/
def execPsrlq (pre : Option Seg) (reg : RegNum) (rm : RegMem) (s : State) : Result :=
  shiftByOperand pre reg rm (fun c a => shrLogical c a) s

/-- `PSRLQ mm, imm8` (R206). -/
def execPsrlqImm (pre : Option Seg) (rm : RegNum) (imm : Byte) (s : State) : Result :=
  shiftByImm pre rm imm (fun c a => shrLogical c a) s

/-- `PSRAW` (R207), the count in a register or memory. -/
def execPsraw (pre : Option Seg) (reg : RegNum) (rm : RegMem) (s : State) : Result :=
  shiftByOperand pre reg rm (fun c a => mapWords (shrArith c) a) s

/-- `PSRAW mm, imm8` (R207). -/
def execPsrawImm (pre : Option Seg) (rm : RegNum) (imm : Byte) (s : State) : Result :=
  shiftByImm pre rm imm (fun c a => mapWords (shrArith c) a) s

/-- `PSRAD` (R208), the count in a register or memory. -/
def execPsrad (pre : Option Seg) (reg : RegNum) (rm : RegMem) (s : State) : Result :=
  shiftByOperand pre reg rm (fun c a => mapDwords (shrArith c) a) s

/-- `PSRAD mm, imm8` (R208). -/
def execPsradImm (pre : Option Seg) (rm : RegNum) (imm : Byte) (s : State) : Result :=
  shiftByImm pre rm imm (fun c a => mapDwords (shrArith c) a) s

end Sys2Proof.Machine
end

