-- ==== Sys2Proof/Machine/StateManagement.lean ====
section
/-! DEFINITION. State management: `EMMS` (spec 46_state_management.md). -/

namespace Sys2Proof.Machine

/-- `EMMS` (R221): the tag word becomes all empty, the top-of-stack field 0 if the launch says so; no
register changes. The only instruction that does not end with `MMXTouch()`. -/
def execEmms (pre : Option Seg) (s : State) : Result :=
  match mmxCheck s with
  | some x => raise x s
  | none => .next (s.empty.advance (bareLength pre))

end Sys2Proof.Machine
end

