-- ==== Sys2Proof/Machine/Dispatch.lean ====
section
/-! DEFINITION. The meaning of each instruction: one arm for each row of the opcode table, in the
table's order (spec 30_encoding.md R90). -/

namespace Sys2Proof.Machine

def exec (i : Instr) (s : State) : Host.Outcome State Fault Refusal :=
  match i with
  | .punpcklbw pre reg rm => Sys2Proof.Machine.execPunpcklbw pre reg rm s
  | .punpcklwd pre reg rm => Sys2Proof.Machine.execPunpcklwd pre reg rm s
  | .punpckldq pre reg rm => Sys2Proof.Machine.execPunpckldq pre reg rm s
  | .packsswb pre reg rm => Sys2Proof.Machine.execPacksswb pre reg rm s
  | .pcmpgtb pre reg rm => Sys2Proof.Machine.execPcmpgtb pre reg rm s
  | .pcmpgtw pre reg rm => Sys2Proof.Machine.execPcmpgtw pre reg rm s
  | .pcmpgtd pre reg rm => Sys2Proof.Machine.execPcmpgtd pre reg rm s
  | .packuswb pre reg rm => Sys2Proof.Machine.execPackuswb pre reg rm s
  | .punpckhbw pre reg rm => Sys2Proof.Machine.execPunpckhbw pre reg rm s
  | .punpckhwd pre reg rm => Sys2Proof.Machine.execPunpckhwd pre reg rm s
  | .punpckhdq pre reg rm => Sys2Proof.Machine.execPunpckhdq pre reg rm s
  | .packssdw pre reg rm => Sys2Proof.Machine.execPackssdw pre reg rm s
  | .movdToMm pre reg rm => Sys2Proof.Machine.execMovdToMm pre reg rm s
  | .movqToMm pre reg rm => Sys2Proof.Machine.execMovqToMm pre reg rm s
  | .psrlwImm pre rm imm => Sys2Proof.Machine.execPsrlwImm pre rm imm s
  | .psrawImm pre rm imm => Sys2Proof.Machine.execPsrawImm pre rm imm s
  | .psllwImm pre rm imm => Sys2Proof.Machine.execPsllwImm pre rm imm s
  | .psrldImm pre rm imm => Sys2Proof.Machine.execPsrldImm pre rm imm s
  | .psradImm pre rm imm => Sys2Proof.Machine.execPsradImm pre rm imm s
  | .pslldImm pre rm imm => Sys2Proof.Machine.execPslldImm pre rm imm s
  | .psrlqImm pre rm imm => Sys2Proof.Machine.execPsrlqImm pre rm imm s
  | .psllqImm pre rm imm => Sys2Proof.Machine.execPsllqImm pre rm imm s
  | .pcmpeqb pre reg rm => Sys2Proof.Machine.execPcmpeqb pre reg rm s
  | .pcmpeqw pre reg rm => Sys2Proof.Machine.execPcmpeqw pre reg rm s
  | .pcmpeqd pre reg rm => Sys2Proof.Machine.execPcmpeqd pre reg rm s
  | .emms pre => Sys2Proof.Machine.execEmms pre s
  | .movdFromMm pre reg rm => Sys2Proof.Machine.execMovdFromMm pre reg rm s
  | .movqFromMm pre reg rm => Sys2Proof.Machine.execMovqFromMm pre reg rm s
  | .psrlw pre reg rm => Sys2Proof.Machine.execPsrlw pre reg rm s
  | .psrld pre reg rm => Sys2Proof.Machine.execPsrld pre reg rm s
  | .psrlq pre reg rm => Sys2Proof.Machine.execPsrlq pre reg rm s
  | .pmullw pre reg rm => Sys2Proof.Machine.execPmullw pre reg rm s
  | .psubusb pre reg rm => Sys2Proof.Machine.execPsubusb pre reg rm s
  | .psubusw pre reg rm => Sys2Proof.Machine.execPsubusw pre reg rm s
  | .pand pre reg rm => Sys2Proof.Machine.execPand pre reg rm s
  | .paddusb pre reg rm => Sys2Proof.Machine.execPaddusb pre reg rm s
  | .paddusw pre reg rm => Sys2Proof.Machine.execPaddusw pre reg rm s
  | .pandn pre reg rm => Sys2Proof.Machine.execPandn pre reg rm s
  | .psraw pre reg rm => Sys2Proof.Machine.execPsraw pre reg rm s
  | .psrad pre reg rm => Sys2Proof.Machine.execPsrad pre reg rm s
  | .pmulhw pre reg rm => Sys2Proof.Machine.execPmulhw pre reg rm s
  | .psubsb pre reg rm => Sys2Proof.Machine.execPsubsb pre reg rm s
  | .psubsw pre reg rm => Sys2Proof.Machine.execPsubsw pre reg rm s
  | .por pre reg rm => Sys2Proof.Machine.execPor pre reg rm s
  | .paddsb pre reg rm => Sys2Proof.Machine.execPaddsb pre reg rm s
  | .paddsw pre reg rm => Sys2Proof.Machine.execPaddsw pre reg rm s
  | .pxor pre reg rm => Sys2Proof.Machine.execPxor pre reg rm s
  | .psllw pre reg rm => Sys2Proof.Machine.execPsllw pre reg rm s
  | .pslld pre reg rm => Sys2Proof.Machine.execPslld pre reg rm s
  | .psllq pre reg rm => Sys2Proof.Machine.execPsllq pre reg rm s
  | .pmaddwd pre reg rm => Sys2Proof.Machine.execPmaddwd pre reg rm s
  | .psubb pre reg rm => Sys2Proof.Machine.execPsubb pre reg rm s
  | .psubw pre reg rm => Sys2Proof.Machine.execPsubw pre reg rm s
  | .psubd pre reg rm => Sys2Proof.Machine.execPsubd pre reg rm s
  | .paddb pre reg rm => Sys2Proof.Machine.execPaddb pre reg rm s
  | .paddw pre reg rm => Sys2Proof.Machine.execPaddw pre reg rm s
  | .paddd pre reg rm => Sys2Proof.Machine.execPaddd pre reg rm s
end Sys2Proof.Machine
end

