-- ==== Sys2Proof/Machine/Fetch.lean ====
section
/-! DEFINITION. Fetching the bytes of the instruction at `EIP`, and launching the machine on bytes
(spec 30_encoding.md R94, 20_memory.md R64, 70_reset_and_hazards.md R301, R302, R308). -/

namespace Sys2Proof.Machine

/-- Up to `n` bytes from address `a` on, ending before the first byte outside `CodeRange` or at the top
of the address space (R64, R29). -/
def fetchFrom (s : State) (a : Nat) : Nat → List Byte
  | 0 => []
  | n + 1 =>
    if decide (a < Config.addressSpace) && s.inCode a then
      readCell s.mem a :: fetchFrom s (a + 1) n
    else []

/-- The bytes at `EIP` that the decoder may read: as many as the longest instruction has. -/
def fetch (s : State) : List Byte := fetchFrom s s.eip.toNat Config.maxLength

/-- Why the bytes at `EIP` end before the instruction does (R29, R64). -/
def fetchRefusal (s : State) : Refusal :=
  if s.eip.toNat + (fetch s).length < Config.addressSpace then .fetchOutsideCode else .fetchPastTop

/-- Why no step is taken: the run is over (R302), or the mode is one the spec refuses (R92). -/
def stop (s : State) : Option Refusal :=
  if s.eip = s.launch.endAddr then some .runOver
  else if s.mode = .protected32 then none
  else some (.mode s.mode)

/-- `s` launched on a program: its bytes at `EIP` and up, `CodeRange` exactly those bytes, `EndAddr`
the address after them (R308), in 32-bit protected mode (R5) with flat segments (R28). -/
def State.launchedOn (s : State) (bs : List Byte) : State :=
  { s with
    mem := writeCells s.mem s.eip bs
    mode := .protected32
    segBase := Vector.replicate 6 0
    launch := { s.launch with
      codeRange := [⟨s.eip.toNat, s.eip.toNat + bs.length⟩]
      endAddr := s.eip + BitVec.ofNat 32 bs.length } }

end Sys2Proof.Machine
end

