-- ==== Sys2Proof/Machine/Step.lean ====
section
/-! DEFINITION. One step of the machine (spec 00_scope.md R6, 70_reset_and_hazards.md R302), and placing
one instruction where the next step fetches it. -/

namespace Sys2Proof.Machine

/-- One step: at the end address the run is over and no step is taken (R302); a mode other than
32-bit protected mode is refused (R92); else the bytes at `EIP` are fetched and decoded (R94), and the
instruction they give is executed. -/
def step (s : State) : Host.Outcome State Fault Refusal :=
  match stop s with
  | some r => .refused r
  | none =>
    match decode (fetch s) with
    | .instr i _ => exec i s
    | .invalid => raise .invalidOpcode s
    | .refused r => .refused (.encoding r)
    | .short => .refused (fetchRefusal s)

/-- `s` launched on one instruction of the opcode table (R301, R308): its bytes, zeros after them, at
`EIP` and up; `CodeRange` exactly those bytes and `EndAddr` the address after them; 32-bit protected
mode. -/
def State.withFetchWord (s : State) (nbits w : Nat) : State := s.launchedOn (tableBytes nbits w)

end Sys2Proof.Machine
end

