-- ==== Sys2Proof/Safety.lean ====
section
/-! DEFINITION. The terms that claims use: when an instruction may run, what it leaves unchanged, and
what a rule of the spec says of an instruction. -/

namespace Sys2Proof.Machine

/-! ## Running -/

/-- `MMXCheck()` lets instructions run (R266, R303). -/
def Ready (s : State) : Prop := mmxCheck s = none

/-- The program's bytes at `EIP` lie in `CodeRange`, below the top of memory (R64, R94, R301). -/
def CodeAt (s : State) (bs : List Byte) : Prop :=
  ∀ k, (h : k < bs.length) →
    s.eip.toNat + k < Config.addressSpace ∧ s.inCode (s.eip.toNat + k) = true ∧
      readCell s.mem (s.eip.toNat + k) = bs[k]

/-- The state that leaves the x87 unit usable: every tag empty (R304). -/
def X87Usable (s : State) : Prop := ∀ i : RegNum, s.tagField i = 3

/-- An access to `n` bytes at `a` touches `CodeRange` (R64). -/
def TouchesCode (s : State) (a : Dword) (n : Nat) : Prop :=
  ∃ k, k < n ∧ s.inCode (a + BitVec.ofNat 32 k).toNat = true

/-! ## Memory admission and access -/

/-- No ruling of the launch speaks of the operand, so the denials decide. -/
def NoRuling (s : State) (seg : Seg) (a : Dword) (n : Nat) (kind : AccessKind) : Prop :=
  ∀ r ∈ s.launch.rulings, r.applies seg a n kind = false

/-- A denial speaks of an access through `seg` of this kind. -/
def Denial.Speaks (d : Denial) (seg : Seg) (kind : AccessKind) (s : State) : Prop :=
  (d.seg = none ∨ d.seg = some seg) ∧ (d.kind = none ∨ d.kind = some kind) ∧
    (d.onlyUser = true → s.cpl = 3)

/-- A denial's range holds a byte of the operand. -/
def Denial.Covers (d : Denial) (a : Dword) (n : Nat) : Prop :=
  ∃ k, k < n ∧ d.range.lo ≤ (a + BitVec.ofNat 32 k).toNat ∧ (a + BitVec.ofNat 32 k).toNat < d.range.hi

/-- The `Admit` functions that a launch may supply: only the faults that R57 names, each where R265,
R267 and R268 have it, and no misaligned operand admitted under `ALIGN_CHECK` (R55). -/
structure Conforming (s : State) (f : Seg → Dword → Nat → AccessKind → Option Exception) : Prop where
  answers : ∀ seg a n kind x, n = 4 ∨ n = 8 → f seg a n kind = some x →
    (x = .stackFault ∧ seg = .ss) ∨ (x = .generalProtection ∧ seg ≠ .ss) ∨
      (∃ present rsvd k, k < n ∧
        x = .pageFault (pageFaultCode present rsvd kind s) (a + BitVec.ofNat 32 k)) ∨
      (x = .alignmentCheck ∧ s.alignCheck = true ∧ a.toNat % n ≠ 0)
  aligned : ∀ seg a n kind, n = 4 ∨ n = 8 → f seg a n kind = none → s.alignCheck = true →
    a.toNat % n = 0

/-- `x` is what the byte at `c` must read as after bytes `bs` were stored at `a`: the stored byte if
one lies there, else the byte from before. -/
def StoredByte (s : State) (a : Dword) (bs : List Byte) (c : Dword) (x : Byte) : Prop :=
  (∀ k, (h : k < bs.length) → c = a + BitVec.ofNat 32 k → x = bs[k]) ∧
    ((∀ k, k < bs.length → c ≠ a + BitVec.ofNat 32 k) → x = s.byteAt c)

/-! ## What stays unchanged -/

/-- Every byte of memory reads as before. -/
def SameMemory (s t : State) : Prop := ∀ a : Dword, t.byteAt a = s.byteAt a

/-- Every general register reads as before. -/
def SameGeneral (s t : State) : Prop := ∀ g : RegNum, t.reg g = s.reg g

/-- All 80 bits of every x87 register read as before, the MMX registers among them. -/
def SameX87Regs (s t : State) : Prop := ∀ i : RegNum, t.x87Reg i = s.x87Reg i

/-- Control, flags, privilege, segments, mode and launch parameters are as before (R28, R30, R33). -/
structure SameSystem (s t : State) : Prop where
  eflags : t.eflags = s.eflags
  cr0 : t.cr0 = s.cr0
  cr4 : t.cr4 = s.cr4
  cpl : t.cpl = s.cpl
  segBase : t.segBase = s.segBase
  mode : t.mode = s.mode
  launch : t.launch = s.launch

/-- The bits of the x87 status word outside `TOS` are as before (R23). -/
def SameStatusRest (s t : State) : Prop :=
  ∀ k, k < 11 ∨ 13 < k → t.fsw.getLsbD k = s.fsw.getLsbD k

/-- The effect of `MMXTouch()` (R23); none in a launch without the x87 side effects (R22). -/
structure Touched (s t : State) : Prop where
  tag : t.tag = if s.launch.modelX87Alias then 0x0000 else s.tag
  tos : t.tos = if s.launch.modelX87Alias then 0 else s.tos
  rest : SameStatusRest s t

/-- From `s` to `t` an instruction of `len` bytes wrote MMX register `d` and nothing else but what
R23, R24 and R29 say: every other register, memory and the system state are as before. -/
structure WritesMm (s t : State) (d : RegNum) (len : Nat) : Prop where
  top : t.x87Top d = if s.launch.modelX87Alias then 0xFFFF else s.x87Top d
  others : ∀ i, i ≠ d → t.x87Reg i = s.x87Reg i
  general : SameGeneral s t
  memory : SameMemory s t
  system : SameSystem s t
  touched : Touched s t
  eip : t.eip = s.eip + BitVec.ofNat 32 len

/-- From `s` to `t` an instruction of `len` bytes wrote general register `d` and nothing else but what
R23 and R29 say. -/
structure WritesGeneral (s t : State) (d : RegNum) (len : Nat) : Prop where
  x87 : SameX87Regs s t
  others : ∀ g, g ≠ d → t.reg g = s.reg g
  memory : SameMemory s t
  system : SameSystem s t
  touched : Touched s t
  eip : t.eip = s.eip + BitVec.ofNat 32 len

/-- From `s` to `t` an instruction of `len` bytes wrote the `n` bytes of memory at `a` (modulo 2^32)
and nothing else but what R23 and R29 say. -/
structure WritesMemory (s t : State) (a : Dword) (n len : Nat) : Prop where
  x87 : SameX87Regs s t
  general : SameGeneral s t
  memory : ∀ b : Dword, (∀ k, k < n → b ≠ a + BitVec.ofNat 32 k) → t.byteAt b = s.byteAt b
  system : SameSystem s t
  touched : Touched s t
  eip : t.eip = s.eip + BitVec.ofNat 32 len

/-! ## What a rule says of an instruction -/

/-- What a rule says of an instruction of `len` bytes with MMX destination `d` and source `src`
(R10, R66, R266): an exception of `MMXCheck()` is raised; else the source's exception is; else the
instruction completes, writes `MM[d]` and nothing else, and `value` relates the register's old value,
the source and the register's new value. -/
def MmResult {α : Type} (i : Instr) (src : State → Except Exception α) (d : RegNum) (len : Nat)
    (value : Quad → α → Quad → Prop) : Prop :=
  ∀ s : State,
    (∀ x, mmxCheck s = some x → exec i s = raise x s) ∧
    (∀ x, Ready s → src s = .error x → exec i s = raise x s) ∧
    (∀ b, Ready s → src s = .ok b →
      ∃ t, exec i s = .next t ∧ WritesMm s t d len ∧ value (s.mm d) b (t.mm d))

/-- What the rule of a format-`RM` row with an MMX destination `reg` says: its encoding, and its
result for every prefix and operand. -/
def RmRule {α : Type} (mk : Option Seg → RegNum → RegMem → Instr) (op : Byte)
    (src : Option Seg → RegMem → State → Except Exception α) (value : Quad → α → Quad → Prop) :
    Prop :=
  ∀ pre reg rm,
    (mk pre reg rm).format = .rm op reg rm ∧ (mk pre reg rm).override = pre ∧
      MmResult (mk pre reg rm) (src pre rm) reg (rmLength pre rm) value

/-- What the rule of a shift says of its two rows (R200, R209): the count is all 64 bits of the source
operand, or the immediate byte, unsigned. `value` relates the count, the old and the new value. -/
def ShiftRule (mk : Option Seg → RegNum → RegMem → Instr) (op : Byte)
    (mkImm : Option Seg → RegNum → Byte → Instr) (opImm : Byte) (ext : BitVec 3)
    (value : Nat → Quad → Quad → Prop) : Prop :=
  RmRule mk op src64 (fun a b r => value b.toNat a r) ∧
  ∀ pre rm imm,
    (mkImm pre rm imm).format = .shi opImm ext rm imm ∧ (mkImm pre rm imm).override = pre ∧
      MmResult (mkImm pre rm imm) (fun _ => .ok imm) rm (shiLength pre)
        (fun a c r => value c.toNat a r)

/-- What the rule of a store to memory operand `m` says of instruction `i` of `len` bytes that stores
`n` bytes (R52, R64, R122, R124): an exception of `MMXCheck()` is raised; else, away from `CodeRange`,
`Admit`'s is; an operand that `Admit` lets pass and that touches `CodeRange` is refused; else the
instruction completes, stores to the `n` bytes at the effective address and to nothing else, and byte
`k` there is `byte s k` (for a memory in its canonical form). -/
def StoreResult (i : Instr) (pre : Option Seg) (m : MemOperand) (n len : Nat)
    (byte : State → Nat → Byte) : Prop :=
  ∀ s : State,
    (∀ x, mmxCheck s = some x → exec i s = raise x s) ∧
    (∀ x, Ready s → ¬ TouchesCode s (effAddr s m) n →
      admission (segOf pre m) (effAddr s m) n .write s = some x → exec i s = raise x s) ∧
    (Ready s → admission (segOf pre m) (effAddr s m) n .write s = none →
      (TouchesCode s (effAddr s m) n → exec i s = .refused .storeToCode) ∧
      (¬ TouchesCode s (effAddr s m) n →
        ∃ t, exec i s = .next t ∧ WritesMemory s t (effAddr s m) n len ∧
          (Memory.wf s.mem = true →
            ∀ k, k < n → t.byteAt (effAddr s m + BitVec.ofNat 32 k) = byte s k)))

/-- The MMX register that an instruction writes (R37): `rm` of a shift by immediate and of
`MOVQ mm/m64, mm`, none for `EMMS`, `MOVD r/m32, mm` and a store, else `reg`. -/
def mmDest (i : Instr) : Option RegNum :=
  match i.format with
  | .bare _ => none
  | .shi _ _ r _ => some r
  | .rm op reg operand =>
    if op = 0x7E then none
    else if op = 0x7F then
      match operand with
      | .reg r => some r
      | .mem _ => none
    else some reg

/-! ## Two states that differ in x87 aliasing state only -/

/-- Equal but for `TAG`, the x87 status word outside `ES`, bits 79:64 of the x87 registers, and the
two launch parameters that govern them (R22, R37). -/
structure SameButX87 (s s' : State) : Prop where
  mm : ∀ i, s'.mm i = s.mm i
  gpr : s'.gpr = s.gpr
  eip : s'.eip = s.eip
  eflags : s'.eflags = s.eflags
  cr0 : s'.cr0 = s.cr0
  cr4 : s'.cr4 = s.cr4
  cpl : s'.cpl = s.cpl
  segBase : s'.segBase = s.segBase
  mode : s'.mode = s.mode
  mem : s'.mem = s.mem
  pending : s'.x87Pending = s.x87Pending
  hasMmx : s'.launch.hasMmx = s.launch.hasMmx
  rulings : s'.launch.rulings = s.launch.rulings
  denials : s'.launch.denials = s.launch.denials
  admitWrap : s'.launch.admitWrap = s.launch.admitWrap
  codeRange : s'.launch.codeRange = s.launch.codeRange
  endAddr : s'.launch.endAddr = s.launch.endAddr

end Sys2Proof.Machine
end

