-- ==== Sys2Proof/Certificates/Slice0/Obligations.lean ====
section
/-! DEFINITION. The statements for the provers. Each docstring names the rules of spec/ that its
statement formalises; where a statement has hypotheses, the theorem `Tests.witness_…` that it names
shows a state and operands that meet them. A model's choice is named with its log entry. -/

open Sys2Proof Sys2Proof.Machine

/-! ## Encoding -/

/-- Decoding what the encoder writes gives the instruction back, and the bytes after it: for every
instruction of the opcode map with every operand that the encoding admits (R80 to R90, R94).
`Tests.witness_encoding`. -/
def Obligations.DecodeOfEncode : Prop :=
  ∀ (i : Instr) (rest : List Byte), i.wf = true → decode (encode i ++ rest) = .instr i rest

/-- Whatever the decoder reads as an instruction is well-formed and is the encoder's bytes: no two byte
strings of an instruction, in the form that the syntax keeps, are confused (R90, R94, R97).
`Tests.witness_encoding`. -/
def Obligations.EncodeOfDecode : Prop :=
  ∀ (bs : List Byte) (i : Instr) (rest : List Byte),
    decode bs = .instr i rest → i.wf = true ∧ encode i ++ rest = bs

/-- The length of a decoded instruction is the sum of R88 over its prefix, opcode, ModRM and SIB
bytes, it is the number of bytes decoded, and it is at most 9. `Tests.witness_encoding`. -/
def Obligations.LengthFromFields : Prop :=
  ∀ (bs : List Byte) (i : Instr) (rest : List Byte), decode bs = .instr i rest →
    let k := if bs.getD 0 0 ∈ [0x26#8, 0x2E#8, 0x36#8, 0x3E#8, 0x64#8, 0x65#8] then 1 else 0
    let op := bs.getD (k + 1) 0
    let modrm := bs.getD (k + 2) 0
    let mod := modrm.extractLsb' 6 2
    let rm := modrm.extractLsb' 0 3
    let base := (bs.getD (k + 3) 0).extractLsb' 0 3
    let dispsize :=
      if op = 0x77#8 then 0
      else if (mod = 0#2 ∧ rm = 5#3) ∨ (mod = 0#2 ∧ rm = 4#3 ∧ base = 5#3) ∨ mod = 2#2 then 4
      else if mod = 1#2 then 1
      else 0
    i.length = k + 2 + (if op = 0x77#8 then 0 else 1) +
        (if op ≠ 0x77#8 ∧ mod ≠ 3#2 ∧ rm = 4#3 then 1 else 0) + dispsize +
        (if op ∈ [0x71#8, 0x72#8, 0x73#8] then 1 else 0) ∧
      bs.length = i.length + rest.length ∧ i.length ≤ 9

/-- Byte strings written out from the spec's encodings decode to the instructions they stand for
(R81 to R84, R89, R90, R96; vectors T98, T110, T120, T125, T126, T130). -/
def Obligations.DecodingSamples : Prop :=
  decode [0x0F, 0x6F, 0x9C, 0xF3, 0x78, 0x56, 0x34, 0x12] =
      .instr (.movqToMm none 3 (.mem (.sib 3 6 3 (.d32 0x12345678)))) [] ∧
    decode [0x64, 0x0F, 0x6E, 0x12] = .instr (.movdToMm (some .fs) 2 (.mem (.base 2 .none))) [] ∧
    decode [0x0F, 0x6F, 0x04, 0x75, 0x10, 0, 0, 0] =
      .instr (.movqToMm none 0 (.mem (.sibNoBase 1 6 0x10))) [] ∧
    decode [0x36, 0x0F, 0x7F, 0x03] = .instr (.movqFromMm (some .ss) 0 (.mem (.base 3 .none))) [] ∧
    decode [0x0F, 0x72, 0xE1, 0x1F] = .instr (.psradImm none 1 0x1F) [] ∧
    decode [0x0F, 0xE1, 0xC1] = .instr (.psraw none 0 (.reg 1)) [] ∧
    decode [0x0F, 0x77] = .instr (.emms none) []

/-! ## A step -/

/-- A step runs the decoded instruction: where the bytes fetched at `EIP` decode to an instruction,
the step is that instruction's execution and nothing more (R6, R94). `Tests.witness_step`. -/
def Obligations.StepRunsDecoded : Prop :=
  ∀ (s : State) (i : Instr) (rest : List Byte),
    s.eip ≠ s.launch.endAddr → s.mode = .protected32 → decode (fetch s) = .instr i rest →
      step s = exec i s

/-- A step runs the instruction whose bytes lie at `EIP` in `CodeRange`, whatever follows them
(R64, R94, R301). `Tests.witness_step`. -/
def Obligations.StepRunsCodeBytes : Prop :=
  ∀ (s : State) (i : Instr),
    s.eip ≠ s.launch.endAddr → s.mode = .protected32 → i.wf = true → CodeAt s (encode i) →
      step s = exec i s

/-- `LOCK`, first or after a segment override, raises `#UD` whatever follows and whatever the control
bits are (R261, R94). `Tests.witness_lock`. -/
def Obligations.LockRaisesInvalidOpcode : Prop :=
  ∀ (s : State) (pre : Option Seg),
    s.eip ≠ s.launch.endAddr → s.mode = .protected32 → CodeAt s (prefixBytes pre ++ [0xF0]) →
      step s = raise .invalidOpcode s

/-- What the bytes that the opcode map does not list do: (a) `#UD` for a shift group opcode with a
memory operand or an unlisted extension, and after `LOCK`; (b) and (c) a refusal for an opcode that is
no row of the map and for a first byte that is not `0F` (R91).
`Tests.witness_lock`, `Tests.witness_unlisted`. -/
def Obligations.UnlistedEncodings : Prop :=
  ∀ (s : State) (pre : Option Seg), s.eip ≠ s.launch.endAddr → s.mode = .protected32 →
    (∀ op modrm : Byte, op ∈ [0x71#8, 0x72#8, 0x73#8] →
      (modrm.extractLsb' 6 2 ≠ 3#2 ∨
        (op ≠ 0x73#8 ∧ modrm.extractLsb' 3 3 ∈ [0#3, 1#3, 3#3, 5#3, 7#3]) ∨
        (op = 0x73#8 ∧ modrm.extractLsb' 3 3 ∈ [0#3, 1#3, 3#3, 4#3, 5#3, 7#3])) →
      CodeAt s (prefixBytes pre ++ [0x0F, op, modrm]) → step s = raise .invalidOpcode s) ∧
    (CodeAt s (prefixBytes pre ++ [0xF0]) → step s = raise .invalidOpcode s) ∧
    (∀ op : Byte,
      op ∉ [0x60#8, 0x61#8, 0x62#8, 0x63#8, 0x64#8, 0x65#8, 0x66#8, 0x67#8, 0x68#8, 0x69#8, 0x6A#8,
        0x6B#8, 0x6E#8, 0x6F#8, 0x71#8, 0x72#8, 0x73#8, 0x74#8, 0x75#8, 0x76#8, 0x77#8, 0x7E#8,
        0x7F#8, 0xD1#8, 0xD2#8, 0xD3#8, 0xD5#8, 0xD8#8, 0xD9#8, 0xDB#8, 0xDC#8, 0xDD#8, 0xDF#8,
        0xE1#8, 0xE2#8, 0xE5#8, 0xE8#8, 0xE9#8, 0xEB#8, 0xEC#8, 0xED#8, 0xEF#8, 0xF1#8, 0xF2#8,
        0xF3#8, 0xF5#8, 0xF8#8, 0xF9#8, 0xFA#8, 0xFC#8, 0xFD#8, 0xFE#8] →
      CodeAt s (prefixBytes pre ++ [0x0F, op]) →
        ∃ name, step s = .refused (.encoding (.opcode op name))) ∧
    (∀ b : Byte,
      b ∉ [0x0F#8, 0xF0#8, 0x66#8, 0x67#8, 0xF2#8, 0xF3#8, 0x26#8, 0x2E#8, 0x36#8, 0x3E#8, 0x64#8,
        0x65#8] →
      CodeAt s (prefixBytes pre ++ [b]) → step s = .refused (.encoding (.firstByte b)))

/-- Prefix bytes without a meaning here are refused: operand size, address size, `REPNE` and `REP`,
and any second prefix (R89, R94). `Tests.witness_prefix`. -/
def Obligations.RefusedPrefixes : Prop :=
  ∀ (s : State) (pre : Option Seg) (b : Byte), s.eip ≠ s.launch.endAddr → s.mode = .protected32 →
    (b ∈ [0x66#8, 0x67#8, 0xF2#8, 0xF3#8] ∨
      (pre ≠ none ∧ b ∈ [0x26#8, 0x2E#8, 0x36#8, 0x3E#8, 0x64#8, 0x65#8])) →
    CodeAt s (prefixBytes pre ++ [b]) → step s = .refused (.encoding (.prefixByte b))

/-- An instruction one byte of which lies outside `CodeRange` is refused, and so is one that would
pass address `2^32 - 1` (R29, R64, R94). `Tests.witness_fetch`. -/
def Obligations.FetchConfined : Prop :=
  ∀ (s : State) (bs : List Byte), s.eip ≠ s.launch.endAddr → s.mode = .protected32 →
    CodeAt s bs → decode bs = .short →
      (s.eip.toNat + bs.length < 4294967296 → s.inCode (s.eip.toNat + bs.length) = false →
        step s = .refused .fetchOutsideCode) ∧
      (s.eip.toNat + bs.length = 4294967296 → step s = .refused .fetchPastTop)

/-- No step is taken at the end address (R302); elsewhere a step in a mode other than 32-bit protected
mode is refused (R92). That the end of the run shows as a refusal by name is the model's choice
(notes/assumptions/13.md). `Tests.witness_stop`. -/
def Obligations.RunEnds : Prop :=
  ∀ s : State,
    (s.eip = s.launch.endAddr → step s = .refused .runOver) ∧
    (s.eip ≠ s.launch.endAddr → s.mode ≠ .protected32 → step s = .refused (.mode s.mode))

/-! ## Exceptions -/

/-- The bits that gate MMX gate every instruction, `EMMS` included, before anything else and in this
order: `HAS_MMX` and `CR0.EM` give `#UD`, then `CR0.TS` gives `#NM`, then a pending x87 error gives
`#MF`; and no instruction sets or clears the pending error (R262, R263, R264, R266).
`Tests.witness_checks`. -/
def Obligations.ControlBitsGateEveryInstruction : Prop :=
  ∀ (i : Instr) (s : State),
    (s.launch.hasMmx = false → exec i s = raise .invalidOpcode s) ∧
    (s.cr0.getLsbD 2 = true → exec i s = raise .invalidOpcode s) ∧
    (s.launch.hasMmx = true → s.cr0.getLsbD 2 = false → s.cr0.getLsbD 3 = true →
      exec i s = raise .deviceNotAvailable s) ∧
    (s.launch.hasMmx = true → s.cr0.getLsbD 2 = false → s.cr0.getLsbD 3 = false →
      s.fsw.getLsbD 7 = true → exec i s = raise .x87Error s) ∧
    (∀ t, exec i s = .next t → t.fsw.getLsbD 7 = s.fsw.getLsbD 7)

/-- Every fault of a step is precise: it carries the state before the instruction, unchanged, `EIP`
at the instruction's first byte included (R271). `Tests.witness_faults`. -/
def Obligations.FaultsArePrecise : Prop :=
  ∀ (s : State) (f : Fault), step s = .fault f → ∃ x, f = .raised x s

/-- The vectors and error codes of the exceptions (R260). -/
def Obligations.ExceptionVectors : Prop :=
  ∀ (code : BitVec 5) (a : Dword),
    Exception.invalidOpcode.vector = 6 ∧ Exception.invalidOpcode.errorCode = none ∧
    Exception.deviceNotAvailable.vector = 7 ∧ Exception.deviceNotAvailable.errorCode = none ∧
    Exception.stackFault.vector = 12 ∧ Exception.stackFault.errorCode = some 0 ∧
    Exception.generalProtection.vector = 13 ∧ Exception.generalProtection.errorCode = some 0 ∧
    (Exception.pageFault code a).vector = 14 ∧ (Exception.pageFault code a).errorCode = some code ∧
    Exception.x87Error.vector = 16 ∧ Exception.x87Error.errorCode = none ∧
    Exception.alignmentCheck.vector = 17 ∧ Exception.alignmentCheck.errorCode = some 0

/-- `Admit` (R57): it answers only the named faults, each where its rule has it; every function that
does so is the `Admit` of some launch, by its rulings; it is a function of its arguments and the launch
configuration (the alignment check and the privilege level among it); translation is flat and identity,
so an operand that it admits for reading is read at its address; and the default admits an operand below
`2^32` and applies the alignment check. That `Admit` is rulings and denials (notes/assumptions/5.md), and
that the default answers the segment fault where an operand that passes the top is also misaligned under
`ALIGN_CHECK` (notes/assumptions/9.md), are the model's choices. `Tests.witness_admit`. -/
def Obligations.AdmitContract : Prop :=
  (∀ s : State, Conforming s fun seg a n kind => admission seg a n kind s) ∧
  (∀ (s : State) (f : Seg → Dword → Nat → AccessKind → Option Exception), Conforming s f →
    ∃ rulings : List Ruling, ∀ seg a n kind, n = 4 ∨ n = 8 →
      admission seg a n kind { s with launch := { s.launch with rulings := rulings } } =
        f seg a n kind) ∧
  (∀ (seg : Seg) (a : Dword) (n : Nat) (kind : AccessKind) (s : State), n = 4 ∨ n = 8 →
    (∀ s' : State, s'.launch = s.launch → s'.alignCheck = s.alignCheck → s'.cpl = s.cpl →
      admission seg a n kind s' = admission seg a n kind s) ∧
    (admission seg a 4 .read s = none → ∃ v, memRead32 seg a s = .ok v ∧
      ∀ k, k < 4 → v.extractLsb' (8 * k) 8 = s.byteAt (a + BitVec.ofNat 32 k)) ∧
    (admission seg a 8 .read s = none → ∃ v, memRead64 seg a s = .ok v ∧
      ∀ k, k < 8 → byteLane v k = s.byteAt (a + BitVec.ofNat 32 k)) ∧
    (s.launch.rulings = [] → s.launch.denials = [] → s.launch.admitWrap = false →
      admission seg a n kind s =
        if 4294967296 < a.toNat + n then
          some (if seg = .ss then .stackFault else .generalProtection)
        else if s.alignCheck = true ∧ a.toNat % n ≠ 0 then some .alignmentCheck
        else none))

/-- A segment violation of the launch's denials, on any byte of the operand, raises `#SS(0)` in the
stack segment and `#GP(0)` elsewhere, before any page or alignment fault of the denials (R265, R269; the
form of the denials and the order are the model's, notes/assumptions/5.md and 9.md).
`Tests.witness_denials`. -/
def Obligations.SegmentDenialsRaise : Prop :=
  ∀ (seg : Seg) (a : Dword) (n : Nat) (kind : AccessKind) (s : State) (d : Denial),
    NoRuling s seg a n kind → d ∈ s.launch.denials → d.cause = .segment → d.Speaks seg kind s →
    d.Covers a n →
      admission seg a n kind s = some (if seg = .ss then .stackFault else .generalProtection)

/-- Page faults of a memory operand (R268): each has the address of a byte of the operand and a code
with `P`, `W/R`, `U/S`, `RSVD` in bits 0 to 3 and `I/D = 0` in bit 4, and comes from a ruling that speaks
of the operand or, where none does, from a page denial that speaks of the access and covers that byte;
and where no ruling speaks and the segment admits the operand, a page denial that speaks of the access
and covers a byte of it raises one (the form of rulings and denials is the model's,
notes/assumptions/5.md, and so is the segment before the page, 9.md). `Tests.witness_denials`. -/
def Obligations.PageFaultCode : Prop :=
  ∀ (seg : Seg) (a : Dword) (n : Nat) (kind : AccessKind) (s : State), 0 < n →
    (∀ code b, admission seg a n kind s = some (.pageFault code b) →
      (∃ k, k < n ∧ b = a + BitVec.ofNat 32 k) ∧
      code.getLsbD 1 = decide (kind = .write) ∧ code.getLsbD 2 = decide (s.cpl = 3) ∧
      code.getLsbD 4 = false ∧
      ((∃ r ∈ s.launch.rulings, ∃ k, r.applies seg a n kind = true ∧
          r.verdict = .page (code.getLsbD 0) (code.getLsbD 3) k) ∨
        (NoRuling s seg a n kind ∧ ∃ d ∈ s.launch.denials,
          d.cause = .page (code.getLsbD 0) (code.getLsbD 3) ∧ d.Speaks seg kind s ∧
          d.range.lo ≤ b.toNat ∧ b.toNat < d.range.hi))) ∧
    (∀ d ∈ s.launch.denials, NoRuling s seg a n kind →
      (a.toNat + n ≤ 4294967296 ∨ s.launch.admitWrap = true) →
      (∀ e ∈ s.launch.denials, e.cause = .segment → e.Speaks seg kind s → ¬ e.Covers a n) →
      d.cause ≠ .segment → d.Speaks seg kind s → d.Covers a n →
        ∃ code b, admission seg a n kind s = some (.pageFault code b))

/-- `#AC(0)` is raised only under `CR0.AM = 1`, `EFLAGS.AC = 1` and privilege level 3, and only for an
operand that is not a multiple of its size away from 0; under those no launch admits such an operand; and
one that the launch's rulings and denials let pass raises it (R55, R267). `Tests.witness_alignment`. -/
def Obligations.AlignmentChecked : Prop :=
  ∀ (seg : Seg) (a : Dword) (n : Nat) (kind : AccessKind) (s : State),
    (admission seg a n kind s = some .alignmentCheck →
      s.cr0.getLsbD 18 = true ∧ s.eflags.getLsbD 18 = true ∧ s.cpl = 3 ∧ a.toNat % n ≠ 0) ∧
    (s.cr0.getLsbD 18 = true → s.eflags.getLsbD 18 = true → s.cpl = 3 → a.toNat % n ≠ 0 →
      admission seg a n kind s ≠ none ∧
      (verdictOf seg a n kind s = .pass → admission seg a n kind s = some .alignmentCheck) ∧
      (NoRuling s seg a n kind → s.launch.denials = [] → a.toNat + n ≤ 4294967296 →
        admission seg a n kind s = some .alignmentCheck))

/-! ## Memory -/

/-- `MemRead` and `MemWrite` (R52): admission is asked once for the whole operand, a fault of it stops
the access with nothing written; an admitted read gives the bytes in little-endian order, and an
admitted write (outside `CodeRange`, R64) stores the value's bytes and changes nothing else.
`Tests.witness_memory`. -/
def Obligations.MemoryPrimitives : Prop :=
  ∀ (seg : Seg) (a : Dword) (s : State),
    (∀ x, admission seg a 4 .read s = some x → memRead32 seg a s = .error x) ∧
    (∀ x, admission seg a 8 .read s = some x → memRead64 seg a s = .error x) ∧
    (admission seg a 4 .read s = none → ∃ v, memRead32 seg a s = .ok v ∧
      ∀ i, i < 4 → v.extractLsb' (8 * i) 8 = s.byteAt (a + BitVec.ofNat 32 i)) ∧
    (admission seg a 8 .read s = none → ∃ v, memRead64 seg a s = .ok v ∧
      ∀ i, i < 8 → v.extractLsb' (8 * i) 8 = s.byteAt (a + BitVec.ofNat 32 i)) ∧
    (∀ bs : List Byte, bs.length = 4 ∨ bs.length = 8 →
      (∀ x, ¬ TouchesCode s a bs.length → admission seg a bs.length .write s = some x →
        memWrite seg a bs s = raise x s) ∧
      (admission seg a bs.length .write s = none → ¬ TouchesCode s a bs.length →
        ∃ t, memWrite seg a bs s = .next t ∧ t = { s with mem := t.mem } ∧
          (∀ b : Dword, (∀ k, k < bs.length → b ≠ a + BitVec.ofNat 32 k) →
            t.byteAt b = s.byteAt b) ∧
          (Memory.wf s.mem = true →
            ∀ k, (h : k < bs.length) → t.byteAt (a + BitVec.ofNat 32 k) = bs[k])))

/-- The lanes of a quadword read at `a`: byte lane `k` is the byte at `a + k`, and a word or doubleword
lane is made of the bytes at `a + 2k` or `a + 4k` up, the lowest address least significant (R53).
`Tests.witness_memory`. -/
def Obligations.LanesInMemory : Prop :=
  ∀ (seg : Seg) (a : Dword) (s : State) (v : Quad), memRead64 seg a s = .ok v →
    (∀ k, k < 8 → byteLane v k = s.byteAt (a + BitVec.ofNat 32 k)) ∧
    (∀ k, k < 4 → wordLane v k =
      s.byteAt (a + BitVec.ofNat 32 (2 * k + 1)) ++ s.byteAt (a + BitVec.ofNat 32 (2 * k))) ∧
    (∀ k, k < 2 → dwordLane v k =
      s.byteAt (a + BitVec.ofNat 32 (4 * k + 3)) ++ s.byteAt (a + BitVec.ofNat 32 (4 * k + 2)) ++
        s.byteAt (a + BitVec.ofNat 32 (4 * k + 1)) ++ s.byteAt (a + BitVec.ofNat 32 (4 * k)))

/-- What a store of four or eight bytes put in memory is what a later load returns, whatever the widths,
the addresses and the alignment: each loaded byte that overlaps the store is the stored one, and each
other is the byte from before; so a load of a stored quadword or doubleword returns it, and so does a
load of either half of a quadword (R51, R61, R306). `Tests.witness_readback`. -/
def Obligations.LoadsReturnStoredBytes : Prop :=
  (∀ (seg seg' : Seg) (a b : Dword) (bs : List Byte) (s t : State), bs.length = 4 ∨ bs.length = 8 →
    Memory.wf s.mem = true → memWrite seg a bs s = .next t →
      (admission seg' b 8 .read t = none → ∃ v, memRead64 seg' b t = .ok v ∧
        ∀ i, i < 8 → StoredByte s a bs (b + BitVec.ofNat 32 i) (v.extractLsb' (8 * i) 8)) ∧
      (admission seg' b 4 .read t = none → ∃ v, memRead32 seg' b t = .ok v ∧
        ∀ i, i < 4 → StoredByte s a bs (b + BitVec.ofNat 32 i) (v.extractLsb' (8 * i) 8))) ∧
  (∀ (seg seg' : Seg) (a : Dword) (v : Quad) (s t : State), Memory.wf s.mem = true →
    memWrite seg a (bytesOfQuad v) s = .next t →
      (admission seg' a 8 .read t = none → memRead64 seg' a t = .ok v) ∧
      (admission seg' a 4 .read t = none → memRead32 seg' a t = .ok (v.extractLsb' 0 32)) ∧
      (admission seg' (a + 4) 4 .read t = none →
        memRead32 seg' (a + 4) t = .ok (v.extractLsb' 32 32))) ∧
  (∀ (seg seg' : Seg) (a : Dword) (w : Dword) (s t : State), Memory.wf s.mem = true →
    memWrite seg a (bytesOfDword w) s = .next t →
      (admission seg' a 4 .read t = none → memRead32 seg' a t = .ok w) ∧
      (admission seg' a 8 .read t = none →
        ∃ v, memRead64 seg' a t = .ok v ∧ v.extractLsb' 0 32 = w))

/-- Every step keeps memory in its canonical form: addresses strictly rising inside the address space,
no listed byte equal to what an unlisted address reads as (R50; the form is the model's,
notes/assumptions/2.md). `Tests.witness_step`. -/
def Obligations.StepKeepsMemoryCanonical : Prop :=
  ∀ s t : State, Memory.wf s.mem = true → step s = .next t → Memory.wf t.mem = true

/-- Memory after reset lists nothing and so is in its canonical form (R36 leaves its contents open; that
nothing is listed and what an unlisted byte reads as are the model's, notes/assumptions/2.md). -/
def Obligations.ResetMemoryCanonical : Prop :=
  State.reset.mem = [] ∧ Memory.wf State.reset.mem = true

/-- No step changes a byte of `CodeRange`, or `CodeRange` itself (R64). `Tests.witness_code`. -/
def Obligations.StepKeepsCode : Prop :=
  ∀ (s t : State) (a : Dword), step s = .next t → s.inCode a.toNat = true →
    t.byteAt a = s.byteAt a ∧ t.launch.codeRange = s.launch.codeRange

/-! ## What every instruction does and leaves alone -/

/-- `EIP`: an instruction that completes adds its encoded length modulo 2^32 and sets it no other way;
a fault reports the address of its first byte (R29). `Tests.witness_src64`,
`Tests.witness_checks`. -/
def Obligations.EipAdvancesByLength : Prop :=
  ∀ (i : Instr) (s : State),
    (∀ t, exec i s = .next t → t.eip.toNat = (s.eip.toNat + i.length) % 4294967296) ∧
    (∀ x u, exec i s = .fault (.raised x u) → u.eip = s.eip)

/-- The only instruction that writes a general register is `MOVD r32, mm`, and it writes the one its
`rm` field names (R27, R120). `Tests.witness_general`. -/
def Obligations.OnlyMovdWritesGeneralRegisters : Prop :=
  ∀ (i : Instr) (s t : State) (g : RegNum), exec i s = .next t → t.reg g ≠ s.reg g →
    ∃ pre reg, i = .movdFromMm pre reg (.reg g)

/-- The only instructions that change memory are the two stores, `MOVD m32, mm` in the four bytes and
`MOVQ m64, mm` in the eight bytes at its effective address (R54, R120). `Tests.witness_code`. -/
def Obligations.OnlyStoresChangeMemory : Prop :=
  ∀ (i : Instr) (s t : State) (a : Dword), exec i s = .next t → t.byteAt a ≠ s.byteAt a →
    ∃ pre reg m n, ((i = .movdFromMm pre reg (.mem m) ∧ n = 4) ∨
        (i = .movqFromMm pre reg (.mem m) ∧ n = 8)) ∧
      ∃ k, k < n ∧ a = effAddr s m + BitVec.ofNat 32 k

/-- Writing an MMX register sets bits 79:64 of the x87 register it aliases to ones, and leaves the
other seven registers alone; an instruction without an MMX destination changes none of the eight (R24;
R22 for a launch without the x87 side effects). `Tests.witness_src64`, `Tests.witness_general`. -/
def Obligations.MmxWriteSideEffect : Prop :=
  ∀ (i : Instr) (s t : State), exec i s = .next t →
    (∀ d, mmDest i = some d → s.launch.modelX87Alias = true → t.x87Top d = 0xFFFF) ∧
    (∀ j, mmDest i ≠ some j → t.x87Reg j = s.x87Reg j)

/-- `MMXTouch()`: every instruction but `EMMS` that completes marks all eight x87 registers valid and
sets the top-of-stack field to 0, whatever its operands, and keeps the rest of the status word (R23).
`Tests.witness_src64`. -/
def Obligations.EveryInstructionTouchesX87 : Prop :=
  ∀ (i : Instr) (s t : State), exec i s = .next t → (∀ pre, i ≠ .emms pre) →
    s.launch.modelX87Alias = true →
      t.tag = 0x0000 ∧ t.fsw.extractLsb' 11 3 = 0#3 ∧
        ∀ k, k < 11 ∨ 13 < k → t.fsw.getLsbD k = s.fsw.getLsbD k

/-- The x87 unit is usable after an instruction, every tag empty, exactly if the instruction is `EMMS`
(R25, R221, R304). `Tests.witness_src64`, `Tests.witness_emms`. -/
def Obligations.OnlyEmmsEmptiesX87 : Prop :=
  ∀ (i : Instr) (s t : State), exec i s = .next t → s.launch.modelX87Alias = true →
    (X87Usable t ↔ ∃ pre, i = .emms pre)

/-- No instruction writes the flags, a control register, the privilege level, a segment base, the mode
or a launch parameter (R28, R30, R33, R274). `Tests.witness_src64`. -/
def Obligations.SystemStateIsNeverWritten : Prop :=
  ∀ (i : Instr) (s t : State), exec i s = .next t → SameSystem s t

/-- No instruction reads a bit of `EFLAGS` other than `AC`, or writes one: with the other bits at any
value it completes, faults or is refused alike, with the same result (R30). `Tests.witness_flags`. -/
def Obligations.EflagsAreInert : Prop :=
  ∀ (i : Instr) (s : State) (e : Dword), e.getLsbD 18 = s.eflags.getLsbD 18 →
    (∀ t, exec i s = .next t →
      t.eflags = s.eflags ∧ exec i { s with eflags := e } = .next { t with eflags := e }) ∧
    (∀ x, exec i s = raise x s → exec i { s with eflags := e } = raise x { s with eflags := e }) ∧
    (∀ r, exec i s = .refused r → exec i { s with eflags := e } = .refused r)

/-- Nothing that an instruction computes depends on the tag word, the status word outside the pending
error bit, bits 79:64 of the x87 registers, or the two launch parameters that govern them: two states
that differ in those only complete to two states that differ in those only, fault alike and are
refused alike (R22, R37). `Tests.witness_alias`. -/
def Obligations.X87AliasStateIsNeverRead : Prop :=
  ∀ (s s' : State), SameButX87 s s' →
    (∀ t, step s = .next t → ∃ t', step s' = .next t' ∧ SameButX87 t t') ∧
    (∀ x, step s = raise x s → step s' = raise x s') ∧
    (∀ r, step s = .refused r → step s' = .refused r)

/-! ## Reset and INIT -/

/-- What R36 says of the state after RESET, where it gives a value. -/
def Obligations.ResetValues : Prop :=
  (∀ i, State.reset.mm i = 0) ∧ (∀ i, State.reset.x87Top i = 0) ∧ State.reset.tag = 0x5555 ∧
    State.reset.tos = 0 ∧ State.reset.x87Pending = false ∧
    (∀ g : RegNum, g ≠ 0 → g ≠ 2 → State.reset.reg g = 0) ∧ State.reset.eip = 0x0000FFF0 ∧
    State.reset.eflags = 0x00000002 ∧ State.reset.cr0 = 0x60000010 ∧ State.reset.cr4 = 0 ∧
    State.reset.cpl = 0 ∧ State.reset.baseOf .cs = 0xFFFF0000 ∧ State.reset.mode = .realAddress

/-- What the INIT column of R36 says: the MMX registers, the x87 state and memory are kept, `CR0`
keeps `CD` and `NW` (bits 30 and 29, notes/assumptions/16.md) with bit 4 set and the rest 0, and the
others are as after RESET. -/
def Obligations.InitValues : Prop :=
  ∀ s : State, SameX87Regs s s.afterInit ∧ s.afterInit.tag = s.tag ∧ s.afterInit.fsw = s.fsw ∧
    SameMemory s s.afterInit ∧ s.afterInit.launch = s.launch ∧
    s.afterInit.eip = 0x0000FFF0 ∧ s.afterInit.eflags = 0x00000002 ∧
    (∀ k, k < 32 → s.afterInit.cr0.getLsbD k =
      if k = 29 ∨ k = 30 then s.cr0.getLsbD k else decide (k = 4)) ∧
    s.afterInit.cr4 = 0 ∧ s.afterInit.cpl = 0 ∧ s.afterInit.baseOf .cs = 0xFFFF0000 ∧
    s.afterInit.mode = .realAddress

/-! ## Operands -/

/-- Effective address and segment of a memory operand, computed from the fields of its bytes: base,
scaled index, displacement, their sum modulo 2^32, the default segment and the override (R85).
`Tests.witness_address`. -/
def Obligations.EffectiveAddress : Prop :=
  ∀ (modrm : Byte) (bs rest : List Byte) (m : MemOperand) (pre : Option Seg) (s : State),
    takeRegMem modrm bs = some (.mem m, rest) →
    let mod := modrm.extractLsb' 6 2
    let rm := modrm.extractLsb' 0 3
    let sib := bs.getD 0 0
    let idx := sib.extractLsb' 3 3
    let bse := sib.extractLsb' 0 3
    let db := if rm = 4#3 then bs.drop 1 else bs
    let disp8 := (db.getD 0 0).signExtend 32
    let disp32 := db.getD 3 0 ++ db.getD 2 0 ++ db.getD 1 0 ++ db.getD 0 0
    let noBase := mod = 0#2 ∧ (rm = 5#3 ∨ rm = 4#3 ∧ bse = 5#3)
    let base := if noBase then 0 else if rm = 4#3 then s.reg bse else s.reg rm
    let index := if rm = 4#3 ∧ idx ≠ 4#3 then (s.reg idx).toNat * 2 ^ (sib.extractLsb' 6 2).toNat else 0
    let disp : Dword := if mod = 1#2 then disp8 else if mod = 2#2 ∨ noBase then disp32 else 0
    let seg := if noBase then Seg.ds
      else if rm = 5#3 ∨ rm = 4#3 ∧ (bse = 4#3 ∨ bse = 5#3) then Seg.ss else Seg.ds
    (effAddr s m).toNat = (base.toNat + index + disp.toNat) % 4294967296 ∧
      segOf pre m = pre.getD seg

/-- The source operands: an MMX register, its low doubleword or a general register if `mod = 11B`,
else the 8 or 4 bytes at the effective address, or the fault of that read (R95). -/
def Obligations.SourceOperands : Prop :=
  ∀ (pre : Option Seg) (s : State) (r : RegNum) (m : MemOperand),
    src64 pre (.reg r) s = .ok (s.mm r) ∧
    src64 pre (.mem m) s = memRead64 (segOf pre m) (effAddr s m) s ∧
    src32L pre (.reg r) s = .ok ((s.mm r).extractLsb' 0 32) ∧
    src32L pre (.mem m) s = memRead32 (segOf pre m) (effAddr s m) s ∧
    src32 pre (.reg r) s = .ok (s.reg r) ∧
    src32 pre (.mem m) s = memRead32 (segOf pre m) (effAddr s m) s

/-! ## Data transfer -/

/-- `MOVD mm, r/m32`: the doubleword, with bits 63:32 zero (R121). `Tests.witness_checks`,
`Tests.witness_src32`. -/
def Obligations.MovdToMmx : Prop :=
  RmRule .movdToMm 0x6E src32 fun _ b r => dwordLane r 0 = b ∧ dwordLane r 1 = 0

/-- `MOVD r/m32, mm`: the low doubleword to a general register, or to the four bytes at the effective
address; no MMX register changes (R122). `Tests.witness_checks`, `Tests.witness_general`,
`Tests.witness_store`. -/
def Obligations.MovdFromMmx : Prop :=
  ∀ (pre : Option Seg) (reg : RegNum),
    (∀ rm, (Instr.movdFromMm pre reg rm).format = .rm 0x7E reg rm ∧
      (Instr.movdFromMm pre reg rm).override = pre) ∧
    (∀ (r : RegNum) (s : State),
      (∀ x, mmxCheck s = some x → exec (.movdFromMm pre reg (.reg r)) s = raise x s) ∧
      (Ready s → ∃ t, exec (.movdFromMm pre reg (.reg r)) s = .next t ∧
        WritesGeneral s t r (rmLength pre (.reg r)) ∧ t.reg r = (s.mm reg).extractLsb' 0 32)) ∧
    (∀ m, StoreResult (.movdFromMm pre reg (.mem m)) pre m 4 (rmLength pre (.mem m))
      fun s k => (s.mm reg).extractLsb' (8 * k) 8)

/-- `MOVQ mm, mm/m64` (R123). `Tests.witness_checks`, `Tests.witness_src64`. -/
def Obligations.MovqToMmx : Prop :=
  RmRule .movqToMm 0x6F src64 fun _ b r => r = b

/-- `MOVQ mm/m64, mm`: to MMX register `rm`, or to the eight bytes at the effective address (R124).
`Tests.witness_checks`, `Tests.witness_src64`, `Tests.witness_store`. -/
def Obligations.MovqFromMmx : Prop :=
  ∀ (pre : Option Seg) (reg : RegNum),
    (∀ rm, (Instr.movqFromMm pre reg rm).format = .rm 0x7F reg rm ∧
      (Instr.movqFromMm pre reg rm).override = pre) ∧
    (∀ (r : RegNum) (s : State),
      (∀ x, mmxCheck s = some x → exec (.movqFromMm pre reg (.reg r)) s = raise x s) ∧
      (Ready s → ∃ t, exec (.movqFromMm pre reg (.reg r)) s = .next t ∧
        WritesMm s t r (rmLength pre (.reg r)) ∧ t.mm r = s.mm reg)) ∧
    (∀ m, StoreResult (.movqFromMm pre reg (.mem m)) pre m 8 (rmLength pre (.mem m))
      fun s k => (s.mm reg).extractLsb' (8 * k) 8)

/-- A store that `Admit` denies raises its exception even where the operand touches `CodeRange`: the
model asks `Admit` before it refuses a store into the program, an order that no rule gives (R52, R64;
the model's choice, notes/assumptions/10.md). `Tests.witness_store`. -/
def Obligations.DeniedStoresFault : Prop :=
  ∀ (pre : Option Seg) (reg : RegNum) (m : MemOperand) (s : State) (x : Exception), Ready s →
    (admission (segOf pre m) (effAddr s m) 4 .write s = some x →
      exec (.movdFromMm pre reg (.mem m)) s = raise x s) ∧
    (admission (segOf pre m) (effAddr s m) 8 .write s = some x →
      exec (.movqFromMm pre reg (.mem m)) s = raise x s)

/-! ## Conversion -/

/-- The packs: the destination's elements, saturated, in the low half of the result and the source's
in the high half; `PACKUSWB` takes its words as signed (R131, R132, R133). `Tests.witness_checks`,
`Tests.witness_src64`. -/
def Obligations.Packs : Prop :=
  (RmRule .packsswb 0x63 src64 fun a b r => ∀ k, k < 4 →
    (byteLane r k).toInt = max (-128) (min 127 (wordLane a k).toInt) ∧
    (byteLane r (4 + k)).toInt = max (-128) (min 127 (wordLane b k).toInt)) ∧
  (RmRule .packssdw 0x6B src64 fun a b r => ∀ k, k < 2 →
    (wordLane r k).toInt = max (-32768) (min 32767 (dwordLane a k).toInt) ∧
    (wordLane r (2 + k)).toInt = max (-32768) (min 32767 (dwordLane b k).toInt)) ∧
  (RmRule .packuswb 0x67 src64 fun a b r => ∀ k, k < 4 →
    ((byteLane r k).toNat : Int) = max 0 (min 255 (wordLane a k).toInt) ∧
    ((byteLane r (4 + k)).toNat : Int) = max 0 (min 255 (wordLane b k).toInt))

/-- The high unpacks: elements of the upper halves in turn, the destination's first (R134, R135,
R136). `Tests.witness_checks`, `Tests.witness_src64`. -/
def Obligations.UnpacksHigh : Prop :=
  (RmRule .punpckhbw 0x68 src64 fun a b r => ∀ k, k < 4 →
    byteLane r (2 * k) = byteLane a (4 + k) ∧ byteLane r (2 * k + 1) = byteLane b (4 + k)) ∧
  (RmRule .punpckhwd 0x69 src64 fun a b r =>
    wordLane r 0 = wordLane a 2 ∧ wordLane r 1 = wordLane b 2 ∧ wordLane r 2 = wordLane a 3 ∧
      wordLane r 3 = wordLane b 3) ∧
  (RmRule .punpckhdq 0x6A src64 fun a b r =>
    dwordLane r 0 = dwordLane a 1 ∧ dwordLane r 1 = dwordLane b 1)

/-- The low unpacks: elements of the low halves in turn, the destination's first; the source has 32
bits (R137, R138, R139). `Tests.witness_checks`, `Tests.witness_src32`. -/
def Obligations.UnpacksLow : Prop :=
  (RmRule .punpcklbw 0x60 src32L fun a b r => ∀ k, k < 4 →
    byteLane r (2 * k) = byteLane a k ∧ byteLane r (2 * k + 1) = b.extractLsb' (8 * k) 8) ∧
  (RmRule .punpcklwd 0x61 src32L fun a b r =>
    wordLane r 0 = wordLane a 0 ∧ wordLane r 1 = b.extractLsb' 0 16 ∧
      wordLane r 2 = wordLane a 1 ∧ wordLane r 3 = b.extractLsb' 16 16) ∧
  (RmRule .punpckldq 0x62 src32L fun a b r => dwordLane r 0 = dwordLane a 0 ∧ dwordLane r 1 = b)

/-! ## Packed arithmetic -/

/-- Wraparound add, lane by lane (R151, R152, R153). `Tests.witness_checks`,
`Tests.witness_src64`. -/
def Obligations.AddsWrap : Prop :=
  (RmRule .paddb 0xFC src64 fun a b r => ∀ k, k < 8 →
    (byteLane r k).toNat = ((byteLane a k).toNat + (byteLane b k).toNat) % 256) ∧
  (RmRule .paddw 0xFD src64 fun a b r => ∀ k, k < 4 →
    (wordLane r k).toNat = ((wordLane a k).toNat + (wordLane b k).toNat) % 65536) ∧
  (RmRule .paddd 0xFE src64 fun a b r => ∀ k, k < 2 →
    (dwordLane r k).toNat = ((dwordLane a k).toNat + (dwordLane b k).toNat) % 4294967296)

/-- Signed saturating add (R154, R155). `Tests.witness_checks`, `Tests.witness_src64`. -/
def Obligations.AddsSaturateSigned : Prop :=
  (RmRule .paddsb 0xEC src64 fun a b r => ∀ k, k < 8 →
    (byteLane r k).toInt = max (-128) (min 127 ((byteLane a k).toInt + (byteLane b k).toInt))) ∧
  (RmRule .paddsw 0xED src64 fun a b r => ∀ k, k < 4 →
    (wordLane r k).toInt = max (-32768) (min 32767 ((wordLane a k).toInt + (wordLane b k).toInt)))

/-- Unsigned saturating add (R156, R157). `Tests.witness_checks`, `Tests.witness_src64`. -/
def Obligations.AddsSaturateUnsigned : Prop :=
  (RmRule .paddusb 0xDC src64 fun a b r => ∀ k, k < 8 →
    (byteLane r k).toNat = min 255 ((byteLane a k).toNat + (byteLane b k).toNat)) ∧
  (RmRule .paddusw 0xDD src64 fun a b r => ∀ k, k < 4 →
    (wordLane r k).toNat = min 65535 ((wordLane a k).toNat + (wordLane b k).toNat))

/-- Wraparound subtract, destination minus source (R158, R159, R160). `Tests.witness_checks`,
`Tests.witness_src64`. -/
def Obligations.SubtractsWrap : Prop :=
  (RmRule .psubb 0xF8 src64 fun a b r => ∀ k, k < 8 →
    ((byteLane r k).toNat : Int) = ((byteLane a k).toNat - (byteLane b k).toNat : Int) % 256) ∧
  (RmRule .psubw 0xF9 src64 fun a b r => ∀ k, k < 4 →
    ((wordLane r k).toNat : Int) = ((wordLane a k).toNat - (wordLane b k).toNat : Int) % 65536) ∧
  (RmRule .psubd 0xFA src64 fun a b r => ∀ k, k < 2 →
    ((dwordLane r k).toNat : Int) =
      ((dwordLane a k).toNat - (dwordLane b k).toNat : Int) % 4294967296)

/-- Signed saturating subtract (R161, R162). `Tests.witness_checks`, `Tests.witness_src64`. -/
def Obligations.SubtractsSaturateSigned : Prop :=
  (RmRule .psubsb 0xE8 src64 fun a b r => ∀ k, k < 8 →
    (byteLane r k).toInt = max (-128) (min 127 ((byteLane a k).toInt - (byteLane b k).toInt))) ∧
  (RmRule .psubsw 0xE9 src64 fun a b r => ∀ k, k < 4 →
    (wordLane r k).toInt = max (-32768) (min 32767 ((wordLane a k).toInt - (wordLane b k).toInt)))

/-- Unsigned saturating subtract: 0 where the source's lane is the greater (R163, R164).
`Tests.witness_checks`, `Tests.witness_src64`. -/
def Obligations.SubtractsSaturateUnsigned : Prop :=
  (RmRule .psubusb 0xD8 src64 fun a b r => ∀ k, k < 8 →
    ((byteLane r k).toNat : Int) =
      max 0 (min 255 ((byteLane a k).toNat - (byteLane b k).toNat : Int))) ∧
  (RmRule .psubusw 0xD9 src64 fun a b r => ∀ k, k < 4 →
    ((wordLane r k).toNat : Int) =
      max 0 (min 65535 ((wordLane a k).toNat - (wordLane b k).toNat : Int)))

/-- Multiply: the high half of the exact signed product is its floor division by 2^16, the low half
its residue modulo 2^16 (R165, R166). `Tests.witness_checks`, `Tests.witness_src64`. -/
def Obligations.Multiplies : Prop :=
  (RmRule .pmulhw 0xE5 src64 fun a b r => ∀ k, k < 4 →
    (wordLane r k).toInt = ((wordLane a k).toInt * (wordLane b k).toInt) / 65536) ∧
  (RmRule .pmullw 0xD5 src64 fun a b r => ∀ k, k < 4 →
    ((wordLane r k).toNat : Int) = ((wordLane a k).toInt * (wordLane b k).toInt) % 65536)

/-- `PMADDWD`: per doubleword the sum of the two signed products of its words, modulo 2^32 (R167).
`Tests.witness_checks`, `Tests.witness_src64`. -/
def Obligations.MultiplyAdds : Prop :=
  RmRule .pmaddwd 0xF5 src64 fun a b r => ∀ j, j < 2 →
    ((dwordLane r j).toNat : Int) =
      ((wordLane a (2 * j)).toInt * (wordLane b (2 * j)).toInt +
        (wordLane a (2 * j + 1)).toInt * (wordLane b (2 * j + 1)).toInt) % 4294967296

/-! ## Comparison and logical operations -/

/-- Equality: a mask of ones in the lanes that are equal, zeros in the others (R181, R182, R183).
`Tests.witness_checks`, `Tests.witness_src64`. -/
def Obligations.ComparesEqual : Prop :=
  (RmRule .pcmpeqb 0x74 src64 fun a b r => ∀ k, k < 8 →
    byteLane r k = if byteLane a k = byteLane b k then 0xFF else 0x00) ∧
  (RmRule .pcmpeqw 0x75 src64 fun a b r => ∀ k, k < 4 →
    wordLane r k = if wordLane a k = wordLane b k then 0xFFFF else 0x0000) ∧
  (RmRule .pcmpeqd 0x76 src64 fun a b r => ∀ k, k < 2 →
    dwordLane r k = if dwordLane a k = dwordLane b k then 0xFFFFFFFF else 0x00000000)

/-- Signed greater-than, destination over source (R184, R185, R186). `Tests.witness_checks`,
`Tests.witness_src64`. -/
def Obligations.ComparesGreater : Prop :=
  (RmRule .pcmpgtb 0x64 src64 fun a b r => ∀ k, k < 8 →
    byteLane r k = if (byteLane a k).toInt > (byteLane b k).toInt then 0xFF else 0x00) ∧
  (RmRule .pcmpgtw 0x65 src64 fun a b r => ∀ k, k < 4 →
    wordLane r k = if (wordLane a k).toInt > (wordLane b k).toInt then 0xFFFF else 0x0000) ∧
  (RmRule .pcmpgtd 0x66 src64 fun a b r => ∀ k, k < 2 →
    dwordLane r k = if (dwordLane a k).toInt > (dwordLane b k).toInt then 0xFFFFFFFF else 0x00000000)

/-- The logical operations, bit by bit; `PANDN` complements the destination (R191, R192, R193, R194).
`Tests.witness_checks`, `Tests.witness_src64`. -/
def Obligations.LogicalBits : Prop :=
  (RmRule .pand 0xDB src64 fun a b r => ∀ i, i < 64 → r.getLsbD i = (a.getLsbD i && b.getLsbD i)) ∧
  (RmRule .pandn 0xDF src64 fun a b r => ∀ i, i < 64 → r.getLsbD i = (!a.getLsbD i && b.getLsbD i)) ∧
  (RmRule .por 0xEB src64 fun a b r => ∀ i, i < 64 → r.getLsbD i = (a.getLsbD i || b.getLsbD i)) ∧
  (RmRule .pxor 0xEF src64 fun a b r => ∀ i, i < 64 → r.getLsbD i = (a.getLsbD i ^^ b.getLsbD i))

/-! ## Shifts -/

/-- Shift left logical, by a register, memory or immediate count that is never masked (R201, R202,
R203). `Tests.witness_checks`, `Tests.witness_src64`. -/
def Obligations.ShiftsLeft : Prop :=
  (ShiftRule .psllw 0xF1 .psllwImm 0x71 6 fun c a r => ∀ k, k < 4 →
    (wordLane r k).toNat = if c > 15 then 0 else ((wordLane a k).toNat * 2 ^ c) % 65536) ∧
  (ShiftRule .pslld 0xF2 .pslldImm 0x72 6 fun c a r => ∀ k, k < 2 →
    (dwordLane r k).toNat = if c > 31 then 0 else ((dwordLane a k).toNat * 2 ^ c) % 4294967296) ∧
  (ShiftRule .psllq 0xF3 .psllqImm 0x73 6 fun c a r =>
    r.toNat = if c > 63 then 0 else (a.toNat * 2 ^ c) % 18446744073709551616)

/-- Shift right logical (R204, R205, R206). `Tests.witness_checks`, `Tests.witness_src64`. -/
def Obligations.ShiftsRight : Prop :=
  (ShiftRule .psrlw 0xD1 .psrlwImm 0x71 2 fun c a r => ∀ k, k < 4 →
    (wordLane r k).toNat = if c > 15 then 0 else (wordLane a k).toNat / 2 ^ c) ∧
  (ShiftRule .psrld 0xD2 .psrldImm 0x72 2 fun c a r => ∀ k, k < 2 →
    (dwordLane r k).toNat = if c > 31 then 0 else (dwordLane a k).toNat / 2 ^ c) ∧
  (ShiftRule .psrlq 0xD3 .psrlqImm 0x73 2 fun c a r =>
    r.toNat = if c > 63 then 0 else a.toNat / 2 ^ c)

/-- Shift right arithmetic: floor division of the signed lane, with every count of the width or more
filling the lane with its sign (R207, R208). `Tests.witness_checks`, `Tests.witness_src64`. -/
def Obligations.ShiftsRightArithmetic : Prop :=
  (ShiftRule .psraw 0xE1 .psrawImm 0x71 4 fun c a r => ∀ k, k < 4 →
    (wordLane r k).toInt = (wordLane a k).toInt / 2 ^ (if c > 15 then 16 else c)) ∧
  (ShiftRule .psrad 0xE2 .psradImm 0x72 4 fun c a r => ∀ k, k < 2 →
    (dwordLane r k).toInt = (dwordLane a k).toInt / 2 ^ (if c > 31 then 32 else c))

/-! ## State management -/

/-- `EMMS`: all tags empty, the top-of-stack field 0 if the launch says so, no register and no byte of
memory changed; in a launch without the x87 side effects it only advances `EIP` (R221).
`Tests.witness_checks`, `Tests.witness_emms`. -/
def Obligations.EmmsEmptiesTags : Prop :=
  ∀ (pre : Option Seg) (s : State),
    (Instr.emms pre).format = .bare 0x77 ∧ (Instr.emms pre).override = pre ∧
    (∀ x, mmxCheck s = some x → exec (.emms pre) s = raise x s) ∧
    (Ready s → ∃ t, exec (.emms pre) s = .next t ∧
      t.tag = (if s.launch.modelX87Alias then 0xFFFF else s.tag) ∧
      t.tos = (if s.launch.modelX87Alias ∧ s.launch.emmsTosZero then 0 else s.tos) ∧
      SameStatusRest s t ∧ SameX87Regs s t ∧ SameGeneral s t ∧ SameMemory s t ∧ SameSystem s t ∧
      t.eip = s.eip + (if pre = none then 2 else 3))
end

