-- ==== Sys2Proof/Laws/PerInstr.lean ====
section
/-! SUPPORT. What holds of each instruction as syntax, one lemma per constructor of `Instr`. -/

namespace Sys2Proof.Laws

/-- The opcode map gives back the instruction that the encoder's format came from (R90, R95). -/
def Assembles.Statement (i : Instr) : Prop := assemble i.override i.format = some i

theorem Assembles.punpcklbw (pre : Option Seg) (reg : RegNum) (rm : RegMem) :
    Assembles.Statement (.punpcklbw pre reg rm) := rfl

theorem Assembles.punpcklwd (pre : Option Seg) (reg : RegNum) (rm : RegMem) :
    Assembles.Statement (.punpcklwd pre reg rm) := rfl

theorem Assembles.punpckldq (pre : Option Seg) (reg : RegNum) (rm : RegMem) :
    Assembles.Statement (.punpckldq pre reg rm) := rfl

theorem Assembles.packsswb (pre : Option Seg) (reg : RegNum) (rm : RegMem) :
    Assembles.Statement (.packsswb pre reg rm) := rfl

theorem Assembles.pcmpgtb (pre : Option Seg) (reg : RegNum) (rm : RegMem) :
    Assembles.Statement (.pcmpgtb pre reg rm) := rfl

theorem Assembles.pcmpgtw (pre : Option Seg) (reg : RegNum) (rm : RegMem) :
    Assembles.Statement (.pcmpgtw pre reg rm) := rfl

theorem Assembles.pcmpgtd (pre : Option Seg) (reg : RegNum) (rm : RegMem) :
    Assembles.Statement (.pcmpgtd pre reg rm) := rfl

theorem Assembles.packuswb (pre : Option Seg) (reg : RegNum) (rm : RegMem) :
    Assembles.Statement (.packuswb pre reg rm) := rfl

theorem Assembles.punpckhbw (pre : Option Seg) (reg : RegNum) (rm : RegMem) :
    Assembles.Statement (.punpckhbw pre reg rm) := rfl

theorem Assembles.punpckhwd (pre : Option Seg) (reg : RegNum) (rm : RegMem) :
    Assembles.Statement (.punpckhwd pre reg rm) := rfl

theorem Assembles.punpckhdq (pre : Option Seg) (reg : RegNum) (rm : RegMem) :
    Assembles.Statement (.punpckhdq pre reg rm) := rfl

theorem Assembles.packssdw (pre : Option Seg) (reg : RegNum) (rm : RegMem) :
    Assembles.Statement (.packssdw pre reg rm) := rfl

theorem Assembles.movdToMm (pre : Option Seg) (reg : RegNum) (rm : RegMem) :
    Assembles.Statement (.movdToMm pre reg rm) := rfl

theorem Assembles.movqToMm (pre : Option Seg) (reg : RegNum) (rm : RegMem) :
    Assembles.Statement (.movqToMm pre reg rm) := rfl

theorem Assembles.psrlwImm (pre : Option Seg) (rm : RegNum) (imm : Byte) :
    Assembles.Statement (.psrlwImm pre rm imm) := rfl

theorem Assembles.psrawImm (pre : Option Seg) (rm : RegNum) (imm : Byte) :
    Assembles.Statement (.psrawImm pre rm imm) := rfl

theorem Assembles.psllwImm (pre : Option Seg) (rm : RegNum) (imm : Byte) :
    Assembles.Statement (.psllwImm pre rm imm) := rfl

theorem Assembles.psrldImm (pre : Option Seg) (rm : RegNum) (imm : Byte) :
    Assembles.Statement (.psrldImm pre rm imm) := rfl

theorem Assembles.psradImm (pre : Option Seg) (rm : RegNum) (imm : Byte) :
    Assembles.Statement (.psradImm pre rm imm) := rfl

theorem Assembles.pslldImm (pre : Option Seg) (rm : RegNum) (imm : Byte) :
    Assembles.Statement (.pslldImm pre rm imm) := rfl

theorem Assembles.psrlqImm (pre : Option Seg) (rm : RegNum) (imm : Byte) :
    Assembles.Statement (.psrlqImm pre rm imm) := rfl

theorem Assembles.psllqImm (pre : Option Seg) (rm : RegNum) (imm : Byte) :
    Assembles.Statement (.psllqImm pre rm imm) := rfl

theorem Assembles.pcmpeqb (pre : Option Seg) (reg : RegNum) (rm : RegMem) :
    Assembles.Statement (.pcmpeqb pre reg rm) := rfl

theorem Assembles.pcmpeqw (pre : Option Seg) (reg : RegNum) (rm : RegMem) :
    Assembles.Statement (.pcmpeqw pre reg rm) := rfl

theorem Assembles.pcmpeqd (pre : Option Seg) (reg : RegNum) (rm : RegMem) :
    Assembles.Statement (.pcmpeqd pre reg rm) := rfl

theorem Assembles.emms (pre : Option Seg) :
    Assembles.Statement (.emms pre) := rfl

theorem Assembles.movdFromMm (pre : Option Seg) (reg : RegNum) (rm : RegMem) :
    Assembles.Statement (.movdFromMm pre reg rm) := rfl

theorem Assembles.movqFromMm (pre : Option Seg) (reg : RegNum) (rm : RegMem) :
    Assembles.Statement (.movqFromMm pre reg rm) := rfl

theorem Assembles.psrlw (pre : Option Seg) (reg : RegNum) (rm : RegMem) :
    Assembles.Statement (.psrlw pre reg rm) := rfl

theorem Assembles.psrld (pre : Option Seg) (reg : RegNum) (rm : RegMem) :
    Assembles.Statement (.psrld pre reg rm) := rfl

theorem Assembles.psrlq (pre : Option Seg) (reg : RegNum) (rm : RegMem) :
    Assembles.Statement (.psrlq pre reg rm) := rfl

theorem Assembles.pmullw (pre : Option Seg) (reg : RegNum) (rm : RegMem) :
    Assembles.Statement (.pmullw pre reg rm) := rfl

theorem Assembles.psubusb (pre : Option Seg) (reg : RegNum) (rm : RegMem) :
    Assembles.Statement (.psubusb pre reg rm) := rfl

theorem Assembles.psubusw (pre : Option Seg) (reg : RegNum) (rm : RegMem) :
    Assembles.Statement (.psubusw pre reg rm) := rfl

theorem Assembles.pand (pre : Option Seg) (reg : RegNum) (rm : RegMem) :
    Assembles.Statement (.pand pre reg rm) := rfl

theorem Assembles.paddusb (pre : Option Seg) (reg : RegNum) (rm : RegMem) :
    Assembles.Statement (.paddusb pre reg rm) := rfl

theorem Assembles.paddusw (pre : Option Seg) (reg : RegNum) (rm : RegMem) :
    Assembles.Statement (.paddusw pre reg rm) := rfl

theorem Assembles.pandn (pre : Option Seg) (reg : RegNum) (rm : RegMem) :
    Assembles.Statement (.pandn pre reg rm) := rfl

theorem Assembles.psraw (pre : Option Seg) (reg : RegNum) (rm : RegMem) :
    Assembles.Statement (.psraw pre reg rm) := rfl

theorem Assembles.psrad (pre : Option Seg) (reg : RegNum) (rm : RegMem) :
    Assembles.Statement (.psrad pre reg rm) := rfl

theorem Assembles.pmulhw (pre : Option Seg) (reg : RegNum) (rm : RegMem) :
    Assembles.Statement (.pmulhw pre reg rm) := rfl

theorem Assembles.psubsb (pre : Option Seg) (reg : RegNum) (rm : RegMem) :
    Assembles.Statement (.psubsb pre reg rm) := rfl

theorem Assembles.psubsw (pre : Option Seg) (reg : RegNum) (rm : RegMem) :
    Assembles.Statement (.psubsw pre reg rm) := rfl

theorem Assembles.por (pre : Option Seg) (reg : RegNum) (rm : RegMem) :
    Assembles.Statement (.por pre reg rm) := rfl

theorem Assembles.paddsb (pre : Option Seg) (reg : RegNum) (rm : RegMem) :
    Assembles.Statement (.paddsb pre reg rm) := rfl

theorem Assembles.paddsw (pre : Option Seg) (reg : RegNum) (rm : RegMem) :
    Assembles.Statement (.paddsw pre reg rm) := rfl

theorem Assembles.pxor (pre : Option Seg) (reg : RegNum) (rm : RegMem) :
    Assembles.Statement (.pxor pre reg rm) := rfl

theorem Assembles.psllw (pre : Option Seg) (reg : RegNum) (rm : RegMem) :
    Assembles.Statement (.psllw pre reg rm) := rfl

theorem Assembles.pslld (pre : Option Seg) (reg : RegNum) (rm : RegMem) :
    Assembles.Statement (.pslld pre reg rm) := rfl

theorem Assembles.psllq (pre : Option Seg) (reg : RegNum) (rm : RegMem) :
    Assembles.Statement (.psllq pre reg rm) := rfl

theorem Assembles.pmaddwd (pre : Option Seg) (reg : RegNum) (rm : RegMem) :
    Assembles.Statement (.pmaddwd pre reg rm) := rfl

theorem Assembles.psubb (pre : Option Seg) (reg : RegNum) (rm : RegMem) :
    Assembles.Statement (.psubb pre reg rm) := rfl

theorem Assembles.psubw (pre : Option Seg) (reg : RegNum) (rm : RegMem) :
    Assembles.Statement (.psubw pre reg rm) := rfl

theorem Assembles.psubd (pre : Option Seg) (reg : RegNum) (rm : RegMem) :
    Assembles.Statement (.psubd pre reg rm) := rfl

theorem Assembles.paddb (pre : Option Seg) (reg : RegNum) (rm : RegMem) :
    Assembles.Statement (.paddb pre reg rm) := rfl

theorem Assembles.paddw (pre : Option Seg) (reg : RegNum) (rm : RegMem) :
    Assembles.Statement (.paddw pre reg rm) := rfl

theorem Assembles.paddd (pre : Option Seg) (reg : RegNum) (rm : RegMem) :
    Assembles.Statement (.paddd pre reg rm) := rfl

end Sys2Proof.Laws
end

