-- ==== Sys2Proof/Laws/Decode.lean ====
section
/-! SUPPORT. Printing and parsing, piece by piece: what each reader of the decoder makes of what the
encoder writes, and what a reader that succeeded must have read. -/

namespace Sys2Proof

/-! ## Fields -/

@[simp] theorem field76_packFields (hi : BitVec 2) (mid lo : BitVec 3) :
    field76 (packFields hi mid lo) = hi := by revert hi mid lo; decide

@[simp] theorem field53_packFields (hi : BitVec 2) (mid lo : BitVec 3) :
    field53 (packFields hi mid lo) = mid := by revert hi mid lo; decide

@[simp] theorem field20_packFields (hi : BitVec 2) (mid lo : BitVec 3) :
    field20 (packFields hi mid lo) = lo := by revert hi mid lo; decide

@[simp] theorem packFields_fields (b : Byte) : packFields (field76 b) (field53 b) (field20 b) = b := by
  revert b; decide

/-- A byte is the three fields it has. -/
theorem eq_packFields {b : Byte} {hi : BitVec 2} {mid lo : BitVec 3} (h : field76 b = hi)
    (m : field53 b = mid) (l : field20 b = lo) : packFields hi mid lo = b := by
  subst h m l; exact packFields_fields b

theorem dwordOfBytes_bytes (w : Dword) :
    dwordOfBytes (w.extractLsb' 0 8) (w.extractLsb' 8 8) (w.extractLsb' 16 8) (w.extractLsb' 24 8) = w := by
  apply BitVec.eq_of_getLsbD_eq
  intro i hi
  simp only [dwordOfBytes, BitVec.getLsbD_append, BitVec.getLsbD_extractLsb']
  split
  · simp [*]
  · split
    · rw [show 8 + (i - 8) = i by omega]; simp; omega
    · split
      · rw [show 16 + (i - 8 - 8) = i by omega]; simp; omega
      · rw [show 24 + (i - 8 - 8 - 8) = i by omega]; simp; omega

theorem bytesOfDword_dword (b0 b1 b2 b3 : Byte) :
    bytesOfDword (dwordOfBytes b0 b1 b2 b3) = [b0, b1, b2, b3] := by
  have lane : ∀ (k : Nat) (b : Byte), (∀ i, i < 8 →
      (dwordOfBytes b0 b1 b2 b3).getLsbD (k + i) = b.getLsbD i) →
      (dwordOfBytes b0 b1 b2 b3).extractLsb' k 8 = b := by
    intro k b h
    apply BitVec.eq_of_getLsbD_eq
    intro i hi
    simp only [BitVec.getLsbD_extractLsb', hi, decide_true, Bool.true_and, h i hi]
  simp only [dwordOfBytes, BitVec.getLsbD_append] at lane
  simp only [bytesOfDword, dwordOfBytes]
  rw [lane 0 b0 fun i hi => by simp [hi],
    lane 8 b1 fun i hi => by rw [if_neg (by omega), if_pos (by omega), Nat.add_sub_cancel_left],
    lane 16 b2 fun i hi => by
      rw [if_neg (by omega), if_neg (by omega), if_pos (by omega)]; congr 1; omega,
    lane 24 b3 fun i hi => by
      rw [if_neg (by omega), if_neg (by omega), if_neg (by omega)]; congr 1; omega]

/-! ## Operands -/

theorem takeDword_bytes (w : Dword) (rest : List Byte) :
    takeDword (bytesOfDword w ++ rest) = some (w, rest) := by
  simp [takeDword, bytesOfDword, dwordOfBytes_bytes]

theorem takeDword_some {bs rest : List Byte} {w : Dword} (h : takeDword bs = some (w, rest)) :
    bs = bytesOfDword w ++ rest := by
  unfold takeDword at h
  split at h
  · cases h; rw [bytesOfDword_dword]; rfl
  · cases h

theorem takeDisp_bytes (d : Disp) (rest : List Byte) :
    takeDisp d.mod (d.bytes ++ rest) = some (d, rest) := by
  cases d <;> simp [takeDisp, Disp.mod, Disp.bytes, takeDword_bytes]

theorem takeDisp_some {mod : BitVec 2} {bs rest : List Byte} {d : Disp} (hm : mod ≠ 3)
    (h : takeDisp mod bs = some (d, rest)) : d.mod = mod ∧ bs = d.bytes ++ rest := by
  unfold takeDisp at h
  split at h
  · cases h; exact ⟨by simp [Disp.mod, *], rfl⟩
  · split at h
    · split at h
      · cases h; exact ⟨by simp [Disp.mod, *], rfl⟩
      · cases h
    · have h2 : (2 : BitVec 2) = mod := by revert mod; decide
      cases e : takeDword bs with
      | none => simp [e] at h
      | some p =>
        obtain ⟨w, r⟩ := p
        simp only [e, Option.map_some, Option.some.injEq, Prod.mk.injEq] at h
        obtain ⟨rfl, rfl⟩ := h
        exact ⟨h2, takeDword_some e⟩

/-- The bytes of a well-formed operand read back: ModRM's three fields and the rest. -/
theorem takeRegMem_bytes (reg : RegNum) {rm : RegMem} (h : rm.wf = true) (rest : List Byte) :
    ∃ modrm tail, rm.bytes reg = modrm :: tail ∧ field53 modrm = reg ∧
      takeRegMem modrm (tail ++ rest) = some (rm, rest) := by
  cases rm with
  | reg r => exact ⟨_, _, rfl, by simp, by simp [takeRegMem]⟩
  | mem m =>
    cases m with
    | base r d =>
      refine ⟨_, _, rfl, by simp, ?_⟩
      have e := takeDisp_bytes d rest
      cases d <;> simp_all [takeRegMem, takeMem, RegMem.wf, MemOperand.wf, Disp.mod, Disp.bytes]
    | abs w =>
      refine ⟨_, _, rfl, by simp, ?_⟩
      simp [takeRegMem, takeMem, takeDword_bytes]
    | sib ss idx b d =>
      refine ⟨_, _, rfl, by simp, ?_⟩
      have e := takeDisp_bytes d rest
      cases d <;> simp_all [takeRegMem, takeMem, takeSib, RegMem.wf, MemOperand.wf, Disp.mod, Disp.bytes]
    | sibNoBase ss idx w =>
      refine ⟨_, _, rfl, by simp, ?_⟩
      simp [takeRegMem, takeMem, takeSib, takeDword_bytes]

/-- What a memory operand that was read must have been written as. -/
theorem takeMem_some {mod : BitVec 2} {r : RegNum} {bs rest : List Byte} {m : MemOperand}
    (hm : mod ≠ 3) (h : takeMem mod r bs = some (m, rest)) :
    m.wf = true ∧ ∀ reg, packFields mod reg r :: bs = m.bytes reg ++ rest := by
  unfold takeMem at h
  split at h
  · rename_i hr
    subst hr
    unfold takeSib at h
    split at h
    · cases h
    · rename_i s tail
      split at h
      · rename_i hb
        obtain ⟨w, _, e, hw⟩ : ∃ w r', takeDword tail = some (w, r') ∧
            (MemOperand.sibNoBase (field76 s) (field53 s) w, r') = (m, rest) := by
          cases e : takeDword tail with
          | none => simp [e] at h
          | some p => exact ⟨p.1, p.2, rfl, by simpa [e] using h⟩
        cases hw
        have hs : packFields (field76 s) (field53 s) 5 = s := eq_packFields rfl rfl hb.1
        exact ⟨rfl, fun reg => by simp [MemOperand.bytes, hb.2, takeDword_some e]; exact hs.symm⟩
      · rename_i hb
        obtain ⟨d, _, e, hw⟩ : ∃ d r', takeDisp mod tail = some (d, r') ∧
            (MemOperand.sib (field76 s) (field53 s) (field20 s) d, r') = (m, rest) := by
          cases e : takeDisp mod tail with
          | none => simp [e] at h
          | some p => exact ⟨p.1, p.2, rfl, by simpa [e] using h⟩
        cases hw
        obtain ⟨hd, ht⟩ := takeDisp_some hm e
        refine ⟨?_, fun reg => by simp [MemOperand.bytes, hd, ht]⟩
        cases d with
        | none =>
          have : mod = 0 := hd.symm
          simp [MemOperand.wf, this] at hb ⊢; exact hb
        | d8 b => rfl
        | d32 w => rfl
  · rename_i hr
    split at h
    · rename_i hb
      obtain ⟨w, _, e, hw⟩ : ∃ w r', takeDword bs = some (w, r') ∧
          (MemOperand.abs w, r') = (m, rest) := by
        cases e : takeDword bs with
        | none => simp [e] at h
        | some p => exact ⟨p.1, p.2, rfl, by simpa [e] using h⟩
      cases hw
      exact ⟨rfl, fun reg => by simp [MemOperand.bytes, hb.1, hb.2, takeDword_some e]⟩
    · rename_i hb
      obtain ⟨d, _, e, hw⟩ : ∃ d r', takeDisp mod bs = some (d, r') ∧
          (MemOperand.base r d, r') = (m, rest) := by
        cases e : takeDisp mod bs with
        | none => simp [e] at h
        | some p => exact ⟨p.1, p.2, rfl, by simpa [e] using h⟩
      cases hw
      obtain ⟨hd, ht⟩ := takeDisp_some hm e
      refine ⟨?_, fun reg => by simp [MemOperand.bytes, hd, ht]⟩
      cases d with
      | none =>
        have : mod = 0 := hd.symm
        simp [MemOperand.wf, this] at hb ⊢; exact ⟨hr, hb⟩
      | d8 b => simpa [MemOperand.wf] using hr
      | d32 w => simpa [MemOperand.wf] using hr

/-- What an operand that was read must have been written as. -/
theorem takeRegMem_some {modrm : Byte} {bs rest : List Byte} {rm : RegMem}
    (h : takeRegMem modrm bs = some (rm, rest)) :
    rm.wf = true ∧ modrm :: bs = rm.bytes (field53 modrm) ++ rest := by
  unfold takeRegMem at h
  split at h
  · rename_i hm
    cases h
    exact ⟨rfl, by simp [RegMem.bytes]; exact (eq_packFields hm rfl rfl).symm⟩
  · rename_i hm
    obtain ⟨m, _, e, hw⟩ : ∃ m r', takeMem (field76 modrm) (field20 modrm) bs = some (m, r') ∧
        (RegMem.mem m, r') = (rm, rest) := by
      cases e : takeMem (field76 modrm) (field20 modrm) bs with
      | none => simp [e] at h
      | some p => exact ⟨p.1, p.2, rfl, by simpa [e] using h⟩
    cases hw
    obtain ⟨hwf, hb⟩ := takeMem_some hm e
    exact ⟨hwf, by simpa [RegMem.bytes] using hb (field53 modrm)⟩

/-- The size of an operand is the number of bytes after ModRM (R88). -/
theorem RegMem.length_bytes (rm : RegMem) (reg : RegNum) : (rm.bytes reg).length = 1 + rm.size := by
  cases rm with
  | reg r => rfl
  | mem m =>
    cases m with
    | base r d => cases d <;> rfl
    | abs w => rfl
    | sib ss idx b d => cases d <;> rfl
    | sibNoBase ss idx w => rfl

theorem Disp.size_le (d : Disp) : d.size ≤ 4 := by cases d <;> simp [Disp.size]

theorem RegMem.size_le (rm : RegMem) : rm.size ≤ 5 := by
  cases rm with
  | reg r => simp [RegMem.size]
  | mem m =>
    cases m with
    | base r d => have := d.size_le; simp only [RegMem.size, MemOperand.size]; omega
    | abs w => simp [RegMem.size, MemOperand.size]
    | sib ss idx b d => have := d.size_le; simp only [RegMem.size, MemOperand.size]; omega
    | sibNoBase ss idx w => simp [RegMem.size, MemOperand.size]

/-! ## The opcode map -/

/-- A listed format-`RM` opcode is neither `EMMS` nor of the shift group. -/
theorem rmInstr_isSome {op : Byte} (h : (rmInstr op).isSome = true) :
    op ≠ emmsOpcode ∧ isShiftGroup op = false := by revert op; decide

/-- A listed shift group opcode is of the shift group and not `EMMS`. -/
theorem shiInstr_isSome {op : Byte} {ext : BitVec 3} (h : (shiInstr op ext).isSome = true) :
    op ≠ emmsOpcode ∧ isShiftGroup op = true := by revert op ext; decide

/-- What the opcode map lists for an opcode has that opcode and carries its operands. -/
theorem rmInstr_some {op : Byte} {mk : Option Seg → RegNum → RegMem → Instr}
    (h : rmInstr op = some mk) (pre : Option Seg) (reg : RegNum) (rm : RegMem) :
    (mk pre reg rm).format = .rm op reg rm ∧ (mk pre reg rm).override = pre := by
  unfold rmInstr at h
  split at h <;> cases h <;> exact ⟨rfl, rfl⟩

theorem shiInstr_some {op : Byte} {ext : BitVec 3} {mk : Option Seg → RegNum → Byte → Instr}
    (h : shiInstr op ext = some mk) (pre : Option Seg) (rm : RegNum) (imm : Byte) :
    (mk pre rm imm).format = .shi op ext rm imm ∧ (mk pre rm imm).override = pre := by
  unfold shiInstr at h
  split at h <;> cases h <;> exact ⟨rfl, rfl⟩

/-- An instruction's operand is well-formed if the instruction is. -/
theorem Instr.wf_rm {i : Instr} {op : Byte} {reg : RegNum} {rm : RegMem}
    (h : i.format = .rm op reg rm) : i.wf = rm.wf := by
  cases i <;> cases h <;> rfl

/-- An instruction without a ModRM operand is well-formed. -/
theorem Instr.wf_shi {i : Instr} {op : Byte} {ext : BitVec 3} {r : RegNum} {imm : Byte}
    (h : i.format = .shi op ext r imm) : i.wf = true := by
  cases i <;> cases h <;> rfl

theorem Instr.wf_bare {i : Instr} {op : Byte} (h : i.format = .bare op) : i.wf = true := by
  cases i <;> cases h <;> rfl

/-! ## Prefixes -/

@[simp] theorem segOfPrefix_prefixOfSeg (sg : Seg) : segOfPrefix (prefixOfSeg sg) = some sg := by
  cases sg <;> rfl

theorem prefixOfSeg_of_some {b : Byte} {sg : Seg} (h : segOfPrefix b = some sg) : prefixOfSeg sg = b := by
  unfold segOfPrefix at h
  split at h <;> cases h <;> rfl

/-- The escape byte after the optional override leads to the opcode map. -/
theorem decode_prefix (pre : Option Seg) (bs : List Byte) :
    decode (prefixBytes pre ++ escapeByte :: bs) = decodeOpcode pre bs := by
  cases pre with
  | none => rfl
  | some sg => cases sg <;> rfl

/-- What led to the opcode map is an optional override and the escape byte. -/
theorem decode_instr {bs rest : List Byte} {i : Instr} (h : decode bs = .instr i rest) :
    ∃ pre tail, bs = prefixBytes pre ++ escapeByte :: tail ∧ decodeOpcode pre tail = .instr i rest := by
  have esc : ∀ pre cs, decodeEscape pre cs = .instr i rest →
      ∃ tail, cs = escapeByte :: tail ∧ decodeOpcode pre tail = .instr i rest := by
    intro pre cs h
    unfold decodeEscape at h
    split at h
    · cases h
    · split at h
      · cases h
      · split at h
        · cases h
        · split at h
          · rename_i hb; exact ⟨_, by rw [hb], h⟩
          · cases h
  unfold decode at h
  split at h
  · cases h
  · split at h
    · rename_i hs
      obtain ⟨tail, e, ht⟩ := esc _ _ h
      exact ⟨_, tail, by simp [prefixBytes, prefixOfSeg_of_some hs, e], ht⟩
    · obtain ⟨tail, e, ht⟩ := esc _ _ h
      exact ⟨none, tail, by simpa [prefixBytes] using e, ht⟩

/-! ## From the opcode on -/

/-- A format whose operand the encoding can express. -/
def Format.wf : Format → Bool
  | .rm _ _ operand => operand.wf
  | .shi _ _ _ _ => true
  | .bare _ => true

/-- An instruction is well-formed as its format is. -/
theorem Instr.wf_eq_format (i : Instr) : i.wf = i.format.wf := by
  cases h : i.format with
  | rm op reg rm => exact Instr.wf_rm h
  | shi op ext r imm => exact Instr.wf_shi h
  | bare op => exact Instr.wf_bare h

/-- The bytes of a listed format read back as the instruction the opcode map gives it. -/
theorem decodeOpcode_bytes {pre : Option Seg} {f : Format} {i : Instr} (hf : f.wf = true)
    (h : assemble pre f = some i) (rest : List Byte) :
    decodeOpcode pre (f.bytes ++ rest) = .instr i rest := by
  cases f with
  | rm op reg rm =>
    simp only [assemble] at h
    cases e : rmInstr op with
    | none => simp [e] at h
    | some mk =>
      have hi : mk pre reg rm = i := by simpa [e] using h
      obtain ⟨h1, h2⟩ := rmInstr_isSome (op := op) (by simp [e])
      obtain ⟨modrm, tail, hb, hr, ht⟩ := takeRegMem_bytes reg hf rest
      simp [Format.bytes, decodeOpcode, h1, h2, e, hb, decodeRm, ht, hr, hi]
  | shi op ext r imm =>
    simp only [assemble] at h
    cases e : shiInstr op ext with
    | none => simp [e] at h
    | some mk =>
      have hi : mk pre r imm = i := by simpa [e] using h
      obtain ⟨h1, h2⟩ := shiInstr_isSome (op := op) (ext := ext) (by simp [e])
      simp [Format.bytes, decodeOpcode, h1, h2, decodeShift, e, hi]
  | bare op =>
    simp only [assemble] at h
    split at h
    · rename_i ho
      cases h
      simp [Format.bytes, decodeOpcode, ho]
    · cases h

/-- An instruction read from the opcode on was written by the encoder. -/
theorem decodeOpcode_instr {pre : Option Seg} {bs rest : List Byte} {i : Instr}
    (h : decodeOpcode pre bs = .instr i rest) :
    i.override = pre ∧ i.wf = true ∧ bs = i.format.bytes ++ rest := by
  unfold decodeOpcode at h
  split at h
  · cases h
  · rename_i op bs
    split at h
    · rename_i ho
      cases h
      exact ⟨rfl, rfl, by simp [Instr.format, Format.bytes, ho, emmsOpcode]⟩
    · split at h
      · unfold decodeShift at h
        split at h
        · cases h
        · rename_i modrm bs
          split at h
          · rename_i hm
            split at h
            · cases h
            · rename_i mk hmk
              split at h
              · cases h
              · cases h
                obtain ⟨h1, h2⟩ := shiInstr_some hmk pre (field20 modrm) (by assumption)
                refine ⟨h2, Instr.wf_shi h1, ?_⟩
                simp [h1, Format.bytes]; exact (eq_packFields hm rfl rfl).symm
          · cases h
      · split at h
        · rename_i mk hmk
          unfold decodeRm at h
          split at h
          · cases h
          · rename_i modrm bs
            split at h
            · rename_i rm r' ht
              cases h
              obtain ⟨h1, h2⟩ := rmInstr_some hmk pre (field53 modrm) rm
              obtain ⟨h3, h4⟩ := takeRegMem_some ht
              refine ⟨h2, (Instr.wf_rm h1).trans h3, ?_⟩
              simpa [h1, Format.bytes] using h4
            · cases h
        · cases h

/-- The encoder writes as many bytes as R88 says. -/
theorem prefixBytes_length (pre : Option Seg) : (prefixBytes pre).length = prefixLength pre := by
  cases pre <;> rfl

end Sys2Proof
end

