-- ==== Sys2Proof/Laws/Lanes.lean ====
section
/-! SUPPORT. What the lane operations give, lane by lane: one lemma per operation, which proofs cite
instead of unfolding it. -/

namespace Sys2Proof.Machine

/-! ## A lane of a quadword built from lanes -/

theorem byteLane_ofBytes (f : Nat → Byte) {k : Nat} (h : k < 8) : byteLane (ofBytes f) k = f k := by
  change BitVec.extractLsb' (n := 8 + 8 + 8 + 8 + 8 + 8 + 8 + 8) (8 * k) 8
    (f 7 ++ f 6 ++ f 5 ++ f 4 ++ f 3 ++ f 2 ++ f 1 ++ f 0) = f k
  match k, h with
  | 0, _ | 1, _ | 2, _ | 3, _ | 4, _ | 5, _ | 6, _ | 7, _ =>
    simp (disch := omega) only [BitVec.extractLsb'_append_eq_of_add_le,
      BitVec.extractLsb'_append_eq_of_le]
    exact BitVec.extractLsb'_eq_self

theorem wordLane_ofWords (f : Nat → Word) {k : Nat} (h : k < 4) : wordLane (ofWords f) k = f k := by
  change BitVec.extractLsb' (n := 16 + 16 + 16 + 16) (16 * k) 16 (f 3 ++ f 2 ++ f 1 ++ f 0) = f k
  match k, h with
  | 0, _ | 1, _ | 2, _ | 3, _ =>
    simp (disch := omega) only [BitVec.extractLsb'_append_eq_of_add_le,
      BitVec.extractLsb'_append_eq_of_le]
    exact BitVec.extractLsb'_eq_self

theorem dwordLane_ofDwords (f : Nat → Dword) {k : Nat} (h : k < 2) :
    dwordLane (ofDwords f) k = f k := by
  change BitVec.extractLsb' (n := 32 + 32) (32 * k) 32 (f 1 ++ f 0) = f k
  match k, h with
  | 0, _ | 1, _ =>
    simp (disch := omega) only [BitVec.extractLsb'_append_eq_of_add_le,
      BitVec.extractLsb'_append_eq_of_le]
    exact BitVec.extractLsb'_eq_self

/-! ## Lane-wise operations -/

theorem byteLane_zipBytes (f : Byte → Byte → Byte) (a b : Quad) {k : Nat} (h : k < 8) :
    byteLane (zipBytes f a b) k = f (byteLane a k) (byteLane b k) := byteLane_ofBytes _ h

theorem wordLane_zipWords (f : Word → Word → Word) (a b : Quad) {k : Nat} (h : k < 4) :
    wordLane (zipWords f a b) k = f (wordLane a k) (wordLane b k) := wordLane_ofWords _ h

theorem dwordLane_zipDwords (f : Dword → Dword → Dword) (a b : Quad) {k : Nat} (h : k < 2) :
    dwordLane (zipDwords f a b) k = f (dwordLane a k) (dwordLane b k) := dwordLane_ofDwords _ h

theorem wordLane_mapWords (f : Word → Word) (a : Quad) {k : Nat} (h : k < 4) :
    wordLane (mapWords f a) k = f (wordLane a k) := wordLane_ofWords _ h

theorem dwordLane_mapDwords (f : Dword → Dword) (a : Quad) {k : Nat} (h : k < 2) :
    dwordLane (mapDwords f a) k = f (dwordLane a k) := dwordLane_ofDwords _ h

theorem byteLane_packWords (f : Word → Byte) (a b : Quad) {k : Nat} (h : k < 8) :
    byteLane (packWords f a b) k =
      if k < 4 then f (wordLane a k) else f (wordLane b (k - 4)) := byteLane_ofBytes _ h

theorem wordLane_packDwords (f : Dword → Word) (a b : Quad) {k : Nat} (h : k < 4) :
    wordLane (packDwords f a b) k =
      if k < 2 then f (dwordLane a k) else f (dwordLane b (k - 2)) := wordLane_ofWords _ h

theorem byteLane_interleaveBytes (p : Nat) (a b : Quad) {k : Nat} (h : k < 8) :
    byteLane (interleaveBytes p a b) k =
      if k % 2 = 0 then byteLane a (p + k / 2) else byteLane b (p + k / 2) := byteLane_ofBytes _ h

theorem wordLane_interleaveWords (p : Nat) (a b : Quad) {k : Nat} (h : k < 4) :
    wordLane (interleaveWords p a b) k =
      if k % 2 = 0 then wordLane a (p + k / 2) else wordLane b (p + k / 2) := wordLane_ofWords _ h

theorem dwordLane_interleaveDwords (p : Nat) (a b : Quad) {k : Nat} (h : k < 2) :
    dwordLane (interleaveDwords p a b) k =
      if k % 2 = 0 then dwordLane a (p + k / 2) else dwordLane b (p + k / 2) :=
  dwordLane_ofDwords _ h

theorem dwordLane_multiplyAdd (a b : Quad) {j : Nat} (h : j < 2) :
    dwordLane (multiplyAdd a b) j =
      product (wordLane a (2 * j)) (wordLane b (2 * j)) +
        product (wordLane a (2 * j + 1)) (wordLane b (2 * j + 1)) := dwordLane_ofDwords _ h

/-! ## Lanes of a doubleword extended to a quadword -/

theorem extract_zeroExtend (w : Dword) {p n : Nat} (h : p + n ≤ 32) :
    (w.zeroExtend 64 : Quad).extractLsb' p n = w.extractLsb' p n := by
  apply BitVec.eq_of_getLsbD_eq
  intro i hi
  simp only [BitVec.getLsbD_extractLsb', BitVec.getLsbD_setWidth, BitVec.zeroExtend]
  simp [hi, show p + i < 64 by omega]

/-! ## Saturation -/

theorem toInt_ofInt_of_range {n : Nat} (hn : 0 < n) {x : Int} (h1 : -(2 ^ (n - 1) : Int) ≤ x)
    (h2 : x < (2 ^ (n - 1) : Int)) : (BitVec.ofInt n x).toInt = x := by
  obtain ⟨m, rfl⟩ : ∃ m, n = m + 1 := ⟨n - 1, by omega⟩
  simp only [Nat.add_sub_cancel] at h1 h2
  rw [BitVec.toInt_ofInt]
  have e : ((2 ^ (m + 1) : Nat) : Int) = 2 * (2 ^ m : Int) := by
    rw [Nat.pow_succ]; push_cast; omega
  rw [Int.bmod_def, e]
  by_cases hx : 0 ≤ x
  · rw [Int.emod_eq_of_lt hx (by omega)]; omega
  · have h := Int.add_emod_right x (2 * (2 ^ m : Int))
    rw [← h, Int.emod_eq_of_lt (by omega) (by omega)]; omega

/-- `SatS_n` is the clamp to the range of `n`-bit two's complement. -/
theorem toInt_satS {n : Nat} (hn : 0 < n) (x : Int) :
    (satS n x).toInt = max (-(2 ^ (n - 1) : Int)) (min ((2 ^ (n - 1) : Int) - 1) x) := by
  have p : (0 : Int) < 2 ^ (n - 1) := Int.pow_pos (by omega)
  unfold satS
  split
  · rw [toInt_ofInt_of_range hn (by omega) (by omega)]; omega
  · split
    · rw [toInt_ofInt_of_range hn (by omega) (by omega)]; omega
    · rw [toInt_ofInt_of_range hn (by omega) (by omega)]; omega

/-- `SatU_n` is the clamp to the range of `n` unsigned bits. -/
theorem toNat_satU (n : Nat) (x : Int) :
    ((satU n x).toNat : Int) = max 0 (min ((2 ^ n : Int) - 1) x) := by
  have p : (0 : Int) < 2 ^ n := Int.pow_pos (by omega)
  have e : ((2 ^ n : Nat) : Int) = (2 ^ n : Int) := by push_cast; rfl
  unfold satU
  split
  · simp; omega
  · split
    · have q : 0 < 2 ^ n := Nat.two_pow_pos n
      simp only [BitVec.toNat_allOnes]; omega
    · rw [BitVec.toNat_ofInt, Int.toNat_of_nonneg (Int.emod_nonneg _ (by omega)), e,
        Int.emod_eq_of_lt (by omega) (by omega)]
      omega

/-! ## Lane arithmetic -/

theorem toNat_addWrap {n : Nat} (x y : BitVec n) :
    (addWrap x y).toNat = (x.toNat + y.toNat) % 2 ^ n := BitVec.toNat_add x y

theorem toNat_subWrap {n : Nat} (x y : BitVec n) :
    ((subWrap x y).toNat : Int) = ((x.toNat : Int) - (y.toNat : Int)) % 2 ^ n := by
  have hx := x.isLt
  have hy := y.isLt
  have e : ((2 ^ n : Nat) : Int) = (2 ^ n : Int) := by push_cast; rfl
  rw [subWrap, BitVec.toNat_sub, Int.natCast_emod, e]
  have : (((2 ^ n - y.toNat + x.toNat : Nat)) : Int) = (x.toNat : Int) - y.toNat + 2 ^ n := by omega
  rw [this, Int.add_emod_right]

/-- The product of two words is exact in 32 bits (R168). -/
theorem toInt_product (x y : Word) : (product x y).toInt = x.toInt * y.toInt := by
  have hx1 := BitVec.le_toInt x
  have hx2 := BitVec.toInt_lt (x := x)
  have hy1 := BitVec.le_toInt y
  have hy2 := BitVec.toInt_lt (x := y)
  simp only [Nat.reduceSub, Int.reducePow, Int.reduceNeg] at hx1 hx2 hy1 hy2
  have b : (x.toInt * y.toInt).natAbs ≤ 32768 * 32768 := by
    rw [Int.natAbs_mul]
    exact Nat.mul_le_mul (by omega) (by omega)
  exact toInt_ofInt_of_range (by omega) (by omega) (by omega)

/-- The high half of the product is its floor division by 2^16 (R165). -/
theorem toInt_mulHigh (x y : Word) : (mulHigh x y).toInt = x.toInt * y.toInt / 65536 := by
  rw [← toInt_product, mulHigh]
  generalize product x y = p
  have := p.isLt
  simp only [BitVec.toInt_eq_toNat_cond, BitVec.extractLsb'_toNat, Nat.shiftRight_eq_div_pow,
    Nat.reducePow]
  split <;> split <;> omega

/-- The low half of the product is its residue modulo 2^16 (R166). -/
theorem toNat_mulLow (x y : Word) : ((mulLow x y).toNat : Int) = (x.toInt * y.toInt) % 65536 := by
  simp only [mulLow, product, BitVec.extractLsb'_toNat, BitVec.toNat_ofInt, Nat.shiftRight_zero]
  omega

/-- `PMADDWD`'s sum of two products, modulo 2^32 (R167). -/
theorem toNat_product_add (x y x' y' : Word) :
    ((product x y + product x' y').toNat : Int) =
      (x.toInt * y.toInt + x'.toInt * y'.toInt) % 4294967296 := by
  simp only [product, BitVec.toNat_add, BitVec.toNat_ofInt]
  omega

/-! ## Masks and shifts -/

theorem cmpEq_eq {n : Nat} (x y : BitVec n) : cmpEq x y = if x = y then BitVec.allOnes n else 0 := by
  simp [cmpEq, mask]

theorem cmpGt_eq {n : Nat} (x y : BitVec n) :
    cmpGt x y = if x.toInt > y.toInt then BitVec.allOnes n else 0 := by simp [cmpGt, mask]

theorem shl_zero_of_le {n c : Nat} (h : n ≤ c) (x : BitVec n) : shl c x = 0 := by simp [shl, h]

theorem toNat_shl {n : Nat} (c : Nat) (x : BitVec n) :
    (shl c x).toNat = if n ≤ c then 0 else (x.toNat * 2 ^ c) % 2 ^ n := by
  unfold shl
  split
  · simp
  · simp [BitVec.toNat_shiftLeft, Nat.shiftLeft_eq]

theorem toNat_shrLogical {n : Nat} (c : Nat) (x : BitVec n) :
    (shrLogical c x).toNat = if n ≤ c then 0 else x.toNat / 2 ^ c := by
  unfold shrLogical
  split
  · simp
  · simp [BitVec.toNat_ushiftRight, Nat.shiftRight_eq_div_pow]

theorem toInt_shrArith {n : Nat} (c : Nat) (x : BitVec n) :
    (shrArith c x).toInt = x.toInt / 2 ^ (if n ≤ c then n else c) := by
  simp [shrArith, BitVec.toInt_sshiftRight, Int.shiftRight_eq_div_pow]

end Sys2Proof.Machine
end

