-- ==== Sys2Proof/Laws/Memory.lean ====
section
/-! SUPPORT. Memory: read after write, and the canonical form that every memory operation keeps. -/

namespace Sys2Proof.Machine

open Host (Cell)

/-! ## One byte -/

theorem readCell_writeCell_other (m : List Cell) {a b : Nat} (v : Byte) (h : b ≠ a) :
    readCell (writeCell m a v) b = readCell m b := by
  induction m with
  | nil =>
    unfold writeCell
    split
    · rfl
    · simp [readCell, Ne.symm h]
  | cons c rest ih =>
    obtain ⟨k, w⟩ := c
    unfold writeCell
    split
    · split
      · rfl
      · simp [readCell, Ne.symm h]
    · split
      · rename_i e; subst e
        split
        · simp [readCell, Ne.symm h]
        · simp [readCell, Ne.symm h]
      · simp only [readCell, ih]

theorem readCell_below {m : List Cell} {lo a : Nat} (h : cellsFrom lo m = true) (ha : a < lo) :
    readCell m a = Config.unlistedByte := by
  induction m generalizing lo with
  | nil => rfl
  | cons c rest ih =>
    obtain ⟨k, w⟩ := c
    simp only [cellsFrom, Bool.and_eq_true, decide_eq_true_eq] at h
    rw [readCell, if_neg (by omega)]
    exact ih h.2 (by omega)

theorem readCell_writeCell_same {m : List Cell} {lo : Nat} (h : cellsFrom lo m = true) (a : Nat)
    (v : Byte) : readCell (writeCell m a v) a = v := by
  induction m generalizing lo with
  | nil =>
    unfold writeCell
    split
    · rename_i e; simp [readCell, e]
    · simp [readCell]
  | cons c rest ih =>
    obtain ⟨k, w⟩ := c
    simp only [cellsFrom, Bool.and_eq_true, decide_eq_true_eq] at h
    unfold writeCell
    split
    · split
      · rename_i e
        rw [readCell, if_neg (by omega), readCell_below h.2 (by omega), e]
      · simp [readCell]
    · split
      · rename_i e; subst e
        split
        · rename_i e; rw [readCell_below h.2 (by omega), e]
        · simp [readCell]
      · rw [readCell, if_neg (by omega), ih h.2]

theorem cellsFrom_mono {m : List Cell} {lo lo' : Nat} (h : cellsFrom lo m = true) (hl : lo' ≤ lo) :
    cellsFrom lo' m = true := by
  cases m with
  | nil => rfl
  | cons c rest =>
    simp only [cellsFrom, Bool.and_eq_true, decide_eq_true_eq] at h ⊢
    exact ⟨⟨⟨by omega, h.1.1.2⟩, h.1.2⟩, h.2⟩

theorem cellsFrom_writeCell {m : List Cell} {lo a : Nat} (h : cellsFrom lo m = true) (hl : lo ≤ a)
    (ha : a < Config.addressSpace) (v : Byte) : cellsFrom lo (writeCell m a v) = true := by
  induction m generalizing lo with
  | nil =>
    unfold writeCell
    split
    · rfl
    · rename_i e; simp [cellsFrom, hl, ha, e]
  | cons c rest ih =>
    obtain ⟨k, w⟩ := c
    have h' := h
    simp only [cellsFrom, Bool.and_eq_true, decide_eq_true_eq] at h
    unfold writeCell
    split
    · split
      · exact h'
      · rename_i hk e
        simp only [cellsFrom, Bool.and_eq_true, decide_eq_true_eq]
        exact ⟨⟨⟨hl, ha⟩, e⟩, ⟨⟨by omega, h.1.1.2⟩, h.1.2⟩, h.2⟩
    · split
      · rename_i e; subst e
        split
        · exact cellsFrom_mono h.2 (by omega)
        · rename_i e
          simp only [cellsFrom, Bool.and_eq_true, decide_eq_true_eq]
          exact ⟨⟨⟨hl, ha⟩, e⟩, h.2⟩
      · simp only [cellsFrom, Bool.and_eq_true, decide_eq_true_eq]
        exact ⟨h.1, ih h.2 (by omega)⟩

theorem wf_writeCell {m : List Cell} (h : Memory.wf m = true) (a : Dword) (v : Byte) :
    Memory.wf (writeCell m a.toNat v) = true :=
  cellsFrom_writeCell h (Nat.zero_le _) a.isLt v

/-- Two memories in canonical form that read alike from `lo` on are the same data. -/
theorem cells_ext {m m' : List Cell} {lo : Nat} (h : cellsFrom lo m = true)
    (h' : cellsFrom lo m' = true) (e : ∀ a, readCell m a = readCell m' a) : m = m' := by
  induction m generalizing lo m' with
  | nil =>
    cases m' with
    | nil => rfl
    | cons c rest =>
      obtain ⟨k, w⟩ := c
      simp only [cellsFrom, Bool.and_eq_true, decide_eq_true_eq] at h'
      exact absurd (by simpa [readCell] using (e k).symm) h'.1.2
  | cons c rest ih =>
    obtain ⟨k, w⟩ := c
    have hc := h
    simp only [cellsFrom, Bool.and_eq_true, decide_eq_true_eq] at h
    cases m' with
    | nil => exact absurd (by simpa [readCell] using e k) h.1.2
    | cons c' rest' =>
      obtain ⟨k', w'⟩ := c'
      have hc' := h'
      simp only [cellsFrom, Bool.and_eq_true, decide_eq_true_eq] at h'
      have ek : k = k' := by
        rcases Nat.lt_trichotomy k k' with l | l | l
        · have := e k
          simp only [readCell, if_true] at this
          rw [if_neg (by omega), readCell_below h'.2 (by omega)] at this
          exact absurd this h.1.2
        · exact l
        · have := e k'
          simp only [readCell, if_true] at this
          rw [if_neg (by omega), readCell_below h.2 (by omega)] at this
          exact absurd this.symm h'.1.2
      subst ek
      have ew : w = w' := by simpa [readCell] using e k
      subst ew
      rw [ih h.2 h'.2 fun a => ?_]
      by_cases ha : a = k
      · subst ha; rw [readCell_below h.2 (by omega), readCell_below h'.2 (by omega)]
      · have := e a
        simpa [readCell, Ne.symm ha] using this

/-! ## Several bytes -/

theorem mem_operandBytes {a b : Dword} {n : Nat} :
    b ∈ operandBytes a n ↔ ∃ k, k < n ∧ b = a + BitVec.ofNat 32 k := by
  induction n generalizing a with
  | zero => simp [operandBytes]
  | succ n ih =>
    simp only [operandBytes, List.mem_cons, ih]
    have step : ∀ k, a + 1 + BitVec.ofNat 32 k = a + BitVec.ofNat 32 (k + 1) := fun k => by
      apply BitVec.eq_of_toNat_eq; simp; omega
    constructor
    · rintro (rfl | ⟨k, hk, rfl⟩)
      · exact ⟨0, by omega, by simp⟩
      · exact ⟨k + 1, by omega, step k⟩
    · rintro ⟨k, hk, rfl⟩
      cases k with
      | zero => exact .inl (by simp)
      | succ k => exact .inr ⟨k, by omega, (step k).symm⟩

theorem wf_writeCells {m : List Cell} (h : Memory.wf m = true) (a : Dword) (bs : List Byte) :
    Memory.wf (writeCells m a bs) = true := by
  induction bs generalizing m a with
  | nil => exact h
  | cons b bs ih => exact ih (wf_writeCell h a b) (a + 1)

theorem readCell_writeCells_other (m : List Cell) (a b : Dword) (bs : List Byte)
    (h : b ∉ operandBytes a bs.length) :
    readCell (writeCells m a bs) b.toNat = readCell m b.toNat := by
  induction bs generalizing m a with
  | nil => rfl
  | cons c bs ih =>
    simp only [List.length_cons, operandBytes, List.mem_cons, not_or] at h
    rw [writeCells, ih _ _ h.2, readCell_writeCell_other]
    exact fun e => h.1 (BitVec.eq_of_toNat_eq e)

theorem readCell_writeCells_same {m : List Cell} (hm : Memory.wf m = true) (a : Dword)
    (bs : List Byte) (hl : bs.length ≤ Config.addressSpace) (k : Nat) (hk : k < bs.length) :
    readCell (writeCells m a bs) (a + BitVec.ofNat 32 k).toNat = bs[k] := by
  induction bs generalizing m a k with
  | nil => simp at hk
  | cons c bs ih =>
    simp only [List.length_cons] at hk hl
    cases k with
    | zero =>
      have n : a ∉ operandBytes (a + 1) bs.length := by
        rw [mem_operandBytes]
        rintro ⟨j, hj, e⟩
        have := congrArg BitVec.toNat e
        have := a.isLt
        have one : BitVec.toNat (1 : Dword) = 1 := rfl
        simp only [BitVec.toNat_add, BitVec.toNat_ofNat, Config.addressSpace] at *
        omega
      have e : a + BitVec.ofNat 32 0 = a := by simp
      rw [e, writeCells, readCell_writeCells_other _ _ _ _ n]
      exact readCell_writeCell_same hm _ _
    | succ k =>
      have e : a + BitVec.ofNat 32 (k + 1) = a + 1 + BitVec.ofNat 32 k := by
        apply BitVec.eq_of_toNat_eq; simp; omega
      rw [e, writeCells]
      simpa using ih (wf_writeCell hm a c) (a + 1) (by omega) k (by omega)

end Sys2Proof.Machine
end

