-- ==== Sys2Proof/Laws/State.lean ====
section
/-! SUPPORT. One lemma per field per state update (true by `rfl` where the update is a record update),
so that no proof unfolds an update of the state. -/

namespace Sys2Proof.Machine

variable (s : State) (i : RegNum) (v : Quad) (w : Dword) (n : Nat)

/-! ## Writing an MMX register -/

@[simp] theorem writeMm_tag : (s.writeMm i v).tag = s.tag := rfl
@[simp] theorem writeMm_fsw : (s.writeMm i v).fsw = s.fsw := rfl
@[simp] theorem writeMm_gpr : (s.writeMm i v).gpr = s.gpr := rfl
@[simp] theorem writeMm_eip : (s.writeMm i v).eip = s.eip := rfl
@[simp] theorem writeMm_eflags : (s.writeMm i v).eflags = s.eflags := rfl
@[simp] theorem writeMm_cr0 : (s.writeMm i v).cr0 = s.cr0 := rfl
@[simp] theorem writeMm_cr4 : (s.writeMm i v).cr4 = s.cr4 := rfl
@[simp] theorem writeMm_cpl : (s.writeMm i v).cpl = s.cpl := rfl
@[simp] theorem writeMm_segBase : (s.writeMm i v).segBase = s.segBase := rfl
@[simp] theorem writeMm_mode : (s.writeMm i v).mode = s.mode := rfl
@[simp] theorem writeMm_mem : (s.writeMm i v).mem = s.mem := rfl
@[simp] theorem writeMm_launch : (s.writeMm i v).launch = s.launch := rfl

theorem x87Reg_writeMm (j : RegNum) :
    (s.writeMm i v).x87Reg j = if i = j then s.topAfterWrite i ++ v else s.x87Reg j := by
  simp [State.x87Reg, State.writeMm, Vector.getElem_set, BitVec.toNat_inj]

@[simp] theorem x87Reg_writeMm_same : (s.writeMm i v).x87Reg i = s.topAfterWrite i ++ v := by
  simp [x87Reg_writeMm]

theorem x87Reg_writeMm_other {j : RegNum} (h : j ≠ i) : (s.writeMm i v).x87Reg j = s.x87Reg j := by
  simp [x87Reg_writeMm, Ne.symm h]

theorem low_of_append (t : BitVec 16) (q : Quad) : (t ++ q : BitVec 80).extractLsb' 0 64 = q :=
  (BitVec.extractLsb'_append_eq_of_add_le (xhi := t) (by omega)).trans BitVec.extractLsb'_eq_self

theorem high_of_append (t : BitVec 16) (q : Quad) : (t ++ q : BitVec 80).extractLsb' 64 16 = t :=
  (BitVec.extractLsb'_append_eq_of_le (xlo := q) (by omega)).trans BitVec.extractLsb'_eq_self

@[simp] theorem mm_writeMm_same : (s.writeMm i v).mm i = v := by
  simp [State.mm, low_of_append]

@[simp] theorem x87Top_writeMm_same : (s.writeMm i v).x87Top i = s.topAfterWrite i := by
  simp [State.x87Top, high_of_append]

theorem mm_writeMm_other {j : RegNum} (h : j ≠ i) : (s.writeMm i v).mm j = s.mm j := by
  simp [State.mm, x87Reg_writeMm_other s i v h]

theorem mm_writeMm (j : RegNum) : (s.writeMm i v).mm j = if i = j then v else s.mm j := by
  by_cases h : i = j
  · subst h; simp
  · simp [h, mm_writeMm_other s i v (Ne.symm h)]

/-! ## Writing a general register -/

@[simp] theorem writeReg_x87 : (s.writeReg i w).x87 = s.x87 := rfl
@[simp] theorem writeReg_tag : (s.writeReg i w).tag = s.tag := rfl
@[simp] theorem writeReg_fsw : (s.writeReg i w).fsw = s.fsw := rfl
@[simp] theorem writeReg_eip : (s.writeReg i w).eip = s.eip := rfl
@[simp] theorem writeReg_eflags : (s.writeReg i w).eflags = s.eflags := rfl
@[simp] theorem writeReg_cr0 : (s.writeReg i w).cr0 = s.cr0 := rfl
@[simp] theorem writeReg_cr4 : (s.writeReg i w).cr4 = s.cr4 := rfl
@[simp] theorem writeReg_cpl : (s.writeReg i w).cpl = s.cpl := rfl
@[simp] theorem writeReg_segBase : (s.writeReg i w).segBase = s.segBase := rfl
@[simp] theorem writeReg_mode : (s.writeReg i w).mode = s.mode := rfl
@[simp] theorem writeReg_mem : (s.writeReg i w).mem = s.mem := rfl
@[simp] theorem writeReg_launch : (s.writeReg i w).launch = s.launch := rfl

theorem reg_writeReg (j : RegNum) :
    (s.writeReg i w).reg j = if i = j then w else s.reg j := by
  simp [State.reg, State.writeReg, Vector.getElem_set, BitVec.toNat_inj]

/-! ## `MMXTouch()` -/

@[simp] theorem touch_x87 : s.touch.x87 = s.x87 := by unfold State.touch; split <;> rfl
@[simp] theorem touch_gpr : s.touch.gpr = s.gpr := by unfold State.touch; split <;> rfl
@[simp] theorem touch_eip : s.touch.eip = s.eip := by unfold State.touch; split <;> rfl
@[simp] theorem touch_eflags : s.touch.eflags = s.eflags := by unfold State.touch; split <;> rfl
@[simp] theorem touch_cr0 : s.touch.cr0 = s.cr0 := by unfold State.touch; split <;> rfl
@[simp] theorem touch_cr4 : s.touch.cr4 = s.cr4 := by unfold State.touch; split <;> rfl
@[simp] theorem touch_cpl : s.touch.cpl = s.cpl := by unfold State.touch; split <;> rfl
@[simp] theorem touch_segBase : s.touch.segBase = s.segBase := by unfold State.touch; split <;> rfl
@[simp] theorem touch_mode : s.touch.mode = s.mode := by unfold State.touch; split <;> rfl
@[simp] theorem touch_mem : s.touch.mem = s.mem := by unfold State.touch; split <;> rfl
@[simp] theorem touch_launch : s.touch.launch = s.launch := by unfold State.touch; split <;> rfl

theorem touch_tag : s.touch.tag = if s.launch.modelX87Alias then 0x0000 else s.tag := by
  unfold State.touch; split <;> simp [tagAllValid]

theorem touch_fsw :
    s.touch.fsw = if s.launch.modelX87Alias then setTos s.fsw 0 else s.fsw := by
  unfold State.touch; split <;> simp

/-! ## What `EMMS` does to the x87 state -/

@[simp] theorem empty_x87 : s.empty.x87 = s.x87 := by unfold State.empty; split <;> rfl
@[simp] theorem empty_gpr : s.empty.gpr = s.gpr := by unfold State.empty; split <;> rfl
@[simp] theorem empty_eip : s.empty.eip = s.eip := by unfold State.empty; split <;> rfl
@[simp] theorem empty_eflags : s.empty.eflags = s.eflags := by unfold State.empty; split <;> rfl
@[simp] theorem empty_cr0 : s.empty.cr0 = s.cr0 := by unfold State.empty; split <;> rfl
@[simp] theorem empty_cr4 : s.empty.cr4 = s.cr4 := by unfold State.empty; split <;> rfl
@[simp] theorem empty_cpl : s.empty.cpl = s.cpl := by unfold State.empty; split <;> rfl
@[simp] theorem empty_segBase : s.empty.segBase = s.segBase := by unfold State.empty; split <;> rfl
@[simp] theorem empty_mode : s.empty.mode = s.mode := by unfold State.empty; split <;> rfl
@[simp] theorem empty_mem : s.empty.mem = s.mem := by unfold State.empty; split <;> rfl
@[simp] theorem empty_launch : s.empty.launch = s.launch := by unfold State.empty; split <;> rfl

theorem empty_tag : s.empty.tag = if s.launch.modelX87Alias then 0xFFFF else s.tag := by
  unfold State.empty; split <;> simp [tagAllEmpty]

theorem empty_fsw :
    s.empty.fsw =
      if s.launch.modelX87Alias && s.launch.emmsTosZero then setTos s.fsw 0 else s.fsw := by
  unfold State.empty; split <;> simp_all

/-! ## Advancing the program counter -/

@[simp] theorem advance_x87 : (s.advance n).x87 = s.x87 := rfl
@[simp] theorem advance_tag : (s.advance n).tag = s.tag := rfl
@[simp] theorem advance_fsw : (s.advance n).fsw = s.fsw := rfl
@[simp] theorem advance_gpr : (s.advance n).gpr = s.gpr := rfl
@[simp] theorem advance_eip : (s.advance n).eip = s.eip + BitVec.ofNat 32 n := rfl
@[simp] theorem advance_eflags : (s.advance n).eflags = s.eflags := rfl
@[simp] theorem advance_cr0 : (s.advance n).cr0 = s.cr0 := rfl
@[simp] theorem advance_cr4 : (s.advance n).cr4 = s.cr4 := rfl
@[simp] theorem advance_cpl : (s.advance n).cpl = s.cpl := rfl
@[simp] theorem advance_segBase : (s.advance n).segBase = s.segBase := rfl
@[simp] theorem advance_mode : (s.advance n).mode = s.mode := rfl
@[simp] theorem advance_mem : (s.advance n).mem = s.mem := rfl
@[simp] theorem advance_launch : (s.advance n).launch = s.launch := rfl

/-! ## Completing an instruction -/

@[simp] theorem complete_x87 : (s.complete n).x87 = s.x87 := by simp [State.complete]
@[simp] theorem complete_gpr : (s.complete n).gpr = s.gpr := by simp [State.complete]
@[simp] theorem complete_eip : (s.complete n).eip = s.eip + BitVec.ofNat 32 n := by
  simp [State.complete]
@[simp] theorem complete_eflags : (s.complete n).eflags = s.eflags := by simp [State.complete]
@[simp] theorem complete_cr0 : (s.complete n).cr0 = s.cr0 := by simp [State.complete]
@[simp] theorem complete_cr4 : (s.complete n).cr4 = s.cr4 := by simp [State.complete]
@[simp] theorem complete_cpl : (s.complete n).cpl = s.cpl := by simp [State.complete]
@[simp] theorem complete_segBase : (s.complete n).segBase = s.segBase := by simp [State.complete]
@[simp] theorem complete_mode : (s.complete n).mode = s.mode := by simp [State.complete]
@[simp] theorem complete_mem : (s.complete n).mem = s.mem := by simp [State.complete]
@[simp] theorem complete_launch : (s.complete n).launch = s.launch := by simp [State.complete]

theorem complete_tag :
    (s.complete n).tag = if s.launch.modelX87Alias then 0x0000 else s.tag := by
  simp [State.complete, touch_tag]

theorem complete_fsw :
    (s.complete n).fsw = if s.launch.modelX87Alias then setTos s.fsw 0 else s.fsw := by
  simp [State.complete, touch_fsw]

@[simp] theorem complete_x87Reg : (s.complete n).x87Reg i = s.x87Reg i := by simp [State.x87Reg]
@[simp] theorem complete_mm : (s.complete n).mm i = s.mm i := by simp [State.mm]
@[simp] theorem complete_x87Top : (s.complete n).x87Top i = s.x87Top i := by simp [State.x87Top]
@[simp] theorem complete_reg : (s.complete n).reg i = s.reg i := by simp [State.reg]
@[simp] theorem complete_byteAt (a : Dword) : (s.complete n).byteAt a = s.byteAt a := by
  simp [State.byteAt]

/-! ## The `TOS` field of the status word -/

theorem getLsbD_setTos (f : BitVec 16) (t : BitVec 3) (k : Nat) :
    (setTos f t).getLsbD k =
      if k < 11 then f.getLsbD k else if k < 14 then t.getLsbD (k - 11) else f.getLsbD k := by
  change BitVec.getLsbD (w := 2 + 3 + 11)
    (BitVec.extractLsb' 14 2 f ++ t ++ BitVec.extractLsb' 0 11 f) k = _
  simp only [BitVec.getLsbD_append, BitVec.getLsbD_extractLsb']
  by_cases h1 : k < 11
  · simp [h1]
  · by_cases h2 : k < 14
    · simp [h1, h2, show k - 11 < 3 by omega]
    · by_cases h3 : k < 16
      · simp [h1, h2, show ¬ k - 11 < 3 by omega, show k - 11 - 3 < 2 by omega,
          show 14 + (k - 11 - 3) = k by omega]
      · simp [h1, h2, show ¬ k - 11 < 3 by omega, show ¬ k - 11 - 3 < 2 by omega,
          BitVec.getLsbD_of_ge f k (by omega)]

theorem setTos_tos (f : BitVec 16) (t : BitVec 3) : (setTos f t).extractLsb' 11 3 = t := by
  apply BitVec.eq_of_getLsbD_eq
  intro k hk
  simp only [BitVec.getLsbD_extractLsb', getLsbD_setTos, hk, decide_true, Bool.true_and,
    show ¬ 11 + k < 11 by omega, show 11 + k < 14 by omega, if_false, if_true,
    Nat.add_sub_cancel_left]

theorem setTos_rest (f : BitVec 16) (t : BitVec 3) (k : Nat) (h : k < 11 ∨ 13 < k) :
    (setTos f t).getLsbD k = f.getLsbD k := by
  rw [getLsbD_setTos]
  split
  · rfl
  · rw [if_neg (by omega)]

theorem setTos_idem (f : BitVec 16) (t u : BitVec 3) : setTos (setTos f t) u = setTos f u := by
  apply BitVec.eq_of_getLsbD_eq
  intro k _
  simp only [getLsbD_setTos]
  split
  · rfl
  · split <;> rfl

end Sys2Proof.Machine
end

