-- ==== Sys2Proof/Laws/Ops.lean ====
section
/-! SUPPORT. One lemma for each shared operation, saying once all that it can do. -/

namespace Sys2Proof.Machine

/-! ## `MMXCheck()` (R266) -/

/-- All that `MMXCheck()` can answer, in the order of R269. -/
theorem mmxCheck_cases (s : State) :
    (mmxCheck s = some .invalidOpcode ∧ (s.launch.hasMmx = false ∨ s.em = true)) ∨
    (mmxCheck s = some .deviceNotAvailable ∧ s.launch.hasMmx = true ∧ s.em = false ∧ s.ts = true) ∨
    (mmxCheck s = some .x87Error ∧ s.launch.hasMmx = true ∧ s.em = false ∧ s.ts = false ∧
      s.x87Pending = true) ∨
    (mmxCheck s = none ∧ s.launch.hasMmx = true ∧ s.em = false ∧ s.ts = false ∧
      s.x87Pending = false) := by
  unfold mmxCheck
  cases s.launch.hasMmx <;> cases s.em <;> cases s.ts <;> cases s.x87Pending <;> simp

theorem ready_iff (s : State) :
    Ready s ↔ s.launch.hasMmx = true ∧ s.em = false ∧ s.ts = false ∧ s.x87Pending = false := by
  unfold Ready mmxCheck
  cases s.launch.hasMmx <;> cases s.em <;> cases s.ts <;> cases s.x87Pending <;> simp

/-! ## Completing an instruction: the frames -/

theorem sameStatusRest_of_fsw {s t : State}
    (h : t.fsw = if s.launch.modelX87Alias then setTos s.fsw 0 else s.fsw) : SameStatusRest s t := by
  intro k hk
  rw [h]
  split
  · exact setTos_rest _ _ _ hk
  · rfl

/-- `MMXTouch(); pc <- pc + len` after an update `u` that keeps the status word, the tag word, the
control registers and the launch parameters of `s`. -/
theorem touched_complete {s u : State} (n : Nat) (ht : u.tag = s.tag) (hf : u.fsw = s.fsw)
    (hl : u.launch = s.launch) : Touched s (u.complete n) where
  tag := by rw [complete_tag, ht, hl]
  tos := by
    unfold State.tos
    rw [complete_fsw, hl, hf]
    split
    · exact setTos_tos _ _
    · rfl
  rest := sameStatusRest_of_fsw (by rw [complete_fsw, hl, hf])

theorem sameSystem_refl (s : State) : SameSystem s s := ⟨rfl, rfl, rfl, rfl, rfl, rfl, rfl⟩

/-- Writing `MM[d]` and completing writes `MM[d]` and nothing else. -/
theorem writesMm_complete (s : State) (d : RegNum) (v : Quad) (n : Nat) :
    WritesMm s ((s.writeMm d v).complete n) d n where
  top := by simp [State.topAfterWrite]
  others := fun i hi => by rw [complete_x87Reg, x87Reg_writeMm_other s d v hi]
  general := fun g => by simp [State.reg]
  memory := fun a => by simp [State.byteAt]
  system := ⟨by simp, by simp, by simp, by simp, by simp, by simp, by simp⟩
  touched := touched_complete n rfl rfl rfl
  eip := by simp

/-- Writing `x[d]` and completing writes `x[d]` and nothing else. -/
theorem writesGeneral_complete (s : State) (d : RegNum) (w : Dword) (n : Nat) :
    WritesGeneral s ((s.writeReg d w).complete n) d n where
  x87 := fun i => by simp [State.x87Reg]
  others := fun g hg => by rw [complete_reg, reg_writeReg, if_neg (Ne.symm hg)]
  memory := fun a => by simp [State.byteAt]
  system := ⟨by simp, by simp, by simp, by simp, by simp, by simp, by simp⟩
  touched := touched_complete n rfl rfl rfl
  eip := by simp

/-- Storing bytes and completing stores those bytes and nothing else. -/
theorem writesMemory_complete (s : State) (a : Dword) (bs : List Byte) (n : Nat) :
    WritesMemory s (({ s with mem := writeCells s.mem a bs } : State).complete n) a bs.length n where
  x87 := fun i => by simp [State.x87Reg]
  general := fun g => by simp [State.reg]
  memory := fun b hb => by
    rw [complete_byteAt]
    refine readCell_writeCells_other _ _ _ _ fun hm => ?_
    obtain ⟨k, hk, e⟩ := mem_operandBytes.mp hm
    exact hb k hk e
  system := ⟨by simp, by simp, by simp, by simp, by simp, by simp, by simp⟩
  touched := touched_complete n rfl rfl rfl
  eip := by simp

/-! ## Memory admission (R57) -/

theorem AddrRange.has_iff {r : AddrRange} {x : Nat} : r.has x = true ↔ r.lo ≤ x ∧ x < r.hi := by
  simp only [AddrRange.has, Bool.and_eq_true, decide_eq_true_eq]

theorem Denial.applies_iff {d : Denial} {seg : Seg} {kind : AccessKind} {s : State} :
    d.applies seg kind s = true ↔ d.Speaks seg kind s := by
  simp only [Denial.applies, Denial.Speaks, State.user]
  cases d.seg <;> cases d.kind <;> cases d.onlyUser <;> simp [and_assoc]

/-- The first denied byte is a byte of the operand in the range of a denial that speaks of the access. -/
theorem Denial.firstByte_some {d : Denial} {seg : Seg} {a : Dword} {n : Nat} {kind : AccessKind}
    {s : State} {k : Nat} (h : d.firstByte seg a n kind s = some k) :
    d.Speaks seg kind s ∧ k < n ∧ d.range.lo ≤ (a + BitVec.ofNat 32 k).toNat ∧
      (a + BitVec.ofNat 32 k).toNat < d.range.hi := by
  unfold Denial.firstByte at h
  split at h
  · rename_i ha
    have hr := List.find?_some h
    exact ⟨Denial.applies_iff.mp ha, List.mem_range.mp (List.mem_of_find?_eq_some h),
      AddrRange.has_iff.mp hr⟩
  · cases h

/-- A denial denies a byte of the operand exactly if it speaks of the access and covers one. -/
theorem Denial.firstByte_isSome {d : Denial} {seg : Seg} {a : Dword} {n : Nat} {kind : AccessKind}
    {s : State} : (d.firstByte seg a n kind s).isSome = true ↔ d.Speaks seg kind s ∧ d.Covers a n := by
  refine ⟨fun h => ?_, fun ⟨hs, k, hk, hr⟩ => ?_⟩
  · obtain ⟨k, hk⟩ := Option.isSome_iff_exists.mp h
    obtain ⟨hs, hr⟩ := Denial.firstByte_some hk
    exact ⟨hs, k, hr⟩
  · rw [Denial.firstByte, if_pos (Denial.applies_iff.mpr hs), List.find?_isSome]
    exact ⟨k, List.mem_range.mpr hk, AddrRange.has_iff.mpr hr⟩

theorem Denial.pageVerdict_some {d : Denial} {seg : Seg} {a : Dword} {n : Nat} {kind : AccessKind}
    {s : State} {v : Verdict} (h : d.pageVerdict seg a n kind s = some v) :
    ∃ present rsvd k, d.cause = .page present rsvd ∧ d.firstByte seg a n kind s = some k ∧
      v = .page present rsvd k := by
  unfold Denial.pageVerdict at h
  split at h
  · cases h
  · rename_i present rsvd hc
    obtain ⟨k, hk, rfl⟩ := Option.map_eq_some_iff.mp h
    exact ⟨present, rsvd, k, hc, hk, rfl⟩

theorem segmentDenied_iff {seg : Seg} {a : Dword} {n : Nat} {kind : AccessKind} {s : State} :
    segmentDenied seg a n kind s = true ↔
      (Config.addressSpace < a.toNat + n ∧ s.launch.admitWrap = false) ∨
      ∃ d ∈ s.launch.denials, d.cause = .segment ∧ d.Speaks seg kind s ∧ d.Covers a n := by
  simp only [segmentDenied, passesTop, Bool.or_eq_true, Bool.and_eq_true, decide_eq_true_eq,
    Bool.not_eq_true', List.any_eq_true, beq_iff_eq, Denial.firstByte_isSome]

/-- All that the denials can answer for an operand. -/
theorem denialsVerdict_cases (seg : Seg) (a : Dword) (n : Nat) (kind : AccessKind) (s : State) :
    (segmentDenied seg a n kind s = true ∧ denialsVerdict seg a n kind s = .segment) ∨
    (segmentDenied seg a n kind s = false ∧ ∃ d ∈ s.launch.denials, ∃ present rsvd k,
      d.cause = .page present rsvd ∧ d.firstByte seg a n kind s = some k ∧
        denialsVerdict seg a n kind s = .page present rsvd k) ∨
    (segmentDenied seg a n kind s = false ∧
      (∀ d ∈ s.launch.denials, ∀ present rsvd, d.cause = .page present rsvd →
        d.firstByte seg a n kind s = none) ∧ denialsVerdict seg a n kind s = .pass) := by
  unfold denialsVerdict
  cases segmentDenied seg a n kind s with
  | true => exact .inl ⟨rfl, rfl⟩
  | false =>
    cases hf : s.launch.denials.findSome? fun d => d.pageVerdict seg a n kind s with
    | some v =>
      obtain ⟨d, hd, hv⟩ := List.exists_of_findSome?_eq_some hf
      obtain ⟨present, rsvd, k, hc, hk, rfl⟩ := Denial.pageVerdict_some hv
      exact .inr (.inl ⟨rfl, d, hd, present, rsvd, k, hc, hk, by simp⟩)
    | none =>
      refine .inr (.inr ⟨rfl, fun d hd present rsvd hc => ?_, by simp⟩)
      have := List.findSome?_eq_none_iff.mp hf d hd
      simpa [Denial.pageVerdict, hc] using this

/-- Where no ruling speaks, the denials decide. -/
theorem verdictOf_noRuling {seg : Seg} {a : Dword} {n : Nat} {kind : AccessKind} {s : State}
    (h : NoRuling s seg a n kind) : verdictOf seg a n kind s = denialsVerdict seg a n kind s := by
  have : (s.launch.rulings.find? fun r => r.applies seg a n kind) = none := by
    simpa [NoRuling, List.find?_eq_none] using h
  rw [verdictOf, this]

/-- A verdict is a ruling's that speaks of the operand, or no ruling speaks and it is the denials'. -/
theorem verdictOf_cases (seg : Seg) (a : Dword) (n : Nat) (kind : AccessKind) (s : State) :
    (∃ r ∈ s.launch.rulings, r.applies seg a n kind = true ∧
      verdictOf seg a n kind s = r.verdict) ∨
    (NoRuling s seg a n kind ∧ verdictOf seg a n kind s = denialsVerdict seg a n kind s) := by
  cases h : s.launch.rulings.find? fun r => r.applies seg a n kind with
  | some r =>
    exact .inl ⟨r, List.mem_of_find?_eq_some h,
      List.find?_some (p := fun r : Ruling => r.applies seg a n kind) h, by rw [verdictOf, h]⟩
  | none =>
    have hn : NoRuling s seg a n kind := by simpa [NoRuling, List.find?_eq_none] using h
    exact .inr ⟨hn, verdictOf_noRuling hn⟩

/-- The ruling that speaks of one operand only. -/
def Ruling.point (v : Seg → Dword → Nat → AccessKind → Verdict) (g : Seg) (kind : AccessKind)
    (n x : Nat) : Ruling :=
  ⟨some g, some kind, some n, ⟨x, x + 1⟩, v g (BitVec.ofNat 32 x) n kind⟩

theorem Ruling.point_applies {v : Seg → Dword → Nat → AccessKind → Verdict} {g seg : Seg}
    {k kind : AccessKind} {m n x : Nat} {a : Dword} :
    (Ruling.point v g k m x).applies seg a n kind = true ↔
      g = seg ∧ k = kind ∧ m = n ∧ x = a.toNat := by
  simp only [Ruling.applies, Ruling.point, AddrRange.has_iff, Bool.and_eq_true,
    Option.isNone_some, Bool.false_or, beq_iff_eq, Option.some.injEq, and_assoc]
  exact ⟨fun ⟨h1, h2, h3, h4, h5⟩ => ⟨h1, h2, h3, by omega⟩,
    fun ⟨h1, h2, h3, h4⟩ => ⟨h1, h2, h3, by omega, by omega⟩⟩

/-- The point rulings of the operands that begin below `bound`, as a list. -/
theorem exists_points (v : Seg → Dword → Nat → AccessKind → Verdict) (bound : Nat) :
    ∃ rs : List Ruling, (∀ r ∈ rs, ∃ g k n x, r = Ruling.point v g k n x) ∧
      ∀ g k n x, n = 4 ∨ n = 8 → x < bound → Ruling.point v g k n x ∈ rs := by
  refine ⟨[Seg.es, .cs, .ss, .ds, .fs, .gs].flatMap fun g =>
    [AccessKind.read, .write].flatMap fun k => [4, 8].flatMap fun n =>
      (List.range bound).map (Ruling.point v g k n), fun r hr => ?_, fun g k n x hn hx => ?_⟩
  · simp only [List.mem_flatMap, List.mem_map] at hr
    obtain ⟨g, _, k, _, n, _, x, _, rfl⟩ := hr
    exact ⟨g, k, n, x, rfl⟩
  · simp only [List.mem_flatMap, List.mem_map, List.mem_range]
    exact ⟨g, by cases g <;> decide, k, by cases k <;> decide, n,
      by rcases hn with rfl | rfl <;> decide, x, hx, rfl⟩

/-- Every function of segment, address, size and kind is what some rulings answer. -/
theorem exists_rulings (v : Seg → Dword → Nat → AccessKind → Verdict) :
    ∃ rs : List Ruling, ∀ (s : State), s.launch.rulings = rs → ∀ seg a n kind, n = 4 ∨ n = 8 →
      verdictOf seg a n kind s = v seg a n kind := by
  obtain ⟨rs, hp, hm⟩ := exists_points v Config.addressSpace
  refine ⟨rs, fun s hs seg a n kind hn => ?_⟩
  rcases verdictOf_cases seg a n kind s with ⟨r, hr, ha, e⟩ | ⟨hno, _⟩
  · obtain ⟨g, k, m, x, rfl⟩ := hp r (hs ▸ hr)
    obtain ⟨rfl, rfl, rfl, rfl⟩ := Ruling.point_applies.mp ha
    simpa [Ruling.point] using e
  · have := hno _ (hs ▸ hm seg kind n a.toNat hn a.isLt)
    rw [Ruling.point_applies.mpr ⟨rfl, rfl, rfl, rfl⟩] at this
    cases this

theorem segmentException_eq (seg : Seg) :
    segmentException seg = if seg = .ss then .stackFault else .generalProtection := by
  cases seg <;> rfl

/-! ## Memory access (R52) -/

theorem memRead64_ok {seg : Seg} {a : Dword} {s : State} {v : Quad} :
    memRead64 seg a s = .ok v ↔
      admission seg a 8 .read s = none ∧ (ofBytes fun k => s.byteAt (a + BitVec.ofNat 32 k)) = v := by
  unfold memRead64
  cases admission seg a 8 .read s <;> simp

theorem memRead32_ok {seg : Seg} {a : Dword} {s : State} {v : Dword} :
    memRead32 seg a s = .ok v ↔
      admission seg a 4 .read s = none ∧ (ofBytes32 fun k => s.byteAt (a + BitVec.ofNat 32 k)) = v := by
  unfold memRead32
  cases admission seg a 4 .read s <;> simp

/-- Byte `k` of a doubleword built from bytes. -/
theorem extract_ofBytes32 (f : Nat → Byte) {k : Nat} (h : k < 4) :
    (ofBytes32 f).extractLsb' (8 * k) 8 = f k := by
  change BitVec.extractLsb' (n := 8 + 8 + 8 + 8) (8 * k) 8 (f 3 ++ f 2 ++ f 1 ++ f 0) = f k
  match k, h with
  | 0, _ | 1, _ | 2, _ | 3, _ =>
    simp (disch := omega) only [BitVec.extractLsb'_append_eq_of_add_le,
      BitVec.extractLsb'_append_eq_of_le]
    exact BitVec.extractLsb'_eq_self

theorem memRead64_lanes {seg : Seg} {a : Dword} {s : State} {v : Quad}
    (h : memRead64 seg a s = .ok v) {k : Nat} (hk : k < 8) :
    byteLane v k = s.byteAt (a + BitVec.ofNat 32 k) := by
  obtain ⟨_, rfl⟩ := memRead64_ok.mp h
  exact byteLane_ofBytes _ hk

theorem memRead32_lanes {seg : Seg} {a : Dword} {s : State} {v : Dword}
    (h : memRead32 seg a s = .ok v) {k : Nat} (hk : k < 4) :
    v.extractLsb' (8 * k) 8 = s.byteAt (a + BitVec.ofNat 32 k) := by
  obtain ⟨_, rfl⟩ := memRead32_ok.mp h
  exact extract_ofBytes32 _ hk

theorem memRead32_error {seg : Seg} {a : Dword} {s : State} {x : Exception} :
    memRead32 seg a s = .error x ↔ admission seg a 4 .read s = some x := by
  unfold memRead32
  cases admission seg a 4 .read s <;> simp

theorem memRead64_error {seg : Seg} {a : Dword} {s : State} {x : Exception} :
    memRead64 seg a s = .error x ↔ admission seg a 8 .read s = some x := by
  unfold memRead64
  cases admission seg a 8 .read s <;> simp

theorem touchesCode_iff (s : State) (a : Dword) (n : Nat) :
    TouchesCode s a n ↔ ((operandBytes a n).any fun b => s.inCode b.toNat) = true := by
  simp only [List.any_eq_true, mem_operandBytes, TouchesCode]
  constructor
  · rintro ⟨k, hk, h⟩; exact ⟨_, ⟨k, hk, rfl⟩, h⟩
  · rintro ⟨b, ⟨k, hk, rfl⟩, h⟩; exact ⟨k, hk, h⟩

/-- All that `MemWrite` can answer. -/
theorem memWrite_cases (seg : Seg) (a : Dword) (bs : List Byte) (s : State) :
    (∃ x, admission seg a bs.length .write s = some x ∧ memWrite seg a bs s = raise x s) ∨
    (admission seg a bs.length .write s = none ∧ TouchesCode s a bs.length ∧
      memWrite seg a bs s = .refused .storeToCode) ∨
    (admission seg a bs.length .write s = none ∧ ¬ TouchesCode s a bs.length ∧
      memWrite seg a bs s = .next { s with mem := writeCells s.mem a bs }) := by
  unfold memWrite
  rw [touchesCode_iff]
  cases admission seg a bs.length .write s with
  | some x => exact .inl ⟨x, rfl, rfl⟩
  | none =>
    cases h : (operandBytes a bs.length).any fun b => s.inCode b.toNat with
    | true => exact .inr (.inl ⟨rfl, rfl, rfl⟩)
    | false => exact .inr (.inr ⟨rfl, by simp, rfl⟩)

/-! ## The bytes of a value -/

theorem getElem_bytesOfDword (w : Dword) {k : Nat} (h : k < (bytesOfDword w).length) :
    (bytesOfDword w)[k] = w.extractLsb' (8 * k) 8 := by
  have h' : k < 4 := h
  match k, h' with
  | 0, _ | 1, _ | 2, _ | 3, _ => rfl

theorem getElem_bytesOfQuad (v : Quad) {k : Nat} (h : k < (bytesOfQuad v).length) :
    (bytesOfQuad v)[k] = byteLane v k := by
  have h' : k < 8 := h
  match k, h' with
  | 0, _ | 1, _ | 2, _ | 3, _ | 4, _ | 5, _ | 6, _ | 7, _ => rfl

/-! ## What operands are computed from -/

/-- Equal in all that an operand is computed from: the MMX and general registers, memory, and what
admission depends on (R37, R57, R85, R95). -/
structure SameInputs (s s' : State) : Prop where
  mm : ∀ i, s'.mm i = s.mm i
  gpr : s'.gpr = s.gpr
  mem : s'.mem = s.mem
  rulings : s'.launch.rulings = s.launch.rulings
  denials : s'.launch.denials = s.launch.denials
  admitWrap : s'.launch.admitWrap = s.launch.admitWrap
  alignCheck : s'.alignCheck = s.alignCheck
  cpl : s'.cpl = s.cpl

variable {s s' : State}

theorem effAddr_inputs (h : s'.gpr = s.gpr) (m : MemOperand) : effAddr s' m = effAddr s m := by
  cases m <;> simp [effAddr, indexValue, State.reg, h]

/-- Admission depends on its arguments and the launch configuration (R57). -/
theorem admission_congr (hr : s'.launch.rulings = s.launch.rulings)
    (hd : s'.launch.denials = s.launch.denials) (hw : s'.launch.admitWrap = s.launch.admitWrap)
    (ha : s'.alignCheck = s.alignCheck) (hc : s'.cpl = s.cpl) (seg : Seg) (a : Dword) (n : Nat)
    (kind : AccessKind) : admission seg a n kind s' = admission seg a n kind s := by
  have hu : s'.user = s.user := by simp [State.user, hc]
  have hb : ∀ d : Denial, d.firstByte seg a n kind s' = d.firstByte seg a n kind s := fun d => by
    simp [Denial.firstByte, Denial.applies, hu]
  have hp : ∀ d : Denial, d.pageVerdict seg a n kind s' = d.pageVerdict seg a n kind s := fun d => by
    simp [Denial.pageVerdict, hb]
  have hv : verdictOf seg a n kind s' = verdictOf seg a n kind s := by
    simp [verdictOf, denialsVerdict, segmentDenied, hr, hd, hw, hb, hp]
  rw [admission, admission, hv]
  cases verdictOf seg a n kind s <;> simp [Verdict.exception, pageFaultCode, ha, hu]

theorem SameInputs.admission (h : SameInputs s s') (seg : Seg) (a : Dword) (n : Nat) (kind : AccessKind) :
    Machine.admission seg a n kind s' = Machine.admission seg a n kind s :=
  admission_congr h.rulings h.denials h.admitWrap h.alignCheck h.cpl seg a n kind

theorem SameInputs.effAddr (h : SameInputs s s') (m : MemOperand) :
    Machine.effAddr s' m = Machine.effAddr s m := effAddr_inputs h.gpr m

theorem memRead32_inputs (h : SameInputs s s') (seg : Seg) (a : Dword) :
    memRead32 seg a s' = memRead32 seg a s := by
  simp [memRead32, h.admission, State.byteAt, h.mem]

theorem memRead64_inputs (h : SameInputs s s') (seg : Seg) (a : Dword) :
    memRead64 seg a s' = memRead64 seg a s := by
  simp [memRead64, h.admission, State.byteAt, h.mem]

theorem src64_inputs (pre : Option Seg) (rm : RegMem) (h : SameInputs s s') :
    src64 pre rm s' = src64 pre rm s := by
  cases rm with
  | reg r => simp [src64, h.mm]
  | mem m => simp [src64, h.effAddr, memRead64_inputs h]

theorem src32L_inputs (pre : Option Seg) (rm : RegMem) (h : SameInputs s s') :
    src32L pre rm s' = src32L pre rm s := by
  cases rm with
  | reg r => simp [src32L, h.mm]
  | mem m => simp [src32L, h.effAddr, memRead32_inputs h]

theorem src32_inputs (pre : Option Seg) (rm : RegMem) (h : SameInputs s s') :
    src32 pre rm s' = src32 pre rm s := by
  cases rm with
  | reg r => simp [src32, State.reg, h.gpr]
  | mem m => simp [src32, h.effAddr, memRead32_inputs h]

end Sys2Proof.Machine
end

