-- ==== Sys2Proof/Laws/Shape.lean ====
section
/-! SUPPORT. Each instruction's meaning as an equation, and the shape of all of them: every row but
`MOVD r/m32, mm`, `MOVQ mm/m64, mm` and `EMMS` is one `toMm`. -/

namespace Sys2Proof.Machine

theorem exec_punpcklbw (pre : Option Seg) (reg : RegNum) (rm : RegMem) (s : State) :
    exec (.punpcklbw pre reg rm) s =
      toMm (src32L pre rm) reg (rmLength pre rm) (fun a b => interleaveBytes 0 a (b.zeroExtend 64)) s := rfl

theorem exec_punpcklwd (pre : Option Seg) (reg : RegNum) (rm : RegMem) (s : State) :
    exec (.punpcklwd pre reg rm) s =
      toMm (src32L pre rm) reg (rmLength pre rm) (fun a b => interleaveWords 0 a (b.zeroExtend 64)) s := rfl

theorem exec_punpckldq (pre : Option Seg) (reg : RegNum) (rm : RegMem) (s : State) :
    exec (.punpckldq pre reg rm) s =
      toMm (src32L pre rm) reg (rmLength pre rm) (fun a b => interleaveDwords 0 a (b.zeroExtend 64)) s := rfl

theorem exec_packsswb (pre : Option Seg) (reg : RegNum) (rm : RegMem) (s : State) :
    exec (.packsswb pre reg rm) s =
      toMm (src64 pre rm) reg (rmLength pre rm) (packWords fun w => satS 8 w.toInt) s := rfl

theorem exec_pcmpgtb (pre : Option Seg) (reg : RegNum) (rm : RegMem) (s : State) :
    exec (.pcmpgtb pre reg rm) s =
      toMm (src64 pre rm) reg (rmLength pre rm) (zipBytes cmpGt) s := rfl

theorem exec_pcmpgtw (pre : Option Seg) (reg : RegNum) (rm : RegMem) (s : State) :
    exec (.pcmpgtw pre reg rm) s =
      toMm (src64 pre rm) reg (rmLength pre rm) (zipWords cmpGt) s := rfl

theorem exec_pcmpgtd (pre : Option Seg) (reg : RegNum) (rm : RegMem) (s : State) :
    exec (.pcmpgtd pre reg rm) s =
      toMm (src64 pre rm) reg (rmLength pre rm) (zipDwords cmpGt) s := rfl

theorem exec_packuswb (pre : Option Seg) (reg : RegNum) (rm : RegMem) (s : State) :
    exec (.packuswb pre reg rm) s =
      toMm (src64 pre rm) reg (rmLength pre rm) (packWords fun w => satU 8 w.toInt) s := rfl

theorem exec_punpckhbw (pre : Option Seg) (reg : RegNum) (rm : RegMem) (s : State) :
    exec (.punpckhbw pre reg rm) s =
      toMm (src64 pre rm) reg (rmLength pre rm) (interleaveBytes 4) s := rfl

theorem exec_punpckhwd (pre : Option Seg) (reg : RegNum) (rm : RegMem) (s : State) :
    exec (.punpckhwd pre reg rm) s =
      toMm (src64 pre rm) reg (rmLength pre rm) (interleaveWords 2) s := rfl

theorem exec_punpckhdq (pre : Option Seg) (reg : RegNum) (rm : RegMem) (s : State) :
    exec (.punpckhdq pre reg rm) s =
      toMm (src64 pre rm) reg (rmLength pre rm) (interleaveDwords 1) s := rfl

theorem exec_packssdw (pre : Option Seg) (reg : RegNum) (rm : RegMem) (s : State) :
    exec (.packssdw pre reg rm) s =
      toMm (src64 pre rm) reg (rmLength pre rm) (packDwords fun w => satS 16 w.toInt) s := rfl

theorem exec_movdToMm (pre : Option Seg) (reg : RegNum) (rm : RegMem) (s : State) :
    exec (.movdToMm pre reg rm) s =
      toMm (src32 pre rm) reg (rmLength pre rm) (fun _ v => v.zeroExtend 64) s := rfl

theorem exec_movqToMm (pre : Option Seg) (reg : RegNum) (rm : RegMem) (s : State) :
    exec (.movqToMm pre reg rm) s =
      toMm (src64 pre rm) reg (rmLength pre rm) (fun _ v => v) s := rfl

theorem exec_psrlwImm (pre : Option Seg) (rm : RegNum) (imm : Byte) (s : State) :
    exec (.psrlwImm pre rm imm) s =
      toMm (fun _ => .ok imm) rm (shiLength pre) (fun a c => mapWords (shrLogical c.toNat) a) s := rfl

theorem exec_psrawImm (pre : Option Seg) (rm : RegNum) (imm : Byte) (s : State) :
    exec (.psrawImm pre rm imm) s =
      toMm (fun _ => .ok imm) rm (shiLength pre) (fun a c => mapWords (shrArith c.toNat) a) s := rfl

theorem exec_psllwImm (pre : Option Seg) (rm : RegNum) (imm : Byte) (s : State) :
    exec (.psllwImm pre rm imm) s =
      toMm (fun _ => .ok imm) rm (shiLength pre) (fun a c => mapWords (shl c.toNat) a) s := rfl

theorem exec_psrldImm (pre : Option Seg) (rm : RegNum) (imm : Byte) (s : State) :
    exec (.psrldImm pre rm imm) s =
      toMm (fun _ => .ok imm) rm (shiLength pre) (fun a c => mapDwords (shrLogical c.toNat) a) s := rfl

theorem exec_psradImm (pre : Option Seg) (rm : RegNum) (imm : Byte) (s : State) :
    exec (.psradImm pre rm imm) s =
      toMm (fun _ => .ok imm) rm (shiLength pre) (fun a c => mapDwords (shrArith c.toNat) a) s := rfl

theorem exec_pslldImm (pre : Option Seg) (rm : RegNum) (imm : Byte) (s : State) :
    exec (.pslldImm pre rm imm) s =
      toMm (fun _ => .ok imm) rm (shiLength pre) (fun a c => mapDwords (shl c.toNat) a) s := rfl

theorem exec_psrlqImm (pre : Option Seg) (rm : RegNum) (imm : Byte) (s : State) :
    exec (.psrlqImm pre rm imm) s =
      toMm (fun _ => .ok imm) rm (shiLength pre) (fun a c => shrLogical c.toNat a) s := rfl

theorem exec_psllqImm (pre : Option Seg) (rm : RegNum) (imm : Byte) (s : State) :
    exec (.psllqImm pre rm imm) s =
      toMm (fun _ => .ok imm) rm (shiLength pre) (fun a c => shl c.toNat a) s := rfl

theorem exec_pcmpeqb (pre : Option Seg) (reg : RegNum) (rm : RegMem) (s : State) :
    exec (.pcmpeqb pre reg rm) s =
      toMm (src64 pre rm) reg (rmLength pre rm) (zipBytes cmpEq) s := rfl

theorem exec_pcmpeqw (pre : Option Seg) (reg : RegNum) (rm : RegMem) (s : State) :
    exec (.pcmpeqw pre reg rm) s =
      toMm (src64 pre rm) reg (rmLength pre rm) (zipWords cmpEq) s := rfl

theorem exec_pcmpeqd (pre : Option Seg) (reg : RegNum) (rm : RegMem) (s : State) :
    exec (.pcmpeqd pre reg rm) s =
      toMm (src64 pre rm) reg (rmLength pre rm) (zipDwords cmpEq) s := rfl

theorem exec_psrlw (pre : Option Seg) (reg : RegNum) (rm : RegMem) (s : State) :
    exec (.psrlw pre reg rm) s =
      toMm (src64 pre rm) reg (rmLength pre rm) (fun a b => mapWords (shrLogical b.toNat) a) s := rfl

theorem exec_psrld (pre : Option Seg) (reg : RegNum) (rm : RegMem) (s : State) :
    exec (.psrld pre reg rm) s =
      toMm (src64 pre rm) reg (rmLength pre rm) (fun a b => mapDwords (shrLogical b.toNat) a) s := rfl

theorem exec_psrlq (pre : Option Seg) (reg : RegNum) (rm : RegMem) (s : State) :
    exec (.psrlq pre reg rm) s =
      toMm (src64 pre rm) reg (rmLength pre rm) (fun a b => shrLogical b.toNat a) s := rfl

theorem exec_pmullw (pre : Option Seg) (reg : RegNum) (rm : RegMem) (s : State) :
    exec (.pmullw pre reg rm) s =
      toMm (src64 pre rm) reg (rmLength pre rm) (zipWords mulLow) s := rfl

theorem exec_psubusb (pre : Option Seg) (reg : RegNum) (rm : RegMem) (s : State) :
    exec (.psubusb pre reg rm) s =
      toMm (src64 pre rm) reg (rmLength pre rm) (zipBytes subSatU) s := rfl

theorem exec_psubusw (pre : Option Seg) (reg : RegNum) (rm : RegMem) (s : State) :
    exec (.psubusw pre reg rm) s =
      toMm (src64 pre rm) reg (rmLength pre rm) (zipWords subSatU) s := rfl

theorem exec_pand (pre : Option Seg) (reg : RegNum) (rm : RegMem) (s : State) :
    exec (.pand pre reg rm) s =
      toMm (src64 pre rm) reg (rmLength pre rm) (fun a b => a &&& b) s := rfl

theorem exec_paddusb (pre : Option Seg) (reg : RegNum) (rm : RegMem) (s : State) :
    exec (.paddusb pre reg rm) s =
      toMm (src64 pre rm) reg (rmLength pre rm) (zipBytes addSatU) s := rfl

theorem exec_paddusw (pre : Option Seg) (reg : RegNum) (rm : RegMem) (s : State) :
    exec (.paddusw pre reg rm) s =
      toMm (src64 pre rm) reg (rmLength pre rm) (zipWords addSatU) s := rfl

theorem exec_pandn (pre : Option Seg) (reg : RegNum) (rm : RegMem) (s : State) :
    exec (.pandn pre reg rm) s =
      toMm (src64 pre rm) reg (rmLength pre rm) (fun a b => ~~~a &&& b) s := rfl

theorem exec_psraw (pre : Option Seg) (reg : RegNum) (rm : RegMem) (s : State) :
    exec (.psraw pre reg rm) s =
      toMm (src64 pre rm) reg (rmLength pre rm) (fun a b => mapWords (shrArith b.toNat) a) s := rfl

theorem exec_psrad (pre : Option Seg) (reg : RegNum) (rm : RegMem) (s : State) :
    exec (.psrad pre reg rm) s =
      toMm (src64 pre rm) reg (rmLength pre rm) (fun a b => mapDwords (shrArith b.toNat) a) s := rfl

theorem exec_pmulhw (pre : Option Seg) (reg : RegNum) (rm : RegMem) (s : State) :
    exec (.pmulhw pre reg rm) s =
      toMm (src64 pre rm) reg (rmLength pre rm) (zipWords mulHigh) s := rfl

theorem exec_psubsb (pre : Option Seg) (reg : RegNum) (rm : RegMem) (s : State) :
    exec (.psubsb pre reg rm) s =
      toMm (src64 pre rm) reg (rmLength pre rm) (zipBytes subSatS) s := rfl

theorem exec_psubsw (pre : Option Seg) (reg : RegNum) (rm : RegMem) (s : State) :
    exec (.psubsw pre reg rm) s =
      toMm (src64 pre rm) reg (rmLength pre rm) (zipWords subSatS) s := rfl

theorem exec_por (pre : Option Seg) (reg : RegNum) (rm : RegMem) (s : State) :
    exec (.por pre reg rm) s =
      toMm (src64 pre rm) reg (rmLength pre rm) (fun a b => a ||| b) s := rfl

theorem exec_paddsb (pre : Option Seg) (reg : RegNum) (rm : RegMem) (s : State) :
    exec (.paddsb pre reg rm) s =
      toMm (src64 pre rm) reg (rmLength pre rm) (zipBytes addSatS) s := rfl

theorem exec_paddsw (pre : Option Seg) (reg : RegNum) (rm : RegMem) (s : State) :
    exec (.paddsw pre reg rm) s =
      toMm (src64 pre rm) reg (rmLength pre rm) (zipWords addSatS) s := rfl

theorem exec_pxor (pre : Option Seg) (reg : RegNum) (rm : RegMem) (s : State) :
    exec (.pxor pre reg rm) s =
      toMm (src64 pre rm) reg (rmLength pre rm) (fun a b => a ^^^ b) s := rfl

theorem exec_psllw (pre : Option Seg) (reg : RegNum) (rm : RegMem) (s : State) :
    exec (.psllw pre reg rm) s =
      toMm (src64 pre rm) reg (rmLength pre rm) (fun a b => mapWords (shl b.toNat) a) s := rfl

theorem exec_pslld (pre : Option Seg) (reg : RegNum) (rm : RegMem) (s : State) :
    exec (.pslld pre reg rm) s =
      toMm (src64 pre rm) reg (rmLength pre rm) (fun a b => mapDwords (shl b.toNat) a) s := rfl

theorem exec_psllq (pre : Option Seg) (reg : RegNum) (rm : RegMem) (s : State) :
    exec (.psllq pre reg rm) s =
      toMm (src64 pre rm) reg (rmLength pre rm) (fun a b => shl b.toNat a) s := rfl

theorem exec_pmaddwd (pre : Option Seg) (reg : RegNum) (rm : RegMem) (s : State) :
    exec (.pmaddwd pre reg rm) s =
      toMm (src64 pre rm) reg (rmLength pre rm) (multiplyAdd) s := rfl

theorem exec_psubb (pre : Option Seg) (reg : RegNum) (rm : RegMem) (s : State) :
    exec (.psubb pre reg rm) s =
      toMm (src64 pre rm) reg (rmLength pre rm) (zipBytes subWrap) s := rfl

theorem exec_psubw (pre : Option Seg) (reg : RegNum) (rm : RegMem) (s : State) :
    exec (.psubw pre reg rm) s =
      toMm (src64 pre rm) reg (rmLength pre rm) (zipWords subWrap) s := rfl

theorem exec_psubd (pre : Option Seg) (reg : RegNum) (rm : RegMem) (s : State) :
    exec (.psubd pre reg rm) s =
      toMm (src64 pre rm) reg (rmLength pre rm) (zipDwords subWrap) s := rfl

theorem exec_paddb (pre : Option Seg) (reg : RegNum) (rm : RegMem) (s : State) :
    exec (.paddb pre reg rm) s =
      toMm (src64 pre rm) reg (rmLength pre rm) (zipBytes addWrap) s := rfl

theorem exec_paddw (pre : Option Seg) (reg : RegNum) (rm : RegMem) (s : State) :
    exec (.paddw pre reg rm) s =
      toMm (src64 pre rm) reg (rmLength pre rm) (zipWords addWrap) s := rfl

theorem exec_paddd (pre : Option Seg) (reg : RegNum) (rm : RegMem) (s : State) :
    exec (.paddd pre reg rm) s =
      toMm (src64 pre rm) reg (rmLength pre rm) (zipDwords addWrap) s := rfl

theorem exec_movqFromMm_reg (pre : Option Seg) (reg r : RegNum) (s : State) :
    exec (.movqFromMm pre reg (.reg r)) s =
      toMm (fun t => .ok (t.mm reg)) r (rmLength pre (.reg r)) (fun _ v => v) s := rfl

theorem exec_movqFromMm_mem (pre : Option Seg) (reg : RegNum) (m : MemOperand) (s : State) :
    exec (.movqFromMm pre reg (.mem m)) s =
      toMemory pre m (rmLength pre (.mem m)) (bytesOfQuad (s.mm reg)) s := rfl

theorem exec_movdFromMm_mem (pre : Option Seg) (reg : RegNum) (m : MemOperand) (s : State) :
    exec (.movdFromMm pre reg (.mem m)) s =
      toMemory pre m (rmLength pre (.mem m)) (bytesOfDword ((s.mm reg).extractLsb' 0 32)) s := rfl

/-- The bytes that the two stores store, and none for another instruction (R54). -/
def storedBytes (s : State) (i : Instr) : Option (Option Seg × MemOperand × List Byte) :=
  match i with
  | .movdFromMm pre reg (.mem m) => some (pre, m, bytesOfDword ((s.mm reg).extractLsb' 0 32))
  | .movqFromMm pre reg (.mem m) => some (pre, m, bytesOfQuad (s.mm reg))
  | _ => none

/-- The instruction computes a value from a source, which is a function of its inputs, and its
destination register (R10). -/
def Shape (i : Instr) : Prop :=
  ∃ (α : Type) (src : State → Except Exception α) (d : RegNum) (f : Quad → α → Quad),
    mmDest i = some d ∧ (∀ s, storedBytes s i = none) ∧
      (∀ {s s' : State}, SameInputs s s' → src s' = src s) ∧ ∀ s, exec i s = toMm src d i.length f s

/-- The three instructions of another shape: `MOVD` and `MOVQ` from a register, and `EMMS`. -/
inductive Special : Instr → Prop where
  | movdToReg (pre reg r) : Special (.movdFromMm pre reg (.reg r))
  | movdToMem (pre reg m) : Special (.movdFromMm pre reg (.mem m))
  | movqToMem (pre reg m) : Special (.movqFromMm pre reg (.mem m))
  | emms (pre) : Special (.emms pre)

theorem shape_or_special (i : Instr) : Shape i ∨ Special i :=
  match i with
  | .movdFromMm pre reg (.reg r) => .inr (.movdToReg pre reg r)
  | .movdFromMm pre reg (.mem m) => .inr (.movdToMem pre reg m)
  | .movqFromMm pre reg (.mem m) => .inr (.movqToMem pre reg m)
  | .movqFromMm _ reg (.reg r) =>
    .inl ⟨_, fun t => .ok (t.mm reg), r, fun _ v => v, rfl, fun _ => rfl,
      fun h => by simp [h.mm reg], fun _ => rfl⟩
  | .emms pre => .inr (.emms pre)
  | .punpcklbw pre reg rm => .inl ⟨_, src32L pre rm, reg, _, rfl, fun _ => rfl, src32L_inputs pre rm, exec_punpcklbw pre reg rm⟩
  | .punpcklwd pre reg rm => .inl ⟨_, src32L pre rm, reg, _, rfl, fun _ => rfl, src32L_inputs pre rm, exec_punpcklwd pre reg rm⟩
  | .punpckldq pre reg rm => .inl ⟨_, src32L pre rm, reg, _, rfl, fun _ => rfl, src32L_inputs pre rm, exec_punpckldq pre reg rm⟩
  | .packsswb pre reg rm => .inl ⟨_, src64 pre rm, reg, _, rfl, fun _ => rfl, src64_inputs pre rm, exec_packsswb pre reg rm⟩
  | .pcmpgtb pre reg rm => .inl ⟨_, src64 pre rm, reg, _, rfl, fun _ => rfl, src64_inputs pre rm, exec_pcmpgtb pre reg rm⟩
  | .pcmpgtw pre reg rm => .inl ⟨_, src64 pre rm, reg, _, rfl, fun _ => rfl, src64_inputs pre rm, exec_pcmpgtw pre reg rm⟩
  | .pcmpgtd pre reg rm => .inl ⟨_, src64 pre rm, reg, _, rfl, fun _ => rfl, src64_inputs pre rm, exec_pcmpgtd pre reg rm⟩
  | .packuswb pre reg rm => .inl ⟨_, src64 pre rm, reg, _, rfl, fun _ => rfl, src64_inputs pre rm, exec_packuswb pre reg rm⟩
  | .punpckhbw pre reg rm => .inl ⟨_, src64 pre rm, reg, _, rfl, fun _ => rfl, src64_inputs pre rm, exec_punpckhbw pre reg rm⟩
  | .punpckhwd pre reg rm => .inl ⟨_, src64 pre rm, reg, _, rfl, fun _ => rfl, src64_inputs pre rm, exec_punpckhwd pre reg rm⟩
  | .punpckhdq pre reg rm => .inl ⟨_, src64 pre rm, reg, _, rfl, fun _ => rfl, src64_inputs pre rm, exec_punpckhdq pre reg rm⟩
  | .packssdw pre reg rm => .inl ⟨_, src64 pre rm, reg, _, rfl, fun _ => rfl, src64_inputs pre rm, exec_packssdw pre reg rm⟩
  | .movdToMm pre reg rm => .inl ⟨_, src32 pre rm, reg, _, rfl, fun _ => rfl, src32_inputs pre rm, exec_movdToMm pre reg rm⟩
  | .movqToMm pre reg rm => .inl ⟨_, src64 pre rm, reg, _, rfl, fun _ => rfl, src64_inputs pre rm, exec_movqToMm pre reg rm⟩
  | .psrlwImm pre rm imm => .inl ⟨_, fun _ => .ok imm, rm, _, rfl, fun _ => rfl, fun _ => rfl, exec_psrlwImm pre rm imm⟩
  | .psrawImm pre rm imm => .inl ⟨_, fun _ => .ok imm, rm, _, rfl, fun _ => rfl, fun _ => rfl, exec_psrawImm pre rm imm⟩
  | .psllwImm pre rm imm => .inl ⟨_, fun _ => .ok imm, rm, _, rfl, fun _ => rfl, fun _ => rfl, exec_psllwImm pre rm imm⟩
  | .psrldImm pre rm imm => .inl ⟨_, fun _ => .ok imm, rm, _, rfl, fun _ => rfl, fun _ => rfl, exec_psrldImm pre rm imm⟩
  | .psradImm pre rm imm => .inl ⟨_, fun _ => .ok imm, rm, _, rfl, fun _ => rfl, fun _ => rfl, exec_psradImm pre rm imm⟩
  | .pslldImm pre rm imm => .inl ⟨_, fun _ => .ok imm, rm, _, rfl, fun _ => rfl, fun _ => rfl, exec_pslldImm pre rm imm⟩
  | .psrlqImm pre rm imm => .inl ⟨_, fun _ => .ok imm, rm, _, rfl, fun _ => rfl, fun _ => rfl, exec_psrlqImm pre rm imm⟩
  | .psllqImm pre rm imm => .inl ⟨_, fun _ => .ok imm, rm, _, rfl, fun _ => rfl, fun _ => rfl, exec_psllqImm pre rm imm⟩
  | .pcmpeqb pre reg rm => .inl ⟨_, src64 pre rm, reg, _, rfl, fun _ => rfl, src64_inputs pre rm, exec_pcmpeqb pre reg rm⟩
  | .pcmpeqw pre reg rm => .inl ⟨_, src64 pre rm, reg, _, rfl, fun _ => rfl, src64_inputs pre rm, exec_pcmpeqw pre reg rm⟩
  | .pcmpeqd pre reg rm => .inl ⟨_, src64 pre rm, reg, _, rfl, fun _ => rfl, src64_inputs pre rm, exec_pcmpeqd pre reg rm⟩
  | .psrlw pre reg rm => .inl ⟨_, src64 pre rm, reg, _, rfl, fun _ => rfl, src64_inputs pre rm, exec_psrlw pre reg rm⟩
  | .psrld pre reg rm => .inl ⟨_, src64 pre rm, reg, _, rfl, fun _ => rfl, src64_inputs pre rm, exec_psrld pre reg rm⟩
  | .psrlq pre reg rm => .inl ⟨_, src64 pre rm, reg, _, rfl, fun _ => rfl, src64_inputs pre rm, exec_psrlq pre reg rm⟩
  | .pmullw pre reg rm => .inl ⟨_, src64 pre rm, reg, _, rfl, fun _ => rfl, src64_inputs pre rm, exec_pmullw pre reg rm⟩
  | .psubusb pre reg rm => .inl ⟨_, src64 pre rm, reg, _, rfl, fun _ => rfl, src64_inputs pre rm, exec_psubusb pre reg rm⟩
  | .psubusw pre reg rm => .inl ⟨_, src64 pre rm, reg, _, rfl, fun _ => rfl, src64_inputs pre rm, exec_psubusw pre reg rm⟩
  | .pand pre reg rm => .inl ⟨_, src64 pre rm, reg, _, rfl, fun _ => rfl, src64_inputs pre rm, exec_pand pre reg rm⟩
  | .paddusb pre reg rm => .inl ⟨_, src64 pre rm, reg, _, rfl, fun _ => rfl, src64_inputs pre rm, exec_paddusb pre reg rm⟩
  | .paddusw pre reg rm => .inl ⟨_, src64 pre rm, reg, _, rfl, fun _ => rfl, src64_inputs pre rm, exec_paddusw pre reg rm⟩
  | .pandn pre reg rm => .inl ⟨_, src64 pre rm, reg, _, rfl, fun _ => rfl, src64_inputs pre rm, exec_pandn pre reg rm⟩
  | .psraw pre reg rm => .inl ⟨_, src64 pre rm, reg, _, rfl, fun _ => rfl, src64_inputs pre rm, exec_psraw pre reg rm⟩
  | .psrad pre reg rm => .inl ⟨_, src64 pre rm, reg, _, rfl, fun _ => rfl, src64_inputs pre rm, exec_psrad pre reg rm⟩
  | .pmulhw pre reg rm => .inl ⟨_, src64 pre rm, reg, _, rfl, fun _ => rfl, src64_inputs pre rm, exec_pmulhw pre reg rm⟩
  | .psubsb pre reg rm => .inl ⟨_, src64 pre rm, reg, _, rfl, fun _ => rfl, src64_inputs pre rm, exec_psubsb pre reg rm⟩
  | .psubsw pre reg rm => .inl ⟨_, src64 pre rm, reg, _, rfl, fun _ => rfl, src64_inputs pre rm, exec_psubsw pre reg rm⟩
  | .por pre reg rm => .inl ⟨_, src64 pre rm, reg, _, rfl, fun _ => rfl, src64_inputs pre rm, exec_por pre reg rm⟩
  | .paddsb pre reg rm => .inl ⟨_, src64 pre rm, reg, _, rfl, fun _ => rfl, src64_inputs pre rm, exec_paddsb pre reg rm⟩
  | .paddsw pre reg rm => .inl ⟨_, src64 pre rm, reg, _, rfl, fun _ => rfl, src64_inputs pre rm, exec_paddsw pre reg rm⟩
  | .pxor pre reg rm => .inl ⟨_, src64 pre rm, reg, _, rfl, fun _ => rfl, src64_inputs pre rm, exec_pxor pre reg rm⟩
  | .psllw pre reg rm => .inl ⟨_, src64 pre rm, reg, _, rfl, fun _ => rfl, src64_inputs pre rm, exec_psllw pre reg rm⟩
  | .pslld pre reg rm => .inl ⟨_, src64 pre rm, reg, _, rfl, fun _ => rfl, src64_inputs pre rm, exec_pslld pre reg rm⟩
  | .psllq pre reg rm => .inl ⟨_, src64 pre rm, reg, _, rfl, fun _ => rfl, src64_inputs pre rm, exec_psllq pre reg rm⟩
  | .pmaddwd pre reg rm => .inl ⟨_, src64 pre rm, reg, _, rfl, fun _ => rfl, src64_inputs pre rm, exec_pmaddwd pre reg rm⟩
  | .psubb pre reg rm => .inl ⟨_, src64 pre rm, reg, _, rfl, fun _ => rfl, src64_inputs pre rm, exec_psubb pre reg rm⟩
  | .psubw pre reg rm => .inl ⟨_, src64 pre rm, reg, _, rfl, fun _ => rfl, src64_inputs pre rm, exec_psubw pre reg rm⟩
  | .psubd pre reg rm => .inl ⟨_, src64 pre rm, reg, _, rfl, fun _ => rfl, src64_inputs pre rm, exec_psubd pre reg rm⟩
  | .paddb pre reg rm => .inl ⟨_, src64 pre rm, reg, _, rfl, fun _ => rfl, src64_inputs pre rm, exec_paddb pre reg rm⟩
  | .paddw pre reg rm => .inl ⟨_, src64 pre rm, reg, _, rfl, fun _ => rfl, src64_inputs pre rm, exec_paddw pre reg rm⟩
  | .paddd pre reg rm => .inl ⟨_, src64 pre rm, reg, _, rfl, fun _ => rfl, src64_inputs pre rm, exec_paddd pre reg rm⟩

end Sys2Proof.Machine
end

