-- ==== Sys2Proof/Laws/Exec.lean ====
section
/-! SUPPORT. The instruction shapes, and one inversion lemma for `exec`: all that an instruction which
completes can have done. Proofs about every instruction cite `exec_next_cases` and `exec_stops`. -/

namespace Sys2Proof.Machine

/-! ## The shape with an MMX destination -/

theorem toMm_check {α : Type} {src : State → Except Exception α} {d : RegNum} {len : Nat}
    {f : Quad → α → Quad} {s : State} {x : Exception} (h : mmxCheck s = some x) :
    toMm src d len f s = raise x s := by simp [toMm, h]

theorem toMm_error {α : Type} {src : State → Except Exception α} {d : RegNum} {len : Nat}
    {f : Quad → α → Quad} {s : State} {x : Exception} (h : Ready s) (hx : src s = .error x) :
    toMm src d len f s = raise x s := by
  unfold Ready at h
  simp [toMm, h, hx]

theorem toMm_ok {α : Type} {src : State → Except Exception α} {d : RegNum} {len : Nat}
    {f : Quad → α → Quad} {s : State} {b : α} (h : Ready s) (hb : src s = .ok b) :
    toMm src d len f s = .next ((s.writeMm d (f (s.mm d) b)).complete len) := by
  unfold Ready at h
  simp [toMm, h, hb]

theorem toMm_next {α : Type} {src : State → Except Exception α} {d : RegNum} {len : Nat}
    {f : Quad → α → Quad} {s t : State} (h : toMm src d len f s = .next t) :
    Ready s ∧ ∃ b, src s = .ok b ∧ t = (s.writeMm d (f (s.mm d) b)).complete len := by
  unfold toMm raise at h
  split at h
  · cases h
  · rename_i hr
    split at h
    · cases h
    · rename_i b hb
      exact ⟨hr, b, hb, by cases h; rfl⟩

/-- An instruction whose meaning is `toMm` obeys a rule if the value it computes does. -/
theorem mmResult_toMm {α : Type} {i : Instr} {src : State → Except Exception α} {d : RegNum}
    {len : Nat} {f : Quad → α → Quad} {value : Quad → α → Quad → Prop}
    (hi : ∀ s, exec i s = toMm src d len f s) (hv : ∀ a b, value a b (f a b)) :
    MmResult i src d len value := by
  intro s
  refine ⟨fun x h => (hi s).trans (toMm_check h), fun x h hx => (hi s).trans (toMm_error h hx),
    fun b h hb => ⟨_, (hi s).trans (toMm_ok h hb), writesMm_complete s d _ len, ?_⟩⟩
  rw [complete_mm, mm_writeMm_same]
  exact hv _ _

/-! ## The shape with a memory destination -/

theorem toMemory_next {pre : Option Seg} {m : MemOperand} {len : Nat} {bs : List Byte} {s t : State}
    (h : toMemory pre m len bs s = .next t) :
    Ready s ∧ admission (segOf pre m) (effAddr s m) bs.length .write s = none ∧
      ¬ TouchesCode s (effAddr s m) bs.length ∧
      t = ({ s with mem := writeCells s.mem (effAddr s m) bs } : State).complete len := by
  unfold toMemory at h
  split at h
  · cases h
  · rename_i hr
    rcases memWrite_cases (segOf pre m) (effAddr s m) bs s with
      ⟨x, _, e⟩ | ⟨_, _, e⟩ | ⟨ha, hc, e⟩ <;> rw [e] at h
    · cases h
    · cases h
    · exact ⟨hr, ha, hc, by cases h; rfl⟩

/-- An instruction whose meaning is `toMemory` obeys the rule of a store. -/
theorem storeResult_toMemory {i : Instr} {pre : Option Seg} {m : MemOperand} {n len : Nat}
    {bytes : State → List Byte} {byte : State → Nat → Byte}
    (hi : ∀ s, exec i s = toMemory pre m len (bytes s) s) (hl : ∀ s, (bytes s).length = n)
    (hn : n ≤ Config.addressSpace)
    (hb : ∀ s k, (h : k < (bytes s).length) → (bytes s)[k] = byte s k) :
    StoreResult i pre m n len byte := by
  intro s
  have hs := hl s
  refine ⟨fun x h => by rw [hi]; simp [toMemory, h], fun x hr _ hx => ?_, fun hr ha => ⟨fun hc => ?_, fun hc => ?_⟩⟩
  all_goals
    unfold Ready at hr
    rw [hi]
    rcases memWrite_cases (segOf pre m) (effAddr s m) (bytes s) s with
      ⟨y, hy, e⟩ | ⟨hy, hc', e⟩ | ⟨hy, hc', e⟩ <;> rw [hs] at hy <;>
      simp only [toMemory, hr, e, thenNext]
  · rw [hy] at hx; cases hx; rfl
  · rw [hy] at hx; cases hx
  · rw [hy] at hx; cases hx
  · rw [hy] at ha; cases ha
  · rw [hs] at hc'; exact absurd hc hc'
  · rw [hy] at ha; cases ha
  · rw [hs] at hc'; exact absurd hc' hc
  · refine ⟨_, rfl, hs ▸ writesMemory_complete s _ _ len, fun hm k hk => ?_⟩
    rw [complete_byteAt]
    exact (readCell_writeCells_same hm _ _ (by omega) k (by omega)).trans (hb s k _)

/-! ## Every instruction -/

/-- All that an instruction which completes can have done. -/
theorem exec_next_cases {i : Instr} {s t : State} (h : exec i s = .next t) :
    Ready s ∧
    ((∃ d v, mmDest i = some d ∧ storedBytes s i = none ∧
        t = (s.writeMm d v).complete i.length) ∨
     (∃ pre reg r, i = .movdFromMm pre reg (.reg r) ∧
        t = (s.writeReg r ((s.mm reg).extractLsb' 0 32)).complete i.length) ∨
     (∃ pre m bs, storedBytes s i = some (pre, m, bs) ∧ mmDest i = none ∧
        admission (segOf pre m) (effAddr s m) bs.length .write s = none ∧
        ¬ TouchesCode s (effAddr s m) bs.length ∧
        t = ({ s with mem := writeCells s.mem (effAddr s m) bs } : State).complete i.length) ∨
     (∃ pre, i = .emms pre ∧ t = s.empty.advance i.length)) := by
  rcases shape_or_special i with ⟨α, src, d, f, hd, hs, _, he⟩ | hi
  · rw [he s] at h
    obtain ⟨hr, b, _, e⟩ := toMm_next h
    exact ⟨hr, .inl ⟨d, _, hd, hs s, e⟩⟩
  · cases hi with
    | movdToReg pre reg r =>
      simp only [exec, execMovdFromMm, raise] at h
      split at h
      · cases h
      · rename_i hr
        exact ⟨hr, .inr (.inl ⟨_, _, _, rfl, by cases h; rfl⟩)⟩
    | movdToMem pre reg m =>
      obtain ⟨hr, ha, hc, e⟩ := toMemory_next h
      exact ⟨hr, .inr (.inr (.inl ⟨_, _, _, rfl, rfl, ha, hc, e⟩))⟩
    | movqToMem pre reg m =>
      obtain ⟨hr, ha, hc, e⟩ := toMemory_next h
      exact ⟨hr, .inr (.inr (.inl ⟨_, _, _, rfl, rfl, ha, hc, e⟩))⟩
    | emms pre =>
      simp only [exec, execEmms, raise] at h
      split at h
      · cases h
      · rename_i hr
        exact ⟨hr, .inr (.inr (.inr ⟨_, rfl, by cases h; rfl⟩))⟩

/-- Every instruction raises what `MMXCheck()` finds (R266). -/
theorem exec_check {s : State} {x : Exception} (h : mmxCheck s = some x) (i : Instr) :
    exec i s = raise x s := by
  rcases shape_or_special i with ⟨α, src, d, f, _, _, _, he⟩ | hi
  · rw [he s, toMm_check h]
  · cases hi <;> simp [exec, execMovdFromMm, execMovqFromMm, execEmms, toMemory, h]

/-- A fault of an instruction carries the unchanged state (R271). -/
theorem exec_fault {i : Instr} {s : State} {f : Fault} (h : exec i s = .fault f) :
    ∃ x, f = .raised x s := by
  have store : ∀ pre m len bs, toMemory pre m len bs s = .fault f → ∃ x, f = .raised x s := by
    intro pre m len bs h
    unfold toMemory raise at h
    split at h
    · exact ⟨_, by cases h; rfl⟩
    · rcases memWrite_cases (segOf pre m) (effAddr s m) bs s with
        ⟨x, _, e⟩ | ⟨_, _, e⟩ | ⟨_, _, e⟩ <;> rw [e] at h
      · exact ⟨x, by cases h; rfl⟩
      · cases h
      · cases h
  rcases shape_or_special i with ⟨α, src, d, g, _, _, _, he⟩ | hi
  · rw [he s] at h
    unfold toMm raise at h
    split at h
    · exact ⟨_, by cases h; rfl⟩
    · split at h
      · exact ⟨_, by cases h; rfl⟩
      · cases h
  · cases hi with
    | movdToReg pre reg r =>
      simp only [exec, execMovdFromMm, raise] at h
      split at h
      · exact ⟨_, by cases h; rfl⟩
      · cases h
    | movdToMem pre reg m => exact store _ _ _ _ h
    | movqToMem pre reg m => exact store _ _ _ _ h
    | emms pre =>
      simp only [exec, execEmms, raise] at h
      split at h
      · exact ⟨_, by cases h; rfl⟩
      · cases h

/-! ## Two states -/

variable {R : State → State → Prop} {s s' : State}

/-- Two states with the same operands, the same checks and the same `CodeRange` complete to related
states, fault alike and are refused alike, for a relation that the four updates keep. -/
theorem exec_related (hin : SameInputs s s')
    (hc : mmxCheck s' = mmxCheck s) (hcode : ∀ a, s'.inCode a = s.inCode a)
    (hmm : ∀ d v n, R ((s.writeMm d v).complete n) ((s'.writeMm d v).complete n))
    (hreg : ∀ d v n, R ((s.writeReg d v).complete n) ((s'.writeReg d v).complete n))
    (hmem : ∀ m n, R (({s with mem := m} : State).complete n) (({s' with mem := m} : State).complete n))
    (hem : ∀ n, R (s.empty.advance n) (s'.empty.advance n)) (i : Instr) :
    (∀ t, exec i s = .next t → ∃ t', exec i s' = .next t' ∧ R t t') ∧
    (∀ x, exec i s = raise x s → exec i s' = raise x s') ∧
    (∀ r, exec i s = .refused r → exec i s' = .refused r) := by
  have store : ∀ pre m len bs,
    (∀ t, toMemory pre m len bs s = .next t → ∃ t', toMemory pre m len bs s' = .next t' ∧ R t t') ∧
    (∀ x, toMemory pre m len bs s = raise x s → toMemory pre m len bs s' = raise x s') ∧
    (∀ r, toMemory pre m len bs s = .refused r → toMemory pre m len bs s' = .refused r) := by
    intro pre m len bs
    unfold toMemory memWrite raise
    rw [hc, hin.admission, hin.effAddr]
    simp only [hcode, hin.mem]
    cases mmxCheck s with
    | some x => simp
    | none =>
      cases Machine.admission (segOf pre m) (effAddr s m) bs.length .write s with
      | some x => simp [thenNext]
      | none =>
        cases (operandBytes (effAddr s m) bs.length).any fun b => s.inCode b.toNat with
        | true => simp [thenNext]
        | false => simp [thenNext, hmem]
  rcases shape_or_special i with ⟨α, src, d, f, _, _, hs, he⟩ | hi
  · rw [he s, he s']
    unfold toMm raise
    rw [hc, hs hin, hin.mm]
    cases mmxCheck s with
    | some x => simp
    | none => cases src s with
      | error x => simp
      | ok b => simp [hmm]
  · cases hi with
    | movdToReg pre reg r =>
      simp only [exec, execMovdFromMm, raise, hc, hin.mm]
      cases mmxCheck s <;> simp [hreg]
    | movdToMem pre reg m => simpa only [exec, execMovdFromMm, hin.mm] using store _ _ _ _
    | movqToMem pre reg m => simpa only [exec, execMovqFromMm, hin.mm] using store _ _ _ _
    | emms pre =>
      simp only [exec, execEmms, raise, hc]
      cases mmxCheck s <;> simp [hem]

/-! ## Rules of the spec for the two formats with an MMX destination -/

/-- A format-`RM` row whose meaning is `toMm` obeys its rule if the value it computes does. -/
theorem rmRule_toMm {α : Type} {mk : Option Seg → RegNum → RegMem → Instr} {op : Byte}
    {src : Option Seg → RegMem → State → Except Exception α} {f : Quad → α → Quad}
    {value : Quad → α → Quad → Prop}
    (hf : ∀ pre reg rm, (mk pre reg rm).format = .rm op reg rm ∧ (mk pre reg rm).override = pre)
    (he : ∀ pre reg rm s, exec (mk pre reg rm) s = toMm (src pre rm) reg (rmLength pre rm) f s)
    (hv : ∀ a b, value a b (f a b)) : RmRule mk op src value :=
  fun pre reg rm => ⟨(hf pre reg rm).1, (hf pre reg rm).2, mmResult_toMm (he pre reg rm) hv⟩

/-- The two rows of a shift obey its rule if the value they compute does. -/
theorem shiftRule_toMm {mk : Option Seg → RegNum → RegMem → Instr} {op : Byte}
    {mkImm : Option Seg → RegNum → Byte → Instr} {opImm : Byte} {ext : BitVec 3}
    {f : Nat → Quad → Quad} {value : Nat → Quad → Quad → Prop}
    (hf : ∀ pre reg rm, (mk pre reg rm).format = .rm op reg rm ∧ (mk pre reg rm).override = pre)
    (he : ∀ pre reg rm s, exec (mk pre reg rm) s =
      toMm (src64 pre rm) reg (rmLength pre rm) (fun a b => f b.toNat a) s)
    (hfi : ∀ pre rm imm, (mkImm pre rm imm).format = .shi opImm ext rm imm ∧
      (mkImm pre rm imm).override = pre)
    (hei : ∀ pre rm imm s, exec (mkImm pre rm imm) s =
      toMm (fun _ => .ok imm) rm (shiLength pre) (fun a (c : Byte) => f c.toNat a) s)
    (hv : ∀ c a, value c a (f c a)) : ShiftRule mk op mkImm opImm ext value :=
  ⟨rmRule_toMm hf he fun _ _ => hv _ _, fun pre rm imm =>
    ⟨(hfi pre rm imm).1, (hfi pre rm imm).2, mmResult_toMm (hei pre rm imm) fun _ _ => hv _ _⟩⟩

end Sys2Proof.Machine
end

