-- ==== Sys2Proof/Laws/Step.lean ====
section
/-! SUPPORT. Fetching and stepping: what bytes at `EIP` in `CodeRange` make a step do. -/

namespace Sys2Proof.Machine

/-! ## Fetch -/

theorem fetchFrom_length_le (s : State) (a n : Nat) : (fetchFrom s a n).length ≤ n := by
  induction n generalizing a with
  | zero => simp [fetchFrom]
  | succ n ih =>
    unfold fetchFrom
    split
    · have := ih (a + 1); simp; omega
    · simp

/-- A fetch reads the bytes that lie in `CodeRange` from its address on, and goes on after them. -/
theorem fetchFrom_append (s : State) (bs : List Byte) (a n : Nat) (hl : bs.length ≤ n)
    (h : ∀ k, (hk : k < bs.length) → a + k < Config.addressSpace ∧ s.inCode (a + k) = true ∧
      readCell s.mem (a + k) = bs[k]) :
    fetchFrom s a n = bs ++ fetchFrom s (a + bs.length) (n - bs.length) := by
  induction bs generalizing a n with
  | nil => simp
  | cons b bs ih =>
    cases n with
    | zero => simp at hl
    | succ n =>
      obtain ⟨h1, h2, h3⟩ := h 0 (by simp)
      simp only [Nat.add_zero, List.getElem_cons_zero] at h1 h2 h3
      rw [fetchFrom, if_pos (by simp [h1, h2]), h3, ih (a + 1) n (by simpa using hl)]
      · rw [List.length_cons, List.cons_append, Nat.add_assoc, Nat.add_comm 1, Nat.add_sub_add_right]
      · intro k hk
        have := h (k + 1) (by simpa using hk)
        simpa [Nat.add_comm, Nat.add_left_comm] using this

/-- The bytes at `EIP` in `CodeRange` are what is fetched first. -/
theorem fetch_of_codeAt {s : State} {bs : List Byte} (h : CodeAt s bs)
    (hl : bs.length ≤ Config.maxLength) : ∃ more, fetch s = bs ++ more :=
  ⟨_, fetchFrom_append s bs _ _ hl h⟩

/-- A fetch ends where `CodeRange` or the address space does. -/
theorem fetch_ends {s : State} {bs : List Byte} (h : CodeAt s bs) (hl : bs.length < Config.maxLength)
    (he : Config.addressSpace ≤ s.eip.toNat + bs.length ∨ s.inCode (s.eip.toNat + bs.length) = false) :
    fetch s = bs := by
  rw [fetch, fetchFrom_append s bs _ _ (Nat.le_of_lt hl) h]
  obtain ⟨n, hn⟩ : ∃ n, Config.maxLength - bs.length = n + 1 :=
    ⟨Config.maxLength - bs.length - 1, by omega⟩
  rw [hn, fetchFrom, if_neg]
  · simp
  · simp only [Bool.and_eq_true, decide_eq_true_eq, not_and, Bool.not_eq_true]
    rcases he with he | he
    · intro; omega
    · intro; exact he

/-! ## The decoder never asks for a tenth byte -/

theorem takeDword_none {bs : List Byte} (h : takeDword bs = none) : bs.length < 4 := by
  unfold takeDword at h
  split at h
  · cases h
  · rename_i hb
    match bs, hb with
    | [], _ | [_], _ | [_, _], _ | [_, _, _], _ => simp
    | b0 :: b1 :: b2 :: b3 :: rest, hb => exact absurd rfl (hb b0 b1 b2 b3 rest)

theorem takeDisp_none {mod : BitVec 2} {bs : List Byte} (h : takeDisp mod bs = none) : bs.length < 4 := by
  unfold takeDisp at h
  split at h
  · cases h
  · split at h
    · split at h
      · cases h
      · simp
    · exact takeDword_none (by simpa using h)

theorem takeRegMem_none {modrm : Byte} {bs : List Byte} (h : takeRegMem modrm bs = none) :
    bs.length < 5 := by
  unfold takeRegMem at h
  split at h
  · cases h
  · simp only [Option.map_eq_none_iff] at h
    unfold takeMem at h
    split at h
    · unfold takeSib at h
      split at h
      · simp
      · split at h
        · have := takeDword_none (by simpa using h); simp; omega
        · have := takeDisp_none (by simpa using h); simp; omega
    · split at h
      · have := takeDword_none (by simpa using h); omega
      · have := takeDisp_none (by simpa using h); omega

theorem decodeOpcode_short {pre : Option Seg} {bs : List Byte} (h : decodeOpcode pre bs = .short) :
    bs.length < 7 := by
  unfold decodeOpcode at h
  split at h
  · simp
  · split at h
    · cases h
    · split at h
      · unfold decodeShift at h
        split at h
        · simp
        · split at h
          · split at h
            · cases h
            · split at h
              · simp
              · cases h
          · cases h
      · split at h
        · unfold decodeRm at h
          split at h
          · simp
          · split at h
            · cases h
            · rename_i hn
              have := takeRegMem_none hn
              simp; omega
        · cases h

/-- Bytes that end before the instruction does are fewer than the longest instruction has. -/
theorem decode_short_length {bs : List Byte} (h : decode bs = .short) : bs.length < Config.maxLength := by
  have esc : ∀ pre cs, decodeEscape pre cs = .short → cs.length < 8 := by
    intro pre cs h
    unfold decodeEscape at h
    split at h
    · simp
    · split at h
      · cases h
      · split at h
        · cases h
        · split at h
          · have := decodeOpcode_short h; simp; omega
          · cases h
  unfold decode at h
  split at h
  · simp
  · split at h
    · have := esc _ _ h; simp only [List.length_cons, Config.maxLength]; omega
    · have := esc _ _ h; simp only [List.length_cons, Config.maxLength] at *; omega

/-! ## Step -/

/-- A running machine is not stopped. -/
theorem stop_none {s : State} (he : s.eip ≠ s.launch.endAddr) (hm : s.mode = .protected32) :
    stop s = none := by simp [stop, he, hm]

/-- A running machine executes the instruction its bytes decode to. -/
theorem step_instr {s : State} {i : Instr} {rest : List Byte} (he : s.eip ≠ s.launch.endAddr)
    (hm : s.mode = .protected32) (h : decode (fetch s) = .instr i rest) : step s = exec i s := by
  simp [step, stop_none he hm, h]

theorem step_invalid {s : State} (he : s.eip ≠ s.launch.endAddr) (hm : s.mode = .protected32)
    (h : decode (fetch s) = .invalid) : step s = raise .invalidOpcode s := by
  simp [step, stop_none he hm, h]

theorem step_refused {s : State} {r : DecodeRefusal} (he : s.eip ≠ s.launch.endAddr)
    (hm : s.mode = .protected32) (h : decode (fetch s) = .refused r) :
    step s = .refused (.encoding r) := by
  simp [step, stop_none he hm, h]

theorem step_short {s : State} (he : s.eip ≠ s.launch.endAddr) (hm : s.mode = .protected32)
    (h : decode (fetch s) = .short) : step s = .refused (fetchRefusal s) := by
  simp [step, stop_none he hm, h]

/-- All that a step which answers a next state can have done. -/
theorem step_next {s t : State} (h : step s = .next t) :
    ∃ i rest, decode (fetch s) = .instr i rest ∧ exec i s = .next t := by
  unfold step raise at h
  split at h
  · cases h
  · split at h
    · exact ⟨_, _, by assumption, h⟩
    all_goals cases h

end Sys2Proof.Machine
end

