-- ==== Sys2Proof/Tests/Slice0.lean ====
section
/-! SUPPORT. Tests: ill-formed terms that WellFormed refuses, words written out from the spec's
encodings, one step on small states with the results that spec/95_test_vectors.md lists (T numbers),
and for every statement with hypotheses a state and operands that meet them (`witness_…`). -/

namespace Sys2Proof.Tests

open Sys2Proof.Machine

/-! ## Helpers -/

/-- The next state, if there is one. -/
def nextOf : Result → Option State
  | .next s => some s
  | _ => none

/-- The exception, if there is one. -/
def faultOf : Result → Option Exception
  | .fault (.raised x _) => some x
  | _ => none

/-- The refusal, if there is one. -/
def refusalOf : Result → Option Refusal
  | .refused r => some r
  | _ => none

theorem next_of_isSome {r : Result} (h : (nextOf r).isSome = true) : ∃ t, r = .next t := by
  cases r with
  | next s => exact ⟨s, rfl⟩
  | fault f => cases h
  | refused f => cases h

theorem fault_of_isSome {r : Result} (h : (faultOf r).isSome = true) : ∃ f, r = .fault f := by
  cases r with
  | next s => cases h
  | fault f => exact ⟨f, rfl⟩
  | refused f => cases h

/-- A launch at `0x00400000` in 32-bit protected mode with nothing in memory. -/
def base : State :=
  { State.reset with
    mode := .protected32
    segBase := Vector.replicate 6 0
    eip := 0x00400000
    launch := { Launch.default with codeRange := [⟨0x400000, 0x400100⟩], endAddr := 0x400100 } }

/-- `base` with a program at `EIP`. -/
def code (bs : List Byte) : State := base.launchedOn bs

/-- MMX register `i` set, with zeros above it. -/
def setMm (s : State) (i : RegNum) (v : Quad) : State :=
  { s with x87 := s.x87.set i.toNat ((0 : BitVec 16) ++ v) i.isLt }

/-- `MM0 = a`, `MM1 = b`. -/
def two (a b : Quad) : State := setMm (setMm base 0 a) 1 b

/-- Bytes in memory at an address. -/
def poke (s : State) (a : Dword) (bs : List Byte) : State := { s with mem := writeCells s.mem a bs }

/-- `MM0` after `OP MM0, MM1` with `MM0 = a` and `MM1 = b`. -/
def vec (mk : Option Seg → RegNum → RegMem → Instr) (a b : Quad) : Option Quad :=
  (nextOf (exec (mk none 0 (.reg 1)) (two a b))).map fun t => t.mm 0

/-- `MM0` after `OP MM0, imm8` with `MM0 = a`. -/
def vecImm (mk : Option Seg → RegNum → Byte → Instr) (a : Quad) (c : Byte) : Option Quad :=
  (nextOf (exec (mk none 0 c) (two a 0))).map fun t => t.mm 0

/-! ## WellFormed: one ill-formed term for each check -/

/-- `rm = 100B` is a SIB byte, no base register (R83). -/
theorem test_wf_base_esp : (Instr.movqToMm none 0 (.mem (.base 4 .none))).wf = false := by decide

/-- The same with a displacement (R83). -/
theorem test_wf_base_esp_disp : (Instr.movqToMm none 0 (.mem (.base 4 (.d8 0)))).wf = false := by decide

/-- `mod = 00B, rm = 101B` is disp32 (R83). -/
theorem test_wf_base_ebp : (Instr.movqToMm none 0 (.mem (.base 5 .none))).wf = false := by decide

/-- `mod = 00B` with SIB base `101B` is no base (R84). -/
theorem test_wf_sib_ebp : (Instr.movqToMm none 0 (.mem (.sib 0 1 5 .none))).wf = false := by decide

/-- `EBP` as a base with a displacement is well-formed (R83, R84). -/
theorem test_wf_ebp_disp : (Instr.movqToMm none 0 (.mem (.base 5 (.d8 0)))).wf = true ∧
    (Instr.movqToMm none 0 (.mem (.sib 0 1 5 (.d8 0)))).wf = true := by decide

/-! ## Decoding: a word of every row, from the bytes of R90 -/

theorem test_decode_punpcklbw : decode [0x0F, 0x60, 0xD1] = .instr (.punpcklbw none 2 (.reg 1)) [] := by decide

theorem test_decode_punpcklwd : decode [0x0F, 0x61, 0xD1] = .instr (.punpcklwd none 2 (.reg 1)) [] := by decide

theorem test_decode_punpckldq : decode [0x0F, 0x62, 0xD1] = .instr (.punpckldq none 2 (.reg 1)) [] := by decide

theorem test_decode_packsswb : decode [0x0F, 0x63, 0xD1] = .instr (.packsswb none 2 (.reg 1)) [] := by decide

theorem test_decode_pcmpgtb : decode [0x0F, 0x64, 0xD1] = .instr (.pcmpgtb none 2 (.reg 1)) [] := by decide

theorem test_decode_pcmpgtw : decode [0x0F, 0x65, 0xD1] = .instr (.pcmpgtw none 2 (.reg 1)) [] := by decide

theorem test_decode_pcmpgtd : decode [0x0F, 0x66, 0xD1] = .instr (.pcmpgtd none 2 (.reg 1)) [] := by decide

theorem test_decode_packuswb : decode [0x0F, 0x67, 0xD1] = .instr (.packuswb none 2 (.reg 1)) [] := by decide

theorem test_decode_punpckhbw : decode [0x0F, 0x68, 0xD1] = .instr (.punpckhbw none 2 (.reg 1)) [] := by decide

theorem test_decode_punpckhwd : decode [0x0F, 0x69, 0xD1] = .instr (.punpckhwd none 2 (.reg 1)) [] := by decide

theorem test_decode_punpckhdq : decode [0x0F, 0x6A, 0xD1] = .instr (.punpckhdq none 2 (.reg 1)) [] := by decide

theorem test_decode_packssdw : decode [0x0F, 0x6B, 0xD1] = .instr (.packssdw none 2 (.reg 1)) [] := by decide

theorem test_decode_movdToMm : decode [0x0F, 0x6E, 0xD1] = .instr (.movdToMm none 2 (.reg 1)) [] := by decide

theorem test_decode_movqToMm : decode [0x0F, 0x6F, 0xD1] = .instr (.movqToMm none 2 (.reg 1)) [] := by decide

theorem test_decode_psrlwImm : decode [0x0F, 0x71, 0xD3, 0x08] = .instr (.psrlwImm none 3 8) [] := by decide

theorem test_decode_psrawImm : decode [0x0F, 0x71, 0xE3, 0x08] = .instr (.psrawImm none 3 8) [] := by decide

theorem test_decode_psllwImm : decode [0x0F, 0x71, 0xF3, 0x08] = .instr (.psllwImm none 3 8) [] := by decide

theorem test_decode_psrldImm : decode [0x0F, 0x72, 0xD3, 0x08] = .instr (.psrldImm none 3 8) [] := by decide

theorem test_decode_psradImm : decode [0x0F, 0x72, 0xE3, 0x08] = .instr (.psradImm none 3 8) [] := by decide

theorem test_decode_pslldImm : decode [0x0F, 0x72, 0xF3, 0x08] = .instr (.pslldImm none 3 8) [] := by decide

theorem test_decode_psrlqImm : decode [0x0F, 0x73, 0xD3, 0x08] = .instr (.psrlqImm none 3 8) [] := by decide

theorem test_decode_psllqImm : decode [0x0F, 0x73, 0xF3, 0x08] = .instr (.psllqImm none 3 8) [] := by decide

theorem test_decode_pcmpeqb : decode [0x0F, 0x74, 0xD1] = .instr (.pcmpeqb none 2 (.reg 1)) [] := by decide

theorem test_decode_pcmpeqw : decode [0x0F, 0x75, 0xD1] = .instr (.pcmpeqw none 2 (.reg 1)) [] := by decide

theorem test_decode_pcmpeqd : decode [0x0F, 0x76, 0xD1] = .instr (.pcmpeqd none 2 (.reg 1)) [] := by decide

theorem test_decode_emms : decode [0x0F, 0x77] = .instr (.emms none) [] := by decide

theorem test_decode_movdFromMm : decode [0x0F, 0x7E, 0xD1] = .instr (.movdFromMm none 2 (.reg 1)) [] := by decide

theorem test_decode_movqFromMm : decode [0x0F, 0x7F, 0xD1] = .instr (.movqFromMm none 2 (.reg 1)) [] := by decide

theorem test_decode_psrlw : decode [0x0F, 0xD1, 0xD1] = .instr (.psrlw none 2 (.reg 1)) [] := by decide

theorem test_decode_psrld : decode [0x0F, 0xD2, 0xD1] = .instr (.psrld none 2 (.reg 1)) [] := by decide

theorem test_decode_psrlq : decode [0x0F, 0xD3, 0xD1] = .instr (.psrlq none 2 (.reg 1)) [] := by decide

theorem test_decode_pmullw : decode [0x0F, 0xD5, 0xD1] = .instr (.pmullw none 2 (.reg 1)) [] := by decide

theorem test_decode_psubusb : decode [0x0F, 0xD8, 0xD1] = .instr (.psubusb none 2 (.reg 1)) [] := by decide

theorem test_decode_psubusw : decode [0x0F, 0xD9, 0xD1] = .instr (.psubusw none 2 (.reg 1)) [] := by decide

theorem test_decode_pand : decode [0x0F, 0xDB, 0xD1] = .instr (.pand none 2 (.reg 1)) [] := by decide

theorem test_decode_paddusb : decode [0x0F, 0xDC, 0xD1] = .instr (.paddusb none 2 (.reg 1)) [] := by decide

theorem test_decode_paddusw : decode [0x0F, 0xDD, 0xD1] = .instr (.paddusw none 2 (.reg 1)) [] := by decide

theorem test_decode_pandn : decode [0x0F, 0xDF, 0xD1] = .instr (.pandn none 2 (.reg 1)) [] := by decide

theorem test_decode_psraw : decode [0x0F, 0xE1, 0xD1] = .instr (.psraw none 2 (.reg 1)) [] := by decide

theorem test_decode_psrad : decode [0x0F, 0xE2, 0xD1] = .instr (.psrad none 2 (.reg 1)) [] := by decide

theorem test_decode_pmulhw : decode [0x0F, 0xE5, 0xD1] = .instr (.pmulhw none 2 (.reg 1)) [] := by decide

theorem test_decode_psubsb : decode [0x0F, 0xE8, 0xD1] = .instr (.psubsb none 2 (.reg 1)) [] := by decide

theorem test_decode_psubsw : decode [0x0F, 0xE9, 0xD1] = .instr (.psubsw none 2 (.reg 1)) [] := by decide

theorem test_decode_por : decode [0x0F, 0xEB, 0xD1] = .instr (.por none 2 (.reg 1)) [] := by decide

theorem test_decode_paddsb : decode [0x0F, 0xEC, 0xD1] = .instr (.paddsb none 2 (.reg 1)) [] := by decide

theorem test_decode_paddsw : decode [0x0F, 0xED, 0xD1] = .instr (.paddsw none 2 (.reg 1)) [] := by decide

theorem test_decode_pxor : decode [0x0F, 0xEF, 0xD1] = .instr (.pxor none 2 (.reg 1)) [] := by decide

theorem test_decode_psllw : decode [0x0F, 0xF1, 0xD1] = .instr (.psllw none 2 (.reg 1)) [] := by decide

theorem test_decode_pslld : decode [0x0F, 0xF2, 0xD1] = .instr (.pslld none 2 (.reg 1)) [] := by decide

theorem test_decode_psllq : decode [0x0F, 0xF3, 0xD1] = .instr (.psllq none 2 (.reg 1)) [] := by decide

theorem test_decode_pmaddwd : decode [0x0F, 0xF5, 0xD1] = .instr (.pmaddwd none 2 (.reg 1)) [] := by decide

theorem test_decode_psubb : decode [0x0F, 0xF8, 0xD1] = .instr (.psubb none 2 (.reg 1)) [] := by decide

theorem test_decode_psubw : decode [0x0F, 0xF9, 0xD1] = .instr (.psubw none 2 (.reg 1)) [] := by decide

theorem test_decode_psubd : decode [0x0F, 0xFA, 0xD1] = .instr (.psubd none 2 (.reg 1)) [] := by decide

theorem test_decode_paddb : decode [0x0F, 0xFC, 0xD1] = .instr (.paddb none 2 (.reg 1)) [] := by decide

theorem test_decode_paddw : decode [0x0F, 0xFD, 0xD1] = .instr (.paddw none 2 (.reg 1)) [] := by decide

theorem test_decode_paddd : decode [0x0F, 0xFE, 0xD1] = .instr (.paddd none 2 (.reg 1)) [] := by decide

/-! ## Decoding and addressing (T120 to T130): bytes, operand, effective address, segment, length -/

/-- The memory operand, its override and the length of decoded bytes. -/
def operandOf (bs : List Byte) : Option (Option Seg × MemOperand × Nat) :=
  match decode bs with
  | .instr i _ =>
    match i.format with
    | .rm _ _ (.mem m) => some (i.override, m, i.length)
    | _ => none
  | _ => none

/-- Effective address, segment and length for bytes, with general registers set. -/
def addressOf (bs : List Byte) (regs : List (RegNum × Dword)) : Option (Dword × Seg × Nat) :=
  (operandOf bs).map fun (pre, m, n) =>
    (effAddr (regs.foldl (fun s p => s.writeReg p.1 p.2) base) m, segOf pre m, n)

theorem test_T120 : addressOf [0x0F, 0x6F, 0x9C, 0xF3, 0x78, 0x56, 0x34, 0x12] [(3, 0x1000), (6, 0x20)] =
    some (0x12346778, .ds, 8) := by decide

theorem test_T121 : addressOf [0x0F, 0x6F, 0x05, 0x00, 0x10, 0x00, 0x00] [] =
    some (0x1000, .ds, 7) := by decide

theorem test_T122 : addressOf [0x0F, 0x6F, 0x45, 0x00] [(5, 0x7000)] =
    some (0x7000, .ss, 4) := by decide

theorem test_T123 : addressOf [0x0F, 0x6F, 0x04, 0x24] [(4, 0x8000)] =
    some (0x8000, .ss, 4) := by decide

theorem test_T124 : addressOf [0x0F, 0x6F, 0x48, 0xF8] [(0, 0x1010)] =
    some (0x1008, .ds, 4) := by decide

theorem test_T125 : addressOf [0x64, 0x0F, 0x6E, 0x12] [(2, 0x44)] =
    some (0x44, .fs, 4) := by decide

theorem test_T126 : addressOf [0x0F, 0x6F, 0x04, 0x75, 0x10, 0x00, 0x00, 0x00] [(6, 0x100)] =
    some (0x210, .ds, 8) := by decide

theorem test_T127 : addressOf [0x0F, 0x6F, 0x84, 0x24, 0x10, 0x00, 0xFF, 0xFF] [(4, 0x20000)] =
    some (0x00010010, .ss, 8) := by decide

theorem test_T128 : addressOf [0x0F, 0x6F, 0x4C, 0x8D, 0x7F] [(5, 0xFFFFFFF0), (1, 8)] =
    some (0x0000008F, .ss, 5) := by decide

theorem test_T129 : addressOf [0x0F, 0x7E, 0x04, 0x8F] [(7, 0x4000), (1, 3)] =
    some (0x400C, .ds, 4) := by decide

theorem test_T130 : addressOf [0x36, 0x0F, 0x7F, 0x03] [(3, 0x10)] =
    some (0x10, .ss, 4) := by decide

/-! ## Results (T20 to T99) -/

theorem test_T20_packsswb : vec .packsswb 0x7FFF0080FF7F0001 0x8000FF80007F0100 = some 0x80807F7F7F7F8001 := by decide

theorem test_T21_packssdw : vec .packssdw 0x0001000000007FFF 0x80000000FFFF8000 = some 0x800080007FFF7FFF := by decide

theorem test_T22_packuswb : vec .packuswb 0x7FFF0080FFFF00FF 0x8000010000FE0100 = some 0x00FFFEFFFF8000FF := by decide

theorem test_T24_punpckhbw : vec .punpckhbw 0x8877665544332211 0xFFEEDDCCBBAA9900 = some 0xFF88EE77DD66CC55 := by decide

theorem test_T25_punpckhwd : vec .punpckhwd 0x8877665544332211 0xFFEEDDCCBBAA9900 = some 0xFFEE8877DDCC6655 := by decide

theorem test_T26_punpckhdq : vec .punpckhdq 0x8877665544332211 0xFFEEDDCCBBAA9900 = some 0xFFEEDDCC88776655 := by decide

theorem test_T27_punpcklbw : vec .punpcklbw 0x8877665544332211 0xFFEEDDCCBBAA9900 = some 0xBB44AA3399220011 := by decide

theorem test_T28_punpcklwd : vec .punpcklwd 0x8877665544332211 0xFFEEDDCCBBAA9900 = some 0xBBAA443399002211 := by decide

theorem test_T29_punpckldq : vec .punpckldq 0x8877665544332211 0xFFEEDDCCBBAA9900 = some 0xBBAA990044332211 := by decide

theorem test_T40_paddb : vec .paddb 0x7F80FF0102030405 0x0180010102030405 = some 0x800000020406080A := by decide

theorem test_T41_paddw : vec .paddw 0x7FFF8000FFFF0001 0x000180000001FFFF = some 0x8000000000000000 := by decide

theorem test_T42_paddd : vec .paddd 0x7FFFFFFFFFFFFFFF 0x0000000100000001 = some 0x8000000000000000 := by decide

theorem test_T43_paddsb : vec .paddsb 0x7F80FF0140C0647F 0x0180010140C0647F = some 0x7F8000027F807F7F := by decide

theorem test_T44_paddsw : vec .paddsw 0x7FFF8000FFFF4000 0x0001800000014000 = some 0x7FFF800000007FFF := by decide

theorem test_T45_paddusb : vec .paddusb 0xFF80FF01FE000102 0x0180010101000304 = some 0xFFFFFF02FF000406 := by decide

theorem test_T46_paddusw : vec .paddusw 0xFFFF8000FFFE0001 0x0001800000010002 = some 0xFFFFFFFFFFFF0003 := by decide

theorem test_T47_psubb : vec .psubb 0x0080FF0110203040 0x0101010120203050 = some 0xFF7FFE00F00000F0 := by decide

theorem test_T48_psubw : vec .psubw 0x00008000FFFF0005 0x0001000100010003 = some 0xFFFF7FFFFFFE0002 := by decide

theorem test_T49_psubd : vec .psubd 0x0000000080000000 0x0000000100000001 = some 0xFFFFFFFF7FFFFFFF := by decide

theorem test_T50_psubsb : vec .psubsb 0x807F00FF7F80C040 0x01FF80017F807FC0 = some 0x807F7FFE0000807F := by decide

theorem test_T51_psubsw : vec .psubsw 0x80007FFF00000005 0x0001FFFF80000003 = some 0x80007FFF7FFF0002 := by decide

theorem test_T52_psubusb : vec .psubusb 0x00FF80011020FF05 0x01FF81001030FE05 = some 0x0000000100000100 := by decide

theorem test_T53_psubusw : vec .psubusw 0x0000FFFF80000005 0x0001FFFE80010003 = some 0x0000000100000002 := by decide

theorem test_T55_pmulhw : vec .pmulhw 0x7FFF8000FFFF0100 0x7FFF8000FFFF0100 = some 0x3FFF400000000001 := by decide

theorem test_T57_pmulhw : vec .pmulhw 0x7FFF800000020003 0x80007FFFFFFF4000 = some 0xC000C000FFFF0000 := by decide

theorem test_T56_pmullw : vec .pmullw 0x7FFF8000FFFF0100 0x7FFF8000FFFF0100 = some 0x0001000000010000 := by decide

theorem test_T58_pmullw : vec .pmullw 0x7FFF800000020003 0x80007FFFFFFF4000 = some 0x80008000FFFEC000 := by decide

theorem test_T60_pmaddwd : vec .pmaddwd 0x8000800080008000 0x8000800080008000 = some 0x8000000080000000 := by decide

theorem test_T61_pmaddwd : vec .pmaddwd 0x7FFF7FFFFFFF0001 0x7FFF7FFF00010001 = some 0x7FFE000200000000 := by decide

theorem test_T70_pcmpeqb : vec .pcmpeqb 0x1122334455667788 0x1100334400667700 = some 0xFF00FFFF00FFFF00 := by decide

theorem test_T71_pcmpeqw : vec .pcmpeqw 0x1122334455667788 0x1122004455660088 = some 0xFFFF0000FFFF0000 := by decide

theorem test_T72_pcmpeqd : vec .pcmpeqd 0x1122334455667788 0x1122334455667789 = some 0xFFFFFFFF00000000 := by decide

theorem test_T73_pcmpgtb : vec .pcmpgtb 0x7F80FF0001FE0580 0x807F00FF0001057F = some 0xFF0000FFFF000000 := by decide

theorem test_T74_pcmpgtw : vec .pcmpgtw 0x7FFF8000FFFF0001 0x80007FFF00000001 = some 0xFFFF000000000000 := by decide

theorem test_T75_pcmpgtd : vec .pcmpgtd 0x7FFFFFFF80000000 0x800000007FFFFFFF = some 0xFFFFFFFF00000000 := by decide

theorem test_T80_pand : vec .pand 0xFFFF0000FF00F0F0 0x123456789ABCDEF0 = some 0x123400009A00D0F0 := by decide

theorem test_T81_pandn : vec .pandn 0xFFFF0000FF00F0F0 0x123456789ABCDEF0 = some 0x0000567800BC0E00 := by decide

theorem test_T82_por : vec .por 0xFFFF0000FF00F0F0 0x123456789ABCDEF0 = some 0xFFFF5678FFBCFEF0 := by decide

theorem test_T83_pxor : vec .pxor 0xFFFF0000FF00F0F0 0x123456789ABCDEF0 = some 0xEDCB567865BC2E00 := by decide

theorem test_T90_psllw : vec .psllw 0x8001FFFF00017FFF 0x0000000100000001 = some 0 := by decide

theorem test_T91_psrlw : vec .psrlw 0x8001FFFF00017FFF 1 = some 0x40007FFF00003FFF := by decide

theorem test_T92_psraw : vec .psraw 0x8001FFFF00017FFF 0x0000000100000000 = some 0xFFFFFFFF00000000 := by decide

theorem test_T93_pslld : vec .pslld 0x80000001FFFFFFFF 4 = some 0x00000010FFFFFFF0 := by decide

theorem test_T94_psrld : vec .psrld 0x80000001FFFFFFFF 31 = some 0x0000000100000001 := by decide

theorem test_T95_psrad : vec .psrad 0x800000017FFFFFFF 0x8000000000000000 = some 0xFFFFFFFF00000000 := by decide

theorem test_T96_psllq : vec .psllq 0x0123456789ABCDEF 63 = some 0x8000000000000000 := by decide

theorem test_T97_psrlq : vec .psrlq 0x8123456789ABCDEF 0x0000000100000000 = some 0 := by decide

theorem test_T90_psllwImm : vecImm .psllwImm 0x8001FFFF00017FFF 15 = some 0x8000800080008000 := by decide

theorem test_T91_psrlwImm : vecImm .psrlwImm 0x8001FFFF00017FFF 16 = some 0 := by decide

theorem test_T92_psrawImm : vecImm .psrawImm 0x8001FFFF00017FFF 255 = some 0xFFFFFFFF00000000 := by decide

theorem test_T93_pslldImm : vecImm .pslldImm 0x80000001FFFFFFFF 32 = some 0 := by decide

theorem test_T94_psrldImm : vecImm .psrldImm 0x80000001FFFFFFFF 4 = some 0x080000000FFFFFFF := by decide

theorem test_T95_psradImm : vecImm .psradImm 0x800000017FFFFFFF 4 = some 0xF800000007FFFFFF := by decide

theorem test_T96_psllqImm : vecImm .psllqImm 0x0123456789ABCDEF 8 = some 0x23456789ABCDEF00 := by decide

theorem test_T97_psrlqImm : vecImm .psrlqImm 0x8123456789ABCDEF 63 = some 1 := by decide

/-- `PSLLW MM2, MM2`: count and data in one register, both read before the write (T99). -/
theorem test_T99_psllw :
    ((nextOf (exec (.psllw none 2 (.reg 2)) (setMm base 2 4))).map fun t => t.mm 2) =
      some 0x40 := by decide

/-! ## Data transfer (T1 to T10), EMMS (T110, T111) -/

/-- T1: the upper half is zeroed. -/
theorem test_T1_movdToMm :
    ((nextOf (exec (.movdToMm none 0 (.reg 0)) ((two 0xFFFFFFFFFFFFFFFF 0).writeReg 0 0x89ABCDEF))).map
      fun t => t.mm 0) = some 0x0000000089ABCDEF := by decide

/-- T2: only four bytes are read. -/
theorem test_T2_movdToMm :
    ((nextOf (exec (.movdToMm none 1 (.mem (.base 3 .none)))
      (poke (base.writeReg 3 0x1000) 0x1000 [0xEF, 0xCD, 0xAB, 0x89, 0x11, 0x22, 0x33, 0x44]))).map
      fun t => t.mm 1) = some 0x0000000089ABCDEF := by decide

/-- T3: a general register is written, the MMX register is not. -/
theorem test_T3_movdFromMm :
    ((nextOf (exec (.movdFromMm none 3 (.reg 1)) (setMm base 3 0x0123456789ABCDEF))).map
      fun t => (t.reg 1, t.mm 3, t.x87Top 3, t.tag)) =
      some (0x89ABCDEF, 0x0123456789ABCDEF, 0, 0) := by decide

/-- T4: four bytes are stored and the next ones kept. -/
theorem test_T4_movdFromMm :
    ((nextOf (exec (.movdFromMm none 0 (.mem (.base 7 .none)))
      (poke ((two 0x0123456789ABCDEF 0).writeReg 7 0x2000) 0x2000 [0x55, 0x55, 0x55, 0x55, 0x55]))).map
      fun t => [t.byteAt 0x2000, t.byteAt 0x2001, t.byteAt 0x2002, t.byteAt 0x2003, t.byteAt 0x2004]) =
      some [0xEF, 0xCD, 0xAB, 0x89, 0x55] := by decide

/-- T7: little-endian. -/
theorem test_T7_movqToMm :
    ((nextOf (exec (.movqToMm none 0 (.mem (.base 6 .none)))
      (poke (base.writeReg 6 0x1000) 0x1000 [0xEF, 0xCD, 0xAB, 0x89, 0x67, 0x45, 0x23, 0x01]))).map
      fun t => t.mm 0) = some 0x0123456789ABCDEF := by decide

/-- T9: the side effects of a move to itself. -/
theorem test_T9_movqToMm :
    ((nextOf (exec (.movqToMm none 5 (.reg 5))
      { base with x87 := base.x87.set 5 0x3FFF0123456789ABCDEF, tag := 0xFFFF, fsw := 0x1800 })).map
      fun t => (t.mm 5, t.x87Top 5, t.tag, t.tos, t.eip)) =
      some (0x0123456789ABCDEF, 0xFFFF, 0x0000, 0, 0x00400003) := by decide

/-- T6: the store opcode with a register destination writes `rm`. -/
theorem test_T6_movqFromMm :
    ((nextOf (exec (.movqFromMm none 1 (.reg 2)) (setMm base 1 0x1111111122222222))).map
      fun t => (t.mm 2, t.x87Top 2, t.x87Top 1)) = some (0x1111111122222222, 0xFFFF, 0) := by decide

/-- T8: a misaligned store. -/
theorem test_T8_movqFromMm :
    ((nextOf (exec (.movqFromMm none 0 (.mem (.base 7 .none)))
      ((two 0x0123456789ABCDEF 0).writeReg 7 0x2001))).map
      fun t => [t.byteAt 0x2000, t.byteAt 0x2001, t.byteAt 0x2002, t.byteAt 0x2008, t.byteAt 0x2009]) =
      some [0, 0xEF, 0xCD, 0x01, 0] := by decide

/-- T110, T111: the tags become empty, `TOS` 0, the register keeps its value. -/
theorem test_T111_emms :
    ((nextOf (exec (.emms none)
      { setMm base 3 0x1122334455667788 with tag := 0x1234, fsw := 0x2800 })).map
      fun t => (t.tag, t.tos, t.mm 3, t.x87Top 3, t.eip)) =
      some (0xFFFF, 0, 0x1122334455667788, 0, 0x00400002) := by decide

/-- T111 with `EMMS_TOS_ZERO` false. -/
theorem test_T111_emms_tos :
    ((nextOf (exec (.emms none) { base with
      tag := 0x1234, fsw := 0x2800, launch := { base.launch with emmsTosZero := false } })).map
      fun t => (t.tag, t.tos)) = some (0xFFFF, 5) := by decide

/-! ## Faults and refusals (T140 to T158) -/

/-- `CR0` with `TS` set. -/
def tsSet (s : State) : State := { s with cr0 := s.cr0 ||| 8 }

/-- `CR0` with `EM` set. -/
def emSet (s : State) : State := { s with cr0 := s.cr0 ||| 4 }

/-- A pending x87 error. -/
def pendingSet (s : State) : State := { s with fsw := s.fsw ||| 0x80 }

/-- `ALIGN_CHECK` (R55). -/
def alignSet (s : State) : State :=
  { s with cr0 := s.cr0 ||| 0x40000, eflags := s.eflags ||| 0x40000, cpl := 3 }

theorem test_T140 : faultOf (step (tsSet (code [0x0F, 0xFC, 0xC1]))) = some .deviceNotAvailable := by decide

theorem test_T141 :
    faultOf (step (emSet (tsSet (code [0x0F, 0xFC, 0xC1])))) = some .invalidOpcode := by decide

theorem test_T142 : faultOf (step (pendingSet (code [0x0F, 0x77]))) = some .x87Error := by decide

theorem test_T143 : faultOf (step (emSet (code [0x0F, 0x77]))) = some .invalidOpcode := by decide

theorem test_T145 : faultOf (step (code [0xF0, 0x0F, 0x7F, 0x07])) = some .invalidOpcode := by decide

theorem test_T146 : faultOf (step (code [0x0F, 0x71, 0x10, 0x07])) = some .invalidOpcode := by decide

theorem test_T148 : faultOf (step (code [0x0F, 0x73, 0xE0, 0x01])) = some .invalidOpcode := by decide

theorem test_T149 :
    refusalOf (step (code [0x66, 0x0F, 0xFC, 0xC1])) = some (.encoding (.prefixByte 0x66)) := by decide

theorem test_T150 :
    refusalOf (step (code [0x0F, 0xD4, 0xC1])) = some (.encoding (.opcode 0xD4 "PADDQ")) := by decide

theorem test_T151 :
    refusalOf (step (code [0x0F, 0x70, 0xC1, 0x1B])) = some (.encoding (.opcode 0x70 "PSHUFW")) := by
  decide

theorem test_T152 : refusalOf (step (code [0xF4])) = some (.encoding (.firstByte 0xF4)) := by decide

theorem test_T153 :
    faultOf (step ((code [0x0F, 0x6F, 0x06]).writeReg 6 0xFFFFFFFC)) = some .generalProtection := by
  decide

theorem test_T154 :
    faultOf (step ((code [0x0F, 0x6F, 0x45, 0x00]).writeReg 5 0xFFFFFFFC)) = some .stackFault := by decide

theorem test_T155 :
    faultOf (step (tsSet ((code [0x0F, 0x6F, 0x06]).writeReg 6 0xFFFFFFFC))) =
      some .deviceNotAvailable := by decide

theorem test_T156 :
    faultOf (step (alignSet ((code [0x0F, 0x6E, 0x06]).writeReg 6 0x1002))) = some .alignmentCheck := by
  decide

theorem test_T156_aligned :
    (nextOf (step (alignSet ((code [0x0F, 0x6E, 0x06]).writeReg 6 0x1004)))).isSome = true := by decide

theorem test_T157 :
    refusalOf (step ((code [0x0F, 0x7F, 0x07]).writeReg 7 0x00400002)) = some .storeToCode := by decide

theorem test_T158 :
    refusalOf (step (code [0x26, 0x2E, 0x0F, 0x6F, 0x06])) = some (.encoding (.prefixByte 0x2E)) := by
  decide

/-- T31: `PUNPCKLBW` from memory completes under an `Admit` that denies bytes `EA+4 .. EA+7`. -/
theorem test_T31 :
    ((nextOf (exec (.punpcklbw none 0 (.mem (.base 3 .none)))
      { poke ((two 0x8877665544332211 0).writeReg 3 0x1000) 0x1000 [0x00, 0x99, 0xAA, 0xBB] with
        launch := { base.launch with
          denials := [⟨none, none, ⟨0x1004, 0x1008⟩, false, .page false false⟩] } })).map
      fun t => t.mm 0) = some 0xBB44AA3399220011 := by decide

/-- A page fault's code and address (R268): a store at privilege level 3 to a present page. -/
theorem test_page_fault :
    faultOf (exec (.movqFromMm none 0 (.mem (.abs 0x0FFC)))
      { base with
        cpl := 3
        launch := { base.launch with
          denials := [⟨none, some .write, ⟨0x1000, 0x2000⟩, true, .page true false⟩] } }) =
      some (.pageFault 0b00111 0x1000) := by decide

/-- The machine does not run at reset: real-address mode is refused (R92, R300). -/
theorem test_reset_refused : refusalOf (step State.reset) = some (.mode .realAddress) := by decide

/-- A word of the opcode table runs as the first instruction placed after reset. -/
theorem test_withFetchWord :
    ((nextOf (step (State.reset.withFetchWord 24 0x0FEFC0))).map fun t => (t.eip, t.tag)) =
      some (0x0000FFF3, 0) := by decide

/-- The opcode table's numbers of a row of each format (R98). -/
theorem test_decodeTableWord :
    decodeTableWord 24 0x0FFCC1 = some (.paddb none 0 (.reg 1)) ∧
      decodeTableWord 16 0x0F77 = some (.emms none) := by decide

/-! ## Witnesses: states and operands that meet the hypotheses of the statements -/

/-- DecodeOfEncode, EncodeOfDecode, LengthFromFields: a prefix, a SIB byte and a displacement. -/
theorem witness_encoding :
    (Instr.movqToMm (some .ss) 7 (.mem (.sib 3 4 5 (.d8 0x80)))).wf = true ∧
      decode [0x36, 0x0F, 0x6F, 0x7C, 0xE5, 0x80] =
        .instr (.movqToMm (some .ss) 7 (.mem (.sib 3 4 5 (.d8 0x80)))) [] := by decide

/-- StepRunsDecoded, StepRunsCodeBytes, StepKeepsMemoryCanonical. -/
theorem witness_step :
    let s := code [0x0F, 0xFC, 0xC1]
    s.eip ≠ s.launch.endAddr ∧ s.mode = .protected32 ∧ (Instr.paddb none 0 (.reg 1)).wf = true ∧
      decode (fetch s) = .instr (.paddb none 0 (.reg 1)) [] ∧
      CodeAt s (encode (.paddb none 0 (.reg 1))) ∧ Memory.wf s.mem = true ∧ ∃ t, step s = .next t :=
  ⟨by decide, by decide, by decide, by decide, by unfold CodeAt; decide, by decide,
    next_of_isSome (by decide)⟩

/-- LockRaisesInvalidOpcode, UnlistedEncodings (a): `LOCK` first, and after an override. -/
theorem witness_lock :
    ((code [0xF0]).eip ≠ (code [0xF0]).launch.endAddr ∧ (code [0xF0]).mode = .protected32 ∧
      CodeAt (code [0xF0]) (prefixBytes none ++ [0xF0])) ∧
    ((code [0x64, 0xF0]).eip ≠ (code [0x64, 0xF0]).launch.endAddr ∧
      (code [0x64, 0xF0]).mode = .protected32 ∧
      CodeAt (code [0x64, 0xF0]) (prefixBytes (some .fs) ++ [0xF0])) :=
  ⟨⟨by decide, by decide, by unfold CodeAt; decide⟩, ⟨by decide, by decide, by unfold CodeAt; decide⟩⟩

/-- UnlistedEncodings: a shift with a memory operand, an unlisted extension of `71` and of `73`, the
opcode `FF`, and a first byte that is no escape. -/
theorem witness_unlisted :
    CodeAt (code [0x0F, 0x71, 0x10]) (prefixBytes none ++ [0x0F, 0x71, 0x10]) ∧
    CodeAt (code [0x0F, 0x72, 0xF8]) (prefixBytes none ++ [0x0F, 0x72, 0xF8]) ∧
    CodeAt (code [0x26, 0x0F, 0x73, 0xE0]) (prefixBytes (some .es) ++ [0x0F, 0x73, 0xE0]) ∧
    CodeAt (code [0x0F, 0xFF]) (prefixBytes none ++ [0x0F, 0xFF]) ∧
    CodeAt (code [0x90]) (prefixBytes none ++ [0x90]) ∧
    (code [0x90]).eip ≠ (code [0x90]).launch.endAddr ∧ (code [0x90]).mode = .protected32 :=
  ⟨by unfold CodeAt; decide, by unfold CodeAt; decide, by unfold CodeAt; decide,
    by unfold CodeAt; decide, by unfold CodeAt; decide, by decide, by decide⟩

/-- RefusedPrefixes: `66` first, and a second override. -/
theorem witness_prefix :
    CodeAt (code [0x66]) (prefixBytes none ++ [0x66]) ∧
    CodeAt (code [0x26, 0x2E]) (prefixBytes (some .es) ++ [0x2E]) ∧
    (code [0x66]).eip ≠ (code [0x66]).launch.endAddr ∧ (code [0x66]).mode = .protected32 :=
  ⟨by unfold CodeAt; decide, by unfold CodeAt; decide, by decide, by decide⟩

/-- A program of two bytes that end before their instruction does, at an address. -/
def cut (a : Dword) : State :=
  let s := State.launchedOn { base with eip := a } [0x0F, 0x6F]
  { s with launch := { s.launch with endAddr := 0x10 } }

/-- A launch with no program. -/
def noCode : State := { base with launch := { base.launch with codeRange := [] } }

/-- FetchConfined: `CodeRange` ends after two bytes, it is empty, and the address space ends. -/
theorem witness_fetch :
    ((cut 0x00400000).eip ≠ (cut 0x00400000).launch.endAddr ∧ (cut 0x00400000).mode = .protected32 ∧
      CodeAt (cut 0x00400000) [0x0F, 0x6F] ∧ decode [0x0F, 0x6F] = .short ∧
      (cut 0x00400000).eip.toNat + 2 < 4294967296 ∧
      (cut 0x00400000).inCode ((cut 0x00400000).eip.toNat + 2) = false) ∧
    (CodeAt noCode [] ∧ decode [] = .short ∧ noCode.inCode noCode.eip.toNat = false) ∧
    ((cut 0xFFFFFFFE).eip ≠ (cut 0xFFFFFFFE).launch.endAddr ∧ (cut 0xFFFFFFFE).mode = .protected32 ∧
      CodeAt (cut 0xFFFFFFFE) [0x0F, 0x6F] ∧ (cut 0xFFFFFFFE).eip.toNat + 2 = 4294967296) :=
  ⟨⟨by decide, by decide, by unfold CodeAt; decide, by decide, by decide, by decide⟩,
    ⟨by unfold CodeAt; decide, by decide, by decide⟩,
    ⟨by decide, by decide, by unfold CodeAt; decide, by decide⟩⟩

/-- RunEnds: at the end address, and away from it in another mode. -/
theorem witness_stop :
    (code []).eip = (code []).launch.endAddr ∧
    State.reset.eip ≠ State.reset.launch.endAddr ∧ State.reset.mode ≠ .protected32 := by decide

/-- ControlBitsGateEveryInstruction, EipAdvancesByLength, and the first clause of every rule of an
instruction: no MMX; `EM`; `TS`; a pending error; and none of them. -/
theorem witness_checks :
    mmxCheck { base with launch := { base.launch with hasMmx := false } } = some .invalidOpcode ∧
    ((emSet base).cr0.getLsbD 2 = true ∧ mmxCheck (emSet base) = some .invalidOpcode) ∧
    ((tsSet base).launch.hasMmx = true ∧ (tsSet base).cr0.getLsbD 2 = false ∧
      (tsSet base).cr0.getLsbD 3 = true ∧ mmxCheck (tsSet base) = some .deviceNotAvailable) ∧
    ((pendingSet base).launch.hasMmx = true ∧ (pendingSet base).cr0.getLsbD 2 = false ∧
      (pendingSet base).cr0.getLsbD 3 = false ∧ (pendingSet base).fsw.getLsbD 7 = true ∧
      mmxCheck (pendingSet base) = some .x87Error) ∧
    faultOf (exec (.emms none) (pendingSet base)) = some .x87Error ∧ mmxCheck base = none := by decide

/-- FaultsArePrecise. -/
theorem witness_faults : ∃ f, step (emSet (code [0x0F, 0x77])) = .fault f := fault_of_isSome (by decide)

/-- A state whose launch denies bytes: a segment rule for writes and a page rule at level 3. -/
def denied : State :=
  { base with
    cpl := 3
    launch := { base.launch with
      denials := [⟨some .ss, some .write, ⟨0x1000, 0x1001⟩, false, .segment⟩,
        ⟨none, none, ⟨0x2007, 0x3000⟩, true, .page true true⟩] } }

/-- A state under `ALIGN_CHECK` whose launch rules by size, segment and start: eight bytes at `0x1000`
are a page fault and four bytes there pass, an operand passes the top of memory in `ES` only, and a
misaligned one at `0x2001` goes to the alignment check before the page of `denied` is looked at. -/
def ruled : State :=
  { alignSet denied with launch := { denied.launch with
    rulings := [⟨none, none, some 8, ⟨0x1000, 0x1001⟩, .page false false 3⟩,
      ⟨some .es, none, none, ⟨0xFFFFFFF9, 0x100000000⟩, .pass⟩,
      ⟨none, none, some 8, ⟨0x2001, 0x2002⟩, .pass⟩,
      ⟨some .fs, none, none, ⟨0, 0x100000000⟩, .segment⟩] } }

/-- What the rulings of R57's openness give (R57, D19): by size, by segment, and `#AC` before `#PF`. -/
theorem test_rulings :
    admission .ds 0x1000 8 .read ruled = some (.pageFault 0b00100 0x1003) ∧
    admission .ds 0x1000 4 .read ruled = none ∧
    admission .es 0xFFFFFFFC 8 .read { ruled with cpl := 0 } = none ∧
    admission .ds 0xFFFFFFFC 8 .read { ruled with cpl := 0 } = some .generalProtection ∧
    admission .ds 0x2001 8 .read ruled = some .alignmentCheck ∧
    admission .ds 0x2002 8 .read ruled = some (.pageFault 0b01101 0x2007) ∧
    admission .fs 0x3000 4 .read ruled = some .generalProtection := by decide

/-- AdmitContract: each fault, no fault, two states alike, and the default at the top of memory. -/
theorem witness_admit :
    admission .ss 0x0FFD 4 .write denied = some .stackFault ∧
    admission .ds 0xFFFFFFFD 4 .read base = some .generalProtection ∧
    admission .ds 0xFFFFFFFC 4 .read base = none ∧ admission .ds 0xFFFFFFF8 8 .read base = none ∧
    admission .ds 0x1004 8 .read (alignSet base) = some .alignmentCheck ∧
    (base.launch.rulings = [] ∧ base.launch.denials = [] ∧ base.launch.admitWrap = false) ∧
    ((tsSet base).launch = base.launch ∧ (tsSet base).alignCheck = base.alignCheck ∧
      (tsSet base).cpl = base.cpl) := by decide

/-- AdmitContract: an `Admit` that depends on the size of the operand and on where it starts. -/
theorem witness_conforming : Conforming base fun seg a n kind =>
    if n = 8 ∧ a = 0x1000 then some (.pageFault (pageFaultCode false false kind base) (a + 4))
    else if n = 4 then some (segmentException seg) else none where
  answers := fun seg a n kind x hn h => by
    split at h
    · rename_i hc
      cases h
      exact .inr (.inr (.inl ⟨false, false, 4, by omega, rfl⟩))
    · split at h
      · cases h
        cases seg <;> simp [segmentException]
      · cases h
  aligned := fun _ _ _ _ _ _ h => absurd h (by decide)

/-- SegmentDenialsRaise (the operand's last byte is denied) and PageFaultCode (both clauses, and a
ruling's page fault). -/
theorem witness_denials :
    (∃ d ∈ denied.launch.denials, d.cause = .segment ∧ d.Speaks .ss .write denied ∧ d.Covers 0x0FFD 4) ∧
    NoRuling denied .ss 0x0FFD 4 .write ∧
    admission .ds 0x2000 8 .read denied = some (.pageFault 0b01101 0x2007) ∧
    admission .ds 0x1000 8 .read ruled = some (.pageFault 0b00100 0x1003) ∧
    (∃ d ∈ denied.launch.denials, d.cause ≠ .segment ∧ d.Speaks .ds .read denied ∧ d.Covers 0x2000 8) ∧
    NoRuling denied .ds 0x2000 8 .read ∧ (0x2000 : Dword).toNat + 8 ≤ 4294967296 ∧
    (∀ e ∈ denied.launch.denials, e.cause = .segment → e.Speaks .ds .read denied →
      ¬ e.Covers 0x2000 8) :=
  ⟨⟨_, .head _, rfl, by unfold Denial.Speaks; decide, 3, by decide⟩, by unfold NoRuling; decide,
    by decide, by decide, ⟨_, .tail _ (.head _), by decide, by unfold Denial.Speaks; decide, 7, by decide⟩,
    by unfold NoRuling; decide, by decide, fun e he hc hs => absurd hs ((by
      unfold Denial.Speaks; decide :
        ∀ e ∈ denied.launch.denials, e.cause = .segment → ¬ e.Speaks .ds .read denied) e he hc)⟩

/-- AlignmentChecked, each clause. -/
theorem witness_alignment :
    admission .ds 0x1002 4 .read (alignSet base) = some .alignmentCheck ∧
      (alignSet base).cr0.getLsbD 18 = true ∧ (alignSet base).eflags.getLsbD 18 = true ∧
      (alignSet base).cpl = 3 ∧ (0x1002 : Dword).toNat % 4 ≠ 0 ∧
      verdictOf .ds 0x1002 4 .read (alignSet base) = .pass ∧
      NoRuling (alignSet base) .ds 0x1002 4 .read ∧
      (alignSet base).launch.denials = [] ∧ (0x1002 : Dword).toNat + 4 ≤ 4294967296 :=
  ⟨by decide, by decide, by decide, by decide, by decide, by decide, by unfold NoRuling; decide,
    by decide, by decide⟩

/-- MemoryPrimitives and LanesInMemory: an admitted and a denied read and write of each width. -/
theorem witness_memory :
    admission .ds 0x2004 4 .read denied = some (.pageFault 0b01101 0x2007) ∧
    admission .ds 0x2000 8 .read denied = some (.pageFault 0b01101 0x2007) ∧
    admission .ss 0x0FFD 4 .write denied = some .stackFault ∧
    admission .ds 0x1000 4 .read base = none ∧ admission .ds 0x1000 8 .read base = none ∧
    admission .ds 0x1000 (bytesOfQuad 1).length .write base = none ∧
    ¬ TouchesCode base 0x1000 (bytesOfQuad 1).length ∧ Memory.wf base.mem = true ∧
    ∃ v, memRead64 .ds 0x1000 base = .ok v :=
  ⟨by decide, by decide, by decide, by decide, by decide, by decide, by unfold TouchesCode; decide,
    by decide, ⟨_, rfl⟩⟩

/-- LoadsReturnStoredBytes: a quadword and a doubleword store, and loads at the store's address, in its
upper half, and overlapping it from below. -/
theorem witness_readback :
    (∃ t, memWrite .ds 0x1000 (bytesOfQuad 0x0123456789ABCDEF) base = .next t ∧
      admission .ss 0x1000 8 .read t = none ∧ admission .ss 0x1000 4 .read t = none ∧
      admission .ss (0x1000 + 4) 4 .read t = none ∧ admission .ds 0x0FFD 8 .read t = none) ∧
    (∃ t, memWrite .ds 0xFFFFFFFC (bytesOfDword 0x89ABCDEF) base = .next t ∧
      admission .ss 0xFFFFFFFC 4 .read t = none ∧ admission .ss 0xFFFFFFF8 8 .read t = none) ∧
    (∃ t, memWrite .ds 0x1001 (bytesOfDword 0x89ABCDEF) base = .next t ∧
      admission .ss 0x1001 8 .read t = none) ∧
    (bytesOfQuad 0).length = 8 ∧ (bytesOfDword 0).length = 4 ∧ Memory.wf base.mem = true :=
  ⟨⟨poke base 0x1000 (bytesOfQuad 0x0123456789ABCDEF), rfl, by decide, by decide, by decide, by decide⟩,
    ⟨poke base 0xFFFFFFFC (bytesOfDword 0x89ABCDEF), rfl, by decide, by decide⟩,
    ⟨poke base 0x1001 (bytesOfDword 0x89ABCDEF), rfl, by decide⟩, by decide, by decide, by decide⟩

/-- StepKeepsCode: a store by a step, with a byte of `CodeRange`; OnlyStoresChangeMemory: the byte that
it changes. -/
theorem witness_code :
    let s := (setMm (code [0x0F, 0x7F, 0x07]) 0 0x11).writeReg 7 0x1000
    (∃ t, step s = .next t) ∧ s.inCode (0x00400002 : Dword).toNat = true ∧
      ((nextOf (exec (.movqFromMm none 0 (.mem (.base 7 .none))) s)).map
        fun t => decide (t.byteAt 0x1000 ≠ s.byteAt 0x1000)) = some true :=
  ⟨next_of_isSome (by decide), by decide, by decide⟩

/-- The rules of instructions with a 64-bit source, and every statement about an instruction that
completes with an MMX destination: the source readable in a register and in memory, and not. -/
theorem witness_src64 :
    Ready base ∧ src64 none (.reg 1) (two 1 2) = .ok 2 ∧ (∃ v, src64 none (.mem (.abs 0x1000)) base = .ok v) ∧
    (∃ x, src64 none (.mem (.abs 0xFFFFFFF9)) base = .error x) ∧
    (∃ t, exec (.paddb none 0 (.reg 1)) base = .next t) ∧ mmDest (.paddb none 0 (.reg 1)) = some 0 ∧
    (∀ pre, Instr.paddb none 0 (.reg 1) ≠ .emms pre) ∧ base.launch.modelX87Alias = true :=
  ⟨by unfold Ready; decide, rfl, ⟨_, rfl⟩, ⟨_, rfl⟩, next_of_isSome (by decide), by decide,
    fun _ h => (by cases h), by decide⟩

/-- The rules of instructions with a 32-bit source. -/
theorem witness_src32 :
    Ready base ∧ src32 none (.reg 4) (base.writeReg 4 7) = .ok 7 ∧
    src32L none (.reg 1) (two 1 2) = .ok 2 ∧ (∃ v, src32L none (.mem (.abs 0xFFFFFFFC)) base = .ok v) ∧
    (∃ x, src32 none (.mem (.abs 0xFFFFFFFD)) base = .error x) ∧
    (∃ x, src32L none (.mem (.abs 0xFFFFFFFD)) base = .error x) :=
  ⟨by unfold Ready; decide, rfl, rfl, ⟨_, rfl⟩, ⟨_, rfl⟩, ⟨_, rfl⟩⟩

/-- MovdFromMmx, OnlyMovdWritesGeneralRegisters, MmxWriteSideEffect without an MMX destination. -/
theorem witness_general :
    Ready (two 5 0) ∧ (∃ t, exec (.movdFromMm none 0 (.reg 4)) (two 5 0) = .next t) ∧
    ((nextOf (exec (.movdFromMm none 0 (.reg 4)) (two 5 0))).map
      fun t => decide (t.reg 4 ≠ (two 5 0).reg 4)) = some true ∧
    mmDest (.movdFromMm none 0 (.reg 4)) = none :=
  ⟨by unfold Ready; decide, next_of_isSome (by decide), by decide, by decide⟩

/-- `base` with writes to the page of the program denied. -/
def readOnlyCode : State :=
  { base with launch := { base.launch with
    denials := [⟨none, some .write, ⟨0x400000, 0x401000⟩, false, .page true false⟩] } }

/-- The two stores: admitted away from `CodeRange`, admitted and touching it, not admitted, and not
admitted and touching it (DeniedStoresFault). -/
theorem witness_store :
    Ready base ∧ admission .ds 0x1000 8 .write base = none ∧ ¬ TouchesCode base 0x1000 8 ∧
    (admission .ds 0x003FFFF9 8 .write base = none ∧ TouchesCode base 0x003FFFF9 8) ∧
    (admission .ds 0x003FFFFC 4 .write base = none ∧ ¬ TouchesCode base 0x003FFFFC 4) ∧
    admission .ds 0xFFFFFFFD 4 .write base = some .generalProtection ∧ Memory.wf base.mem = true ∧
    Ready readOnlyCode ∧ TouchesCode readOnlyCode 0x004000FD 8 ∧
    admission .ds 0x004000FD 4 .write readOnlyCode = some (.pageFault 0b00011 0x004000FD) ∧
    admission .ds 0x004000FD 8 .write readOnlyCode = some (.pageFault 0b00011 0x004000FD) :=
  ⟨by unfold Ready; decide, by decide, by unfold TouchesCode; decide,
    ⟨by decide, by unfold TouchesCode; decide⟩, ⟨by decide, by unfold TouchesCode; decide⟩, by decide,
    by decide, by unfold Ready; decide, by unfold TouchesCode; decide, by decide, by decide⟩

/-- EflagsAreInert: every other flag changed, on an instruction that completes, one that faults and one
that is refused. -/
theorem witness_flags :
    (0xFFFBFFFD : Dword).getLsbD 18 = base.eflags.getLsbD 18 ∧ (0xFFFBFFFD : Dword) ≠ base.eflags ∧
    (∃ t, exec (.paddb none 0 (.reg 1)) base = .next t) ∧
    exec (.emms none) (emSet base) = raise .invalidOpcode (emSet base) ∧
    exec (.movqFromMm none 0 (.mem (.abs 0x00400000))) base = .refused .storeToCode :=
  ⟨by decide, by decide, next_of_isSome (by decide), rfl, rfl⟩

/-- X87AliasStateIsNeverRead: two states that differ in all of it, and a step that completes, one that
faults and one that is refused. -/
theorem witness_alias :
    let s := code [0x0F, 0xFC, 0xC1]
    let s' := { s with
      tag := 0xFFFF, fsw := 0x7F7F, x87 := Vector.replicate 8 0x12340000000000000000,
      launch := { s.launch with modelX87Alias := false, emmsTosZero := false } }
    SameButX87 s s' ∧ s'.tag ≠ s.tag ∧ (∃ t, step s = .next t) ∧
      step (emSet s) = raise .invalidOpcode (emSet s) ∧
      step (code [0x90]) = .refused (.encoding (.firstByte 0x90)) :=
  ⟨⟨by decide, rfl, rfl, rfl, rfl, rfl, rfl, rfl, rfl, rfl, rfl, rfl, rfl, rfl, rfl, rfl, rfl⟩, by decide,
    next_of_isSome (by decide), rfl, rfl⟩

/-- EffectiveAddress: each form, a displacement, an index, no index, no base. -/
theorem witness_address :
    takeRegMem 0x4C [0x8D, 0x7F] = some (.mem (.sib 2 1 5 (.d8 0x7F)), []) ∧
    takeRegMem 0x04 [0x75, 0x10, 0, 0, 0] = some (.mem (.sibNoBase 1 6 0x10), []) ∧
    takeRegMem 0x04 [0x24] = some (.mem (.sib 0 4 4 .none), []) ∧
    takeRegMem 0x05 [0x00, 0x10, 0, 0] = some (.mem (.abs 0x1000), []) ∧
    takeRegMem 0x48 [0xF8] = some (.mem (.base 0 (.d8 0xF8)), []) ∧
    takeRegMem 0x80 [0, 0, 0xFF, 0xFF] = some (.mem (.base 0 (.d32 0xFFFF0000)), []) := by decide

/-- EmmsEmptiesTags, OnlyEmmsEmptiesX87. -/
theorem witness_emms :
    Ready base ∧ (∃ t, exec (.emms none) base = .next t) ∧ base.launch.modelX87Alias = true ∧
      mmxCheck (emSet base) = some .invalidOpcode :=
  ⟨by unfold Ready; decide, next_of_isSome (by decide), by decide, by decide⟩

end Sys2Proof.Tests
end

section
/-! Proofs of the statements about the scope of a step (spec 00_scope.md). -/

namespace Sys2Proof.Machine

/-- Settles O5: a running machine is not stopped (`stop_none`), so the step takes the branch of the
decoded instruction, which `step_instr` says once for every use. -/
theorem stepRunsDecoded : Obligations.StepRunsDecoded := by
  unfold Obligations.StepRunsDecoded
  intro s i rest hrunning hprotected hdecode
  exact step_instr hrunning hprotected hdecode

end Sys2Proof.Machine
end

section
/-! Facts about every instruction that completes, in the terms of the frames `WritesMm`,
`WritesGeneral`, `WritesMemory` and `Touched`: the layer that the statements of spec 10_state.md use. -/

namespace Sys2Proof.Machine

/-- The frame of an instruction that completes: it writes one MMX register, one general register
(`MOVD r32, mm`) or some bytes of memory (the two stores) and nothing else, or it is `EMMS`. -/
theorem exec_next_frames {i : Instr} {s t : State} (h : exec i s = .next t) :
    (∃ d, mmDest i = some d ∧ WritesMm s t d i.length) ∨
    (∃ pre reg r, i = .movdFromMm pre reg (.reg r) ∧ WritesGeneral s t r i.length) ∨
    (∃ m n, mmDest i = none ∧ (∀ pre, i ≠ .emms pre) ∧
      WritesMemory s t (effAddr s m) n i.length) ∨
    (∃ pre, i = .emms pre ∧ t = s.empty.advance i.length) := by
  obtain ⟨-, ⟨d, v, hd, -, rfl⟩ | ⟨pre, reg, r, hi, rfl⟩ | ⟨pre, m, bs, hs, hd, -, -, rfl⟩ | hemms⟩ :=
    exec_next_cases h
  · exact .inl ⟨d, hd, writesMm_complete s d v _⟩
  · exact .inr (.inl ⟨pre, reg, r, hi, writesGeneral_complete s r _ _⟩)
  · have hnot : ∀ pre, i ≠ .emms pre := by rintro pre rfl; cases hs
    exact .inr (.inr (.inl ⟨m, bs.length, hd, hnot, writesMemory_complete s _ bs _⟩))
  · exact .inr (.inr (.inr hemms))

/-- `EMMS` keeps control, flags, privilege, segments, mode and launch (R221). -/
theorem sameSystem_empty_advance (s : State) (n : Nat) : SameSystem s (s.empty.advance n) :=
  ⟨by simp, by simp, by simp, by simp, by simp, by simp, by simp⟩

/-- No instruction that completes changes the system state (R28, R30, R33). -/
theorem exec_next_system {i : Instr} {s t : State} (h : exec i s = .next t) : SameSystem s t := by
  obtain ⟨d, -, hw⟩ | ⟨pre, reg, r, -, hw⟩ | ⟨m, n, -, -, hw⟩ | ⟨pre, -, rfl⟩ := exec_next_frames h
  · exact hw.system
  · exact hw.system
  · exact hw.system
  · exact sameSystem_empty_advance s _

/-- Every instruction that completes advances `EIP` by its length (R29). -/
theorem exec_next_eip {i : Instr} {s t : State} (h : exec i s = .next t) :
    t.eip = s.eip + BitVec.ofNat 32 i.length := by
  obtain ⟨d, -, hw⟩ | ⟨pre, reg, r, -, hw⟩ | ⟨m, n, -, -, hw⟩ | ⟨pre, -, rfl⟩ := exec_next_frames h
  · exact hw.eip
  · exact hw.eip
  · exact hw.eip
  · simp

/-- An instruction that completes is another than `EMMS` and has ended with `MMXTouch()`, or it is
`EMMS` (R10, R23, R221). -/
theorem exec_next_touched_or_emms {i : Instr} {s t : State} (h : exec i s = .next t) :
    ((∀ pre, i ≠ .emms pre) ∧ Touched s t) ∨
      (∃ pre, i = .emms pre ∧ t = s.empty.advance i.length) := by
  obtain ⟨d, hd, hw⟩ | ⟨pre, reg, r, hi, hw⟩ | ⟨m, n, -, hnot, hw⟩ | hemms := exec_next_frames h
  · exact .inl ⟨(by rintro pre rfl; cases hd), hw.touched⟩
  · exact .inl ⟨(by rintro pre' rfl; cases hi), hw.touched⟩
  · exact .inl ⟨hnot, hw.touched⟩
  · exact .inr hemms

/-- No tag is empty in a tag word that marks all registers valid (R25). -/
theorem not_x87Usable_of_tag_valid {t : State} (h : t.tag = 0x0000) : ¬ X87Usable t := by
  intro husable
  have htag : (0x0000 : BitVec 16).extractLsb' (2 * (0 : RegNum).toNat) 2 = 3 := h ▸ husable 0
  exact absurd htag (by decide)

/-- Every tag is empty in a tag word of ones (R25). -/
theorem x87Usable_of_tag_empty {t : State} (h : t.tag = 0xFFFF) : X87Usable t := by
  have hfields : ∀ i : RegNum, (0xFFFF : BitVec 16).extractLsb' (2 * i.toNat) 2 = 3 := by decide
  intro i
  rw [State.tagField, h]
  exact hfields i

end Sys2Proof.Machine
end

section
/-! Steps of two states that differ in x87 aliasing state only (spec 10_state.md R22, R37). -/

namespace Sys2Proof.Machine

variable {s s' s'' : State}

/-! ## `SameButX87` is an equivalence -/

theorem SameButX87.refl (s : State) : SameButX87 s s :=
  ⟨fun _ => rfl, rfl, rfl, rfl, rfl, rfl, rfl, rfl, rfl, rfl, rfl, rfl, rfl, rfl, rfl, rfl, rfl⟩

theorem SameButX87.symm (h : SameButX87 s s') : SameButX87 s' s where
  mm i := (h.mm i).symm
  gpr := h.gpr.symm
  eip := h.eip.symm
  eflags := h.eflags.symm
  cr0 := h.cr0.symm
  cr4 := h.cr4.symm
  cpl := h.cpl.symm
  segBase := h.segBase.symm
  mode := h.mode.symm
  mem := h.mem.symm
  pending := h.pending.symm
  hasMmx := h.hasMmx.symm
  rulings := h.rulings.symm
  denials := h.denials.symm
  admitWrap := h.admitWrap.symm
  codeRange := h.codeRange.symm
  endAddr := h.endAddr.symm

theorem SameButX87.trans (h : SameButX87 s s') (h' : SameButX87 s' s'') : SameButX87 s s'' where
  mm i := (h'.mm i).trans (h.mm i)
  gpr := h'.gpr.trans h.gpr
  eip := h'.eip.trans h.eip
  eflags := h'.eflags.trans h.eflags
  cr0 := h'.cr0.trans h.cr0
  cr4 := h'.cr4.trans h.cr4
  cpl := h'.cpl.trans h.cpl
  segBase := h'.segBase.trans h.segBase
  mode := h'.mode.trans h.mode
  mem := h'.mem.trans h.mem
  pending := h'.pending.trans h.pending
  hasMmx := h'.hasMmx.trans h.hasMmx
  rulings := h'.rulings.trans h.rulings
  denials := h'.denials.trans h.denials
  admitWrap := h'.admitWrap.trans h.admitWrap
  codeRange := h'.codeRange.trans h.codeRange
  endAddr := h'.endAddr.trans h.endAddr

/-! ## `MMXTouch()` and `EMMS` change aliasing state only -/

/-- A new tag word and a status word with the same pending bit are aliasing state only. -/
theorem sameButX87_of_words (s : State) (tag fsw : BitVec 16)
    (hpending : fsw.getLsbD 7 = s.fsw.getLsbD 7) : SameButX87 s { s with tag := tag, fsw := fsw } :=
  { SameButX87.refl s with pending := hpending }

theorem setTos_pending (fsw : BitVec 16) (t : BitVec 3) : (setTos fsw t).getLsbD 7 = fsw.getLsbD 7 :=
  setTos_rest fsw t 7 (.inl (by decide))

theorem sameButX87_touch (s : State) : SameButX87 s s.touch := by
  unfold State.touch
  split
  · exact sameButX87_of_words s _ _ (setTos_pending _ _)
  · exact .refl s

theorem sameButX87_empty (s : State) : SameButX87 s s.empty := by
  unfold State.empty
  split
  · refine sameButX87_of_words s _ _ ?_
    split
    · exact setTos_pending _ _
    · rfl
  · exact .refl s

/-! ## The updates of an instruction keep the relation -/

theorem SameButX87.advance (h : SameButX87 s s') (n : Nat) :
    SameButX87 (s.advance n) (s'.advance n) :=
  { h with eip := congrArg (· + BitVec.ofNat 32 n) h.eip }

theorem SameButX87.complete (h : SameButX87 s s') (n : Nat) :
    SameButX87 (s.complete n) (s'.complete n) :=
  (((sameButX87_touch s).symm.trans h).trans (sameButX87_touch s')).advance n

theorem SameButX87.empty (h : SameButX87 s s') : SameButX87 s.empty s'.empty :=
  ((sameButX87_empty s).symm.trans h).trans (sameButX87_empty s')

theorem SameButX87.writeMm (h : SameButX87 s s') (d : RegNum) (v : Quad) :
    SameButX87 (s.writeMm d v) (s'.writeMm d v) :=
  { h with mm := fun j => by rw [mm_writeMm, mm_writeMm, h.mm] }

theorem SameButX87.writeReg (h : SameButX87 s s') (d : RegNum) (w : Dword) :
    SameButX87 (s.writeReg d w) (s'.writeReg d w) :=
  { h with gpr := congrArg (fun g => g.set d.toNat w d.isLt) h.gpr }

theorem SameButX87.setMem (h : SameButX87 s s') (m : List Host.Cell) :
    SameButX87 { s with mem := m } { s' with mem := m } :=
  { h with mem := rfl }

/-! ## What an instruction and a step read is outside the aliasing state -/

theorem SameButX87.inputs (h : SameButX87 s s') : SameInputs s s' where
  mm := h.mm
  gpr := h.gpr
  mem := h.mem
  rulings := h.rulings
  denials := h.denials
  admitWrap := h.admitWrap
  alignCheck := by
    simp [State.alignCheck, State.am, State.ac, State.user, h.cr0, h.eflags, h.cpl]
  cpl := h.cpl

theorem SameButX87.mmxCheck (h : SameButX87 s s') : Machine.mmxCheck s' = Machine.mmxCheck s := by
  simp [Machine.mmxCheck, State.em, State.ts, h.cr0, h.pending, h.hasMmx]

theorem SameButX87.inCode (h : SameButX87 s s') (a : Nat) : s'.inCode a = s.inCode a := by
  simp [State.inCode, h.codeRange]

theorem SameButX87.stop (h : SameButX87 s s') : Machine.stop s' = Machine.stop s := by
  simp [Machine.stop, h.eip, h.endAddr, h.mode]

theorem SameButX87.fetchFrom (h : SameButX87 s s') (a n : Nat) :
    Machine.fetchFrom s' a n = Machine.fetchFrom s a n := by
  induction n generalizing a with
  | zero => rfl
  | succ n ih => simp only [Machine.fetchFrom, h.inCode, h.mem, ih]

theorem SameButX87.fetch (h : SameButX87 s s') : Machine.fetch s' = Machine.fetch s := by
  rw [Machine.fetch, Machine.fetch, h.eip, h.fetchFrom]

theorem SameButX87.fetchRefusal (h : SameButX87 s s') :
    Machine.fetchRefusal s' = Machine.fetchRefusal s := by
  rw [Machine.fetchRefusal, Machine.fetchRefusal, h.eip, h.fetch]

/-- An instruction answers alike in both states, as `exec_related` has it for a relation that the
updates keep. -/
theorem SameButX87.exec (h : SameButX87 s s') (i : Instr) :
    (∀ t, Machine.exec i s = .next t → ∃ t', Machine.exec i s' = .next t' ∧ SameButX87 t t') ∧
    (∀ x, Machine.exec i s = raise x s → Machine.exec i s' = raise x s') ∧
    (∀ r, Machine.exec i s = .refused r → Machine.exec i s' = .refused r) :=
  exec_related h.inputs h.mmxCheck h.inCode
    (fun d v n => (h.writeMm d v).complete n) (fun d v n => (h.writeReg d v).complete n)
    (fun m n => (h.setMem m).complete n) (fun n => h.empty.advance n) i

end Sys2Proof.Machine
end

section
/-! `EFLAGS` apart from `AC` is read and written by no instruction (spec 10_state.md R30). -/

namespace Sys2Proof.Machine

variable (s : State) (e : Dword)

/-! ## The updates of an instruction commute with setting `EFLAGS` -/

theorem touch_setEflags :
    ({ s with eflags := e } : State).touch = { s.touch with eflags := e } := by
  unfold State.touch
  split <;> rfl

theorem empty_setEflags :
    ({ s with eflags := e } : State).empty = { s.empty with eflags := e } := by
  unfold State.empty
  split <;> rfl

theorem complete_setEflags (n : Nat) :
    ({ s with eflags := e } : State).complete n = { s.complete n with eflags := e } := by
  rw [State.complete, touch_setEflags]
  rfl

/-- `t` has the flags of `s`, and `t'` is `t` but for flags `e`. -/
def KeepsFlags (s : State) (e : Dword) (t t' : State) : Prop :=
  t.eflags = s.eflags ∧ t' = { t with eflags := e }

/-- `MMXTouch(); pc <- pc + len` after an update `u` that keeps the flags of `s`. -/
theorem keepsFlags_complete {u : State} (hu : u.eflags = s.eflags) (n : Nat) :
    KeepsFlags s e (u.complete n) (({ u with eflags := e } : State).complete n) :=
  ⟨(complete_eflags u n).trans hu, complete_setEflags u e n⟩

theorem keepsFlags_empty (n : Nat) :
    KeepsFlags s e (s.empty.advance n) (({ s with eflags := e } : State).empty.advance n) :=
  ⟨empty_eflags s, by rw [empty_setEflags]; rfl⟩

/-- Operands and admission depend on no bit of `EFLAGS` but `AC` (R55). -/
theorem sameInputs_setEflags (hac : e.getLsbD 18 = s.eflags.getLsbD 18) :
    SameInputs s { s with eflags := e } where
  mm _ := rfl
  gpr := rfl
  mem := rfl
  rulings := rfl
  denials := rfl
  admitWrap := rfl
  alignCheck := by
    simp only [State.alignCheck, State.am, State.ac, State.user, hac]
  cpl := rfl

end Sys2Proof.Machine
end

section
/-! Proofs of the statements about the state (spec 10_state.md). -/

namespace Sys2Proof.Machine

/-- Settles O33: the two states stop, fetch and decode alike, and then either the decoded instruction
answers alike (`SameButX87.exec`) or both steps end in the same fault or refusal. -/
theorem x87AliasStateIsNeverRead : Obligations.X87AliasStateIsNeverRead := by
  unfold Obligations.X87AliasStateIsNeverRead
  intro s s' h
  unfold step
  rw [h.stop, h.fetch]
  cases stop s with
  | some r => simp [raise]
  | none =>
    cases decode (fetch s) with
    | instr i rest => exact h.exec i
    | invalid => simp [raise]
    | refused r => simp [raise]
    | short => simp [raise, h.fetchRefusal]

/-- Settles O10: an instruction that is incomplete is shorter than the longest one, so the fetch reads
exactly the program's bytes (`fetch_ends`) and the step refuses by where they end. -/
theorem fetchConfined : Obligations.FetchConfined := by
  unfold Obligations.FetchConfined
  intro s bs hrunning hprotected hcode hshort
  have hlength := decode_short_length hshort
  have hstep : fetch s = bs → step s = .refused (fetchRefusal s) := fun hfetch =>
    step_short hrunning hprotected (hfetch ▸ hshort)
  refine ⟨fun hbelow houtside => ?_, fun htop => ?_⟩
  · have hfetch := fetch_ends hcode hlength (.inr houtside)
    rw [hstep hfetch, fetchRefusal, hfetch, if_pos hbelow]
  · have hfetch := fetch_ends hcode hlength (.inl (Nat.le_of_eq htop.symm))
    rw [hstep hfetch, fetchRefusal, hfetch, if_neg (Nat.not_lt.mpr (Nat.le_of_eq htop.symm))]

/-- Settles O25: completion adds the length (`exec_next_eip`), and a fault carries the unchanged
state (`exec_fault`). -/
theorem eipAdvancesByLength : Obligations.EipAdvancesByLength := by
  unfold Obligations.EipAdvancesByLength
  intro i s
  refine ⟨fun t ht => ?_, fun x u hu => ?_⟩
  · rw [exec_next_eip ht, BitVec.toNat_add, BitVec.toNat_ofNat, Nat.add_mod_mod]
  · obtain ⟨y, hy⟩ := exec_fault hu
    cases hy
    rfl

/-- Settles O26: of the four frames only that of `MOVD r32, mm` lets a general register change, and
it keeps every register but the one named. -/
theorem onlyMovdWritesGeneralRegisters : Obligations.OnlyMovdWritesGeneralRegisters := by
  unfold Obligations.OnlyMovdWritesGeneralRegisters
  intro i s t g ht hchanged
  obtain ⟨d, -, hw⟩ | ⟨pre, reg, r, rfl, hw⟩ | ⟨m, n, -, -, hw⟩ | ⟨pre, -, rfl⟩ := exec_next_frames ht
  · exact absurd (hw.general g) hchanged
  · have hg : g = r := Decidable.byContradiction fun hne => hchanged (hw.others g hne)
    exact ⟨pre, reg, by rw [hg]⟩
  · exact absurd (hw.general g) hchanged
  · exact absurd (by simp [State.reg]) hchanged

/-- Settles O28: an instruction with an MMX destination has the frame `WritesMm`, which says both
clauses; every other frame keeps all 80 bits of all registers. -/
theorem mmxWriteSideEffect : Obligations.MmxWriteSideEffect := by
  unfold Obligations.MmxWriteSideEffect
  intro i s t ht
  obtain ⟨d, hd, hw⟩ | ⟨pre, reg, r, rfl, hw⟩ | ⟨m, n, hd, -, hw⟩ | ⟨pre, rfl, rfl⟩ :=
    exec_next_frames ht
  · rw [hd]
    refine ⟨?_, fun j hj => hw.others j fun hjd => hj (congrArg some hjd.symm)⟩
    rintro _ ⟨⟩ halias
    rw [hw.top, if_pos halias]
  · exact ⟨fun _ h => (by cases h), fun j _ => hw.x87 j⟩
  · rw [hd]
    exact ⟨fun _ h => (by cases h), fun j _ => hw.x87 j⟩
  · exact ⟨fun _ h => (by cases h), fun j _ => by simp [State.x87Reg]⟩

/-- Settles O29: every instruction but `EMMS` ends with `MMXTouch()` (`exec_next_touched_or_emms`). -/
theorem everyInstructionTouchesX87 : Obligations.EveryInstructionTouchesX87 := by
  unfold Obligations.EveryInstructionTouchesX87
  intro i s t ht hnot halias
  obtain ⟨-, htouched⟩ | ⟨pre, hi, -⟩ := exec_next_touched_or_emms ht
  · have htos := htouched.tos
    rw [if_pos halias] at htos
    exact ⟨by rw [htouched.tag, if_pos halias], htos, htouched.rest⟩
  · exact absurd hi (hnot pre)

/-- Settles O30: `MMXTouch()` leaves the tag word 0, in which no tag is empty; `EMMS` leaves it
`0xFFFF`, in which all are. -/
theorem onlyEmmsEmptiesX87 : Obligations.OnlyEmmsEmptiesX87 := by
  unfold Obligations.OnlyEmmsEmptiesX87
  intro i s t ht halias
  obtain ⟨hnot, htouched⟩ | ⟨pre, hi, rfl⟩ := exec_next_touched_or_emms ht
  · have htag : t.tag = 0x0000 := by rw [htouched.tag, if_pos halias]
    exact iff_of_false (not_x87Usable_of_tag_valid htag) fun ⟨pre, hi⟩ => hnot pre hi
  · have htag : (s.empty.advance i.length).tag = 0xFFFF := by
      rw [advance_tag, empty_tag, if_pos halias]
    exact iff_of_true (x87Usable_of_tag_empty htag) ⟨pre, hi⟩

/-- Settles O31: each of the four frames keeps the system state (`exec_next_system`). -/
theorem systemStateIsNeverWritten : Obligations.SystemStateIsNeverWritten := by
  unfold Obligations.SystemStateIsNeverWritten
  intro i s t ht
  exact exec_next_system ht

/-- Settles O32: the flags enter an instruction through `AC` only (`sameInputs_setEflags`), and every
update it makes commutes with setting them, so `exec_related` applies to `KeepsFlags`. -/
theorem eflagsAreInert : Obligations.EflagsAreInert := by
  unfold Obligations.EflagsAreInert
  intro i s e hac
  obtain ⟨hnext, hfault, hrefused⟩ :=
    exec_related (R := KeepsFlags s e) (sameInputs_setEflags s e hac) rfl (fun _ => rfl)
      (fun d v n => keepsFlags_complete s e (writeMm_eflags s d v) n)
      (fun d v n => keepsFlags_complete s e (writeReg_eflags s d v) n)
      (fun m n => keepsFlags_complete s e (u := { s with mem := m }) rfl n)
      (keepsFlags_empty s e) i
  refine ⟨fun t ht => ?_, hfault, hrefused⟩
  obtain ⟨t', ht', hflags, rfl⟩ := hnext t ht
  exact ⟨hflags, ht'⟩

/-- Settles O23: the reset state lists no byte, and the empty list is in the canonical form. -/
theorem resetMemoryCanonical : Obligations.ResetMemoryCanonical := by
  unfold Obligations.ResetMemoryCanonical
  exact ⟨rfl, rfl⟩

/-- Every x87 register is 0 after RESET (R36). -/
theorem reset_x87Reg (i : RegNum) : State.reset.x87Reg i = 0 := by
  simp [State.x87Reg, State.reset]

/-- Every general register is 0 after RESET; for `EAX` and `EDX` by the model's choice
(notes/assumptions/1.md). -/
theorem reset_reg (g : RegNum) : State.reset.reg g = 0 := by
  simp [State.reg, State.reset]

/-- Settles O34: the register files by `reset_x87Reg` and `reset_reg`, the rest field by field. -/
theorem resetValues : Obligations.ResetValues := by
  unfold Obligations.ResetValues
  have hmm : ∀ i, State.reset.mm i = 0 := fun i => by rw [State.mm, reset_x87Reg]; rfl
  have htop : ∀ i, State.reset.x87Top i = 0 := fun i => by rw [State.x87Top, reset_x87Reg]; rfl
  exact ⟨hmm, htop, rfl, rfl, rfl, fun g _ _ => reset_reg g, rfl, rfl, rfl, rfl, rfl, rfl, rfl⟩

/-- After INIT `CR0` keeps bits 30 and 29, has bit 4 set and the rest 0 (R36). -/
theorem afterInit_cr0_getLsbD (s : State) {k : Nat} (hk : k < 32) :
    s.afterInit.cr0.getLsbD k = if k = 29 ∨ k = 30 then s.cr0.getLsbD k else decide (k = 4) := by
  have hkept : ∀ k < 32, (0x60000000 : Dword).getLsbD k = decide (k = 29 ∨ k = 30) := by decide
  have hset : ∀ k < 32, (0x00000010 : Dword).getLsbD k = decide (k = 4) := by decide
  change ((s.cr0 &&& 0x60000000) ||| 0x00000010).getLsbD k = _
  rw [BitVec.getLsbD_or, BitVec.getLsbD_and, hkept k hk, hset k hk]
  split
  · next h => simp [h, show k ≠ 4 by omega]
  · next h => simp [h]

/-- Settles O35: INIT is one record update, so what it keeps and sets is read off field by field;
`CR0` bit by bit in `afterInit_cr0_getLsbD`. -/
theorem initValues : Obligations.InitValues := by
  unfold Obligations.InitValues
  intro s
  exact ⟨fun _ => rfl, rfl, rfl, fun _ => rfl, rfl, rfl, rfl,
    fun _ hk => afterInit_cr0_getLsbD s hk, rfl, rfl, rfl, rfl⟩

end Sys2Proof.Machine
end

section
/-! Memory admission (spec 20_memory.md R55, R57; 60_exceptions.md R265, R267, R268): what `Admit` can
answer, and which functions are the `Admit` of a launch. -/

namespace Sys2Proof.Machine

variable {seg : Seg} {a : Dword} {n : Nat} {kind : AccessKind} {s : State}

/-! ## The answers of `Admit` -/

/-- `ALIGN_CHECK` is `CR0.AM`, `EFLAGS.AC` and privilege level 3 (R5, R55). -/
theorem alignCheck_iff :
    s.alignCheck = true ↔
      s.cr0.getLsbD 18 = true ∧ s.eflags.getLsbD 18 = true ∧ s.cpl = 3 := by
  simp [State.alignCheck, State.am, State.ac, State.user, and_assoc]

/-- An operand that the launch lets pass meets the alignment check only (R55, R267). -/
theorem admission_of_pass (hv : verdictOf seg a n kind s = .pass) :
    admission seg a n kind s =
      if s.alignCheck = true ∧ a.toNat % n ≠ 0 then some .alignmentCheck else none := by
  simp [admission, hv, Verdict.exception]

/-- All that `Admit` can answer, by the launch's verdict (R57). -/
theorem admission_cases (seg : Seg) (a : Dword) (n : Nat) (kind : AccessKind) (s : State) :
    (verdictOf seg a n kind s = .pass ∧ admission seg a n kind s =
      if s.alignCheck = true ∧ a.toNat % n ≠ 0 then some .alignmentCheck else none) ∨
    (verdictOf seg a n kind s = .segment ∧
      admission seg a n kind s = some (segmentException seg)) ∨
    (∃ present rsvd k, verdictOf seg a n kind s = .page present rsvd k ∧
      admission seg a n kind s =
        some (.pageFault (pageFaultCode present rsvd kind s) (a + BitVec.ofNat 32 (k % n)))) := by
  cases hv : verdictOf seg a n kind s with
  | pass => exact .inl ⟨rfl, admission_of_pass hv⟩
  | segment => exact .inr (.inl ⟨rfl, by rw [admission, hv]; rfl⟩)
  | page present rsvd k => exact .inr (.inr ⟨present, rsvd, k, rfl, by rw [admission, hv]; rfl⟩)

/-- A segment violation is `#SS(0)` or `#GP(0)` and never `#AC(0)` (R265). -/
theorem segmentException_ne_alignmentCheck (seg : Seg) :
    segmentException seg ≠ .alignmentCheck := by
  rw [segmentException_eq]
  split <;> nofun

/-- `#AC(0)` is answered for misaligned operands under `ALIGN_CHECK` only (R55, R267). -/
theorem misaligned_of_alignmentCheck (h : admission seg a n kind s = some .alignmentCheck) :
    s.alignCheck = true ∧ a.toNat % n ≠ 0 := by
  obtain ⟨-, he⟩ | ⟨-, he⟩ | ⟨present, rsvd, k, -, he⟩ := admission_cases seg a n kind s
  · rw [he] at h
    split at h
    · next hmis => exact hmis
    · cases h
  · exact absurd (Option.some.inj (he.symm.trans h)) (segmentException_ne_alignmentCheck seg)
  · cases he.symm.trans h

/-- Under `ALIGN_CHECK` every admitted operand is aligned (R55). -/
theorem aligned_of_admitted (h : admission seg a n kind s = none) (hac : s.alignCheck = true) :
    a.toNat % n = 0 := by
  obtain ⟨-, he⟩ | ⟨-, he⟩ | ⟨present, rsvd, k, -, he⟩ := admission_cases seg a n kind s
  · refine Decidable.byContradiction fun hmis => ?_
    rw [he, if_pos ⟨hac, hmis⟩] at h
    cases h
  · cases he.symm.trans h
  · cases he.symm.trans h

/-- Where no ruling speaks and nothing is denied, only an operand that passes the top of memory is
stopped, unless the launch lets it go on at 0 (R50, R57). -/
theorem verdictOf_noDenials (hr : NoRuling s seg a n kind) (hd : s.launch.denials = []) :
    verdictOf seg a n kind s =
      if Config.addressSpace < a.toNat + n ∧ s.launch.admitWrap = false then .segment else .pass := by
  rw [verdictOf_noRuling hr, denialsVerdict]
  simp [segmentDenied_iff, hd]

/-- The default `Admit` (R57). -/
theorem admission_default (hr : s.launch.rulings = []) (hd : s.launch.denials = [])
    (hw : s.launch.admitWrap = false) :
    admission seg a n kind s =
      if Config.addressSpace < a.toNat + n then
        some (if seg = .ss then .stackFault else .generalProtection)
      else if s.alignCheck = true ∧ a.toNat % n ≠ 0 then some .alignmentCheck
      else none := by
  have hno : NoRuling s seg a n kind := by simp [NoRuling, hr]
  have hv := verdictOf_noDenials hno hd
  simp only [hw, and_true] at hv
  split
  · next htop =>
    rw [if_pos htop] at hv
    rw [admission, hv, ← segmentException_eq]
    rfl
  · next htop =>
    rw [if_neg htop] at hv
    exact admission_of_pass hv

/-! ## The functions that are an `Admit` (R57) -/

/-- The `Admit` of every launch conforms. -/
theorem admission_conforming (s : State) :
    Conforming s fun seg a n kind => admission seg a n kind s where
  answers := by
    intro seg a n kind x hn hx
    have hpos : 0 < n := by omega
    obtain ⟨-, he⟩ | ⟨-, he⟩ | ⟨present, rsvd, k, -, he⟩ := admission_cases seg a n kind s
    · rw [he] at hx
      split at hx
      · next hmis =>
        cases hx
        exact .inr (.inr (.inr ⟨rfl, hmis⟩))
      · cases hx
    · obtain rfl := Option.some.inj (he.symm.trans hx)
      rw [segmentException_eq]
      split
      · next hseg => exact .inl ⟨rfl, hseg⟩
      · next hseg => exact .inr (.inl ⟨rfl, hseg⟩)
    · obtain rfl := Option.some.inj (he.symm.trans hx)
      exact .inr (.inr (.inl ⟨present, rsvd, k % n, Nat.mod_lt k hpos, rfl⟩))
  aligned := fun _ _ _ _ _ h hac => aligned_of_admitted h hac

/-- Every answer of a conforming function is the exception of some verdict. -/
theorem Conforming.exists_verdict {f : Seg → Dword → Nat → AccessKind → Option Exception}
    (hf : Conforming s f) (seg : Seg) (a : Dword) (kind : AccessKind) (hn : n = 4 ∨ n = 8) :
    ∃ v : Verdict, v.exception seg a n kind s = f seg a n kind := by
  cases hx : f seg a n kind with
  | none =>
    have haligned := hf.aligned seg a n kind hn hx
    exact ⟨.pass, by simpa [Verdict.exception] using haligned⟩
  | some x =>
    obtain ⟨rfl, rfl⟩ | ⟨rfl, hseg⟩ | ⟨present, rsvd, k, hk, rfl⟩ | ⟨rfl, hac, hmis⟩ :=
      hf.answers seg a n kind x hn hx
    · exact ⟨.segment, rfl⟩
    · exact ⟨.segment, by simp [Verdict.exception, segmentException_eq, hseg]⟩
    · exact ⟨.page present rsvd k, by simp [Verdict.exception, Nat.mod_eq_of_lt hk]⟩
    · exact ⟨.pass, by simp [Verdict.exception, hac, hmis]⟩

/-- What a verdict raises does not depend on the launch's rulings. -/
theorem Verdict.exception_rulings (v : Verdict) (rulings : List Ruling) :
    v.exception seg a n kind { s with launch := { s.launch with rulings := rulings } } =
      v.exception seg a n kind s := by
  cases v <;> rfl

/-- Every conforming function is the `Admit` of the launch with some rulings: those that answer the
verdicts of `Conforming.exists_verdict` (notes/assumptions/5.md). -/
theorem Conforming.exists_launch {f : Seg → Dword → Nat → AccessKind → Option Exception}
    (hf : Conforming s f) :
    ∃ rulings : List Ruling, ∀ seg a n kind, n = 4 ∨ n = 8 →
      admission seg a n kind { s with launch := { s.launch with rulings := rulings } } =
        f seg a n kind := by
  have hverdict : ∀ seg a n kind, ∃ v : Verdict, n = 4 ∨ n = 8 →
      v.exception seg a n kind s = f seg a n kind := by
    intro seg a n kind
    by_cases hn : n = 4 ∨ n = 8
    · obtain ⟨v, hv⟩ := hf.exists_verdict seg a kind hn
      exact ⟨v, fun _ => hv⟩
    · exact ⟨.pass, fun h => absurd h hn⟩
  obtain ⟨rulings, hrulings⟩ := exists_rulings fun seg a n kind => (hverdict seg a n kind).choose
  refine ⟨rulings, fun seg a n kind hn => ?_⟩
  rw [admission, hrulings _ rfl seg a n kind hn, Verdict.exception_rulings]
  exact (hverdict seg a n kind).choose_spec hn

end Sys2Proof.Machine
end

section
/-! Reads and stores of memory (spec 20_memory.md R51 to R53, R61): the bytes that a read gives and
that a store leaves. -/

namespace Sys2Proof.Machine

/-! ## Bytes of words -/

/-- A part of a part of a word is a part of the word. -/
theorem extract_extract {w p q m n : Nat} (x : BitVec w) (h : q + n ≤ m) :
    (x.extractLsb' p m).extractLsb' q n = x.extractLsb' (p + q) n := by
  apply BitVec.eq_of_getLsbD_eq
  intro i hi
  simp only [BitVec.getLsbD_extractLsb', hi, show q + i < m by omega, decide_true, Bool.true_and,
    Nat.add_assoc]

/-- A word of `m` bytes is determined by them. -/
theorem eq_of_bytes {m : Nat} {x y : BitVec (8 * m)}
    (h : ∀ k, k < m → x.extractLsb' (8 * k) 8 = y.extractLsb' (8 * k) 8) : x = y := by
  apply BitVec.eq_of_getLsbD_eq
  intro i hi
  have hbit := congrArg (fun b => b.getLsbD (i % 8)) (h (i / 8) (by omega))
  simpa [BitVec.getLsbD_extractLsb', Nat.mod_lt, Nat.div_add_mod] using hbit

/-- A word lane is its two byte lanes, the low one first (R7, R53). -/
theorem wordLane_eq_byteLanes (v : Quad) (k : Nat) :
    wordLane v k = byteLane v (2 * k + 1) ++ byteLane v (2 * k) := by
  unfold wordLane byteLane
  rw [BitVec.extractLsb'_append_extractLsb'_eq_extractLsb' (by omega),
    show 8 * (2 * k) = 16 * k by omega]

/-- A doubleword lane is its four byte lanes, the lowest first (R7, R53). -/
theorem dwordLane_eq_byteLanes (v : Quad) (k : Nat) :
    dwordLane v k = byteLane v (4 * k + 3) ++ byteLane v (4 * k + 2) ++ byteLane v (4 * k + 1) ++
      byteLane v (4 * k) := by
  unfold dwordLane byteLane
  rw [BitVec.extractLsb'_append_extractLsb'_eq_extractLsb' (by omega),
    BitVec.extractLsb'_append_extractLsb'_eq_extractLsb' (by omega),
    BitVec.extractLsb'_append_extractLsb'_eq_extractLsb' (by omega),
    show 8 * (4 * k) = 32 * k by omega]

/-! ## Reads -/

/-- An admitted read of four bytes gives the bytes at the address, the lowest first (R51, R52). -/
theorem memRead32_admitted {seg : Seg} {a : Dword} {s : State}
    (h : admission seg a 4 .read s = none) :
    ∃ v, memRead32 seg a s = .ok v ∧
      ∀ k, k < 4 → v.extractLsb' (8 * k) 8 = s.byteAt (a + BitVec.ofNat 32 k) := by
  have hread := memRead32_ok.mpr ⟨h, rfl⟩
  exact ⟨_, hread, fun _ hk => memRead32_lanes hread hk⟩

/-- An admitted read of eight bytes gives the bytes at the address, the lowest first (R51, R52). -/
theorem memRead64_admitted {seg : Seg} {a : Dword} {s : State}
    (h : admission seg a 8 .read s = none) :
    ∃ v, memRead64 seg a s = .ok v ∧
      ∀ k, k < 8 → v.extractLsb' (8 * k) 8 = s.byteAt (a + BitVec.ofNat 32 k) := by
  have hread := memRead64_ok.mpr ⟨h, rfl⟩
  exact ⟨_, hread, fun _ hk => memRead64_lanes hread hk⟩

/-- An admitted read of four bytes that are those of `w` gives `w`. -/
theorem memRead32_eq {seg : Seg} {a : Dword} {s : State} {w : Dword}
    (h : admission seg a 4 .read s = none)
    (hw : ∀ k, k < 4 → s.byteAt (a + BitVec.ofNat 32 k) = w.extractLsb' (8 * k) 8) :
    memRead32 seg a s = .ok w := by
  obtain ⟨v, hread, hv⟩ := memRead32_admitted h
  have hvw : v = w := eq_of_bytes (m := 4) fun k hk => (hv k hk).trans (hw k hk)
  rw [hread, hvw]

/-- An admitted read of eight bytes that are those of `w` gives `w`. -/
theorem memRead64_eq {seg : Seg} {a : Dword} {s : State} {w : Quad}
    (h : admission seg a 8 .read s = none)
    (hw : ∀ k, k < 8 → s.byteAt (a + BitVec.ofNat 32 k) = w.extractLsb' (8 * k) 8) :
    memRead64 seg a s = .ok w := by
  obtain ⟨v, hread, hv⟩ := memRead64_admitted h
  have hvw : v = w := eq_of_bytes (m := 8) fun k hk => (hv k hk).trans (hw k hk)
  rw [hread, hvw]

/-! ## Stores -/

/-- A store that completes has stored its bytes in memory and changed nothing else (R52). -/
theorem memWrite_next {seg : Seg} {a : Dword} {bs : List Byte} {s t : State}
    (h : memWrite seg a bs s = .next t) : t = { s with mem := writeCells s.mem a bs } := by
  obtain ⟨x, -, he⟩ | ⟨-, -, he⟩ | ⟨-, -, he⟩ := memWrite_cases seg a bs s
  · cases he.symm.trans h
  · cases he.symm.trans h
  · cases he.symm.trans h
    rfl

/-- Storing bytes keeps every byte away from their addresses (R52). -/
theorem byteAt_writeCells_other (s : State) {a c : Dword} {bs : List Byte}
    (hout : ∀ k, k < bs.length → c ≠ a + BitVec.ofNat 32 k) :
    State.byteAt { s with mem := writeCells s.mem a bs } c = s.byteAt c := by
  refine readCell_writeCells_other s.mem a c bs fun hc => ?_
  obtain ⟨k, hk, rfl⟩ := mem_operandBytes.mp hc
  exact hout k hk rfl

/-- After bytes were stored, each of them is at its address and every other byte is as before
(R51, R52). -/
theorem storedByte_writeCells {s : State} (hm : Memory.wf s.mem = true) (a : Dword) {bs : List Byte}
    (hl : bs.length ≤ Config.addressSpace) (c : Dword) :
    StoredByte s a bs c (State.byteAt { s with mem := writeCells s.mem a bs } c) := by
  refine ⟨?_, byteAt_writeCells_other s⟩
  rintro k hk rfl
  exact readCell_writeCells_same hm a bs hl k hk

/-- After a store that completes every byte of memory is the stored one or the one from before. -/
theorem storedByte_of_memWrite {seg : Seg} {a : Dword} {bs : List Byte} {s t : State}
    (hm : Memory.wf s.mem = true) (hl : bs.length ≤ Config.addressSpace)
    (h : memWrite seg a bs s = .next t) (c : Dword) : StoredByte s a bs c (t.byteAt c) := by
  rw [memWrite_next h]
  exact storedByte_writeCells hm a hl c

/-- After a quadword was stored its bytes lie at its address. -/
theorem byteAt_of_storeQuad {seg : Seg} {a : Dword} {v : Quad} {s t : State}
    (hm : Memory.wf s.mem = true) (h : memWrite seg a (bytesOfQuad v) s = .next t) {k : Nat}
    (hk : k < 8) : t.byteAt (a + BitVec.ofNat 32 k) = v.extractLsb' (8 * k) 8 := by
  have hspace : (bytesOfQuad v).length ≤ Config.addressSpace := by simp [bytesOfQuad, Config.addressSpace]
  obtain ⟨hstored, -⟩ := storedByte_of_memWrite hm hspace h (a + BitVec.ofNat 32 k)
  exact (hstored k hk rfl).trans (getElem_bytesOfQuad v hk)

/-- After a doubleword was stored its bytes lie at its address. -/
theorem byteAt_of_storeDword {seg : Seg} {a : Dword} {w : Dword} {s t : State}
    (hm : Memory.wf s.mem = true) (h : memWrite seg a (bytesOfDword w) s = .next t) {k : Nat}
    (hk : k < 4) : t.byteAt (a + BitVec.ofNat 32 k) = w.extractLsb' (8 * k) 8 := by
  have hspace : (bytesOfDword w).length ≤ Config.addressSpace := by simp [bytesOfDword, Config.addressSpace]
  obtain ⟨hstored, -⟩ := storedByte_of_memWrite hm hspace h (a + BitVec.ofNat 32 k)
  exact (hstored k hk rfl).trans (getElem_bytesOfDword w hk)

end Sys2Proof.Machine
end

section
/-! Memory over an instruction and a step (spec 20_memory.md R54, R64): which instructions store, where
and what; and the step on the bytes that the encoder writes (R94). -/

namespace Sys2Proof.Machine

/-! ## What an instruction does to memory -/

/-- An instruction that completes leaves memory as it was, or it stores its bytes away from
`CodeRange` (R54, R64). -/
theorem exec_next_mem {i : Instr} {s t : State} (h : exec i s = .next t) :
    t.mem = s.mem ∨
    ∃ pre m bs, storedBytes s i = some (pre, m, bs) ∧
      ¬ TouchesCode s (effAddr s m) bs.length ∧ t.mem = writeCells s.mem (effAddr s m) bs := by
  obtain ⟨-, ⟨d, v, -, -, rfl⟩ | ⟨pre, reg, r, -, rfl⟩ | ⟨pre, m, bs, hs, -, -, hcode, rfl⟩ |
    ⟨pre, -, rfl⟩⟩ := exec_next_cases h
  · exact .inl (by simp)
  · exact .inl (by simp)
  · exact .inr ⟨pre, m, bs, hs, hcode, by simp⟩
  · exact .inl (by simp)

/-- A byte that an instruction changes is one of those that it stores. -/
theorem exec_changed_byte {i : Instr} {s t : State} {a : Dword} (h : exec i s = .next t)
    (hchanged : t.byteAt a ≠ s.byteAt a) :
    ∃ pre m bs k, storedBytes s i = some (pre, m, bs) ∧
      ¬ TouchesCode s (effAddr s m) bs.length ∧ k < bs.length ∧
        a = effAddr s m + BitVec.ofNat 32 k := by
  obtain hmem | ⟨pre, m, bs, hs, hcode, hmem⟩ := exec_next_mem h
  · exact absurd (by rw [State.byteAt, hmem, State.byteAt]) hchanged
  · have ha : a ∈ operandBytes (effAddr s m) bs.length := by
      refine Decidable.byContradiction fun hout => hchanged ?_
      rw [State.byteAt, hmem]
      exact readCell_writeCells_other s.mem _ a bs hout
    obtain ⟨k, hk, hak⟩ := mem_operandBytes.mp ha
    exact ⟨pre, m, bs, k, hs, hcode, hk, hak⟩

/-- The instructions that store are `MOVD m32, mm`, four bytes, and `MOVQ m64, mm`, eight (R54). -/
theorem storedBytes_some {s : State} {i : Instr} {pre : Option Seg} {m : MemOperand}
    {bs : List Byte} (h : storedBytes s i = some (pre, m, bs)) :
    ∃ reg, (i = .movdFromMm pre reg (.mem m) ∧ bs.length = 4) ∨
      (i = .movqFromMm pre reg (.mem m) ∧ bs.length = 8) := by
  unfold storedBytes at h
  split at h
  · next pre reg m =>
    cases h
    exact ⟨reg, .inl ⟨rfl, rfl⟩⟩
  · next pre reg m =>
    cases h
    exact ⟨reg, .inr ⟨rfl, rfl⟩⟩
  · cases h

/-- A store that `Admit` denies raises its exception (R52). -/
theorem toMemory_denied {pre : Option Seg} {m : MemOperand} {len : Nat} {bs : List Byte} {s : State}
    {x : Exception} (hr : Ready s)
    (hx : admission (segOf pre m) (effAddr s m) bs.length .write s = some x) :
    toMemory pre m len bs s = raise x s := by
  unfold Ready at hr
  simp only [toMemory, hr, memWrite, hx]
  rfl

/-! ## Fetching what the encoder wrote -/

/-- The opcode map gives back every instruction from its format (R90). -/
theorem assemble_format (i : Instr) : assemble i.override i.format = some i := by
  cases i <;> rfl

/-- The decoder reads the encoder's bytes of a well-formed instruction back, whatever follows
(R94, R97). -/
theorem decode_encode {i : Instr} (hwf : i.wf = true) (rest : List Byte) :
    decode (encode i ++ rest) = .instr i rest := by
  rw [encode, List.append_assoc, List.cons_append, decode_prefix]
  exact decodeOpcode_bytes (i.wf_eq_format ▸ hwf) (assemble_format i) rest

/-- A format has at most seven bytes: opcode, ModRM, SIB and a displacement of four (R88). -/
theorem length_formatBytes_le (f : Format) : f.bytes.length ≤ 7 := by
  cases f with
  | rm op reg rm =>
    have hsize := rm.size_le
    simp only [Format.bytes, List.length_cons, RegMem.length_bytes]
    omega
  | shi op ext r imm => simp [Format.bytes]
  | bare op => simp [Format.bytes]

/-- No instruction is longer than a fetch (R88). -/
theorem length_encode_le (i : Instr) : (encode i).length ≤ Config.maxLength := by
  have hformat := length_formatBytes_le i.format
  have hprefix : (prefixBytes i.override).length ≤ 1 := by
    cases i.override <;> simp [prefixBytes]
  simp only [encode, List.length_append, List.length_cons, Config.maxLength]
  omega

end Sys2Proof.Machine
end

section
/-! Proofs of the statements about memory (spec 20_memory.md). -/

namespace Sys2Proof.Machine

/-- Settles O22: a step that completes is an instruction's execution, which keeps memory or stores
bytes in it, and storing bytes keeps the canonical form (`wf_writeCells`). -/
theorem stepKeepsMemoryCanonical : Obligations.StepKeepsMemoryCanonical := by
  unfold Obligations.StepKeepsMemoryCanonical
  intro s t hwf ht
  obtain ⟨i, -, -, hexec⟩ := step_next ht
  obtain hmem | ⟨-, m, bs, -, -, hmem⟩ := exec_next_mem hexec
  · rw [hmem]
    exact hwf
  · rw [hmem]
    exact wf_writeCells hwf (effAddr s m) bs

/-- Settles O24: a changed byte is one of a store's, and a store that completes touches no byte of
`CodeRange`; the range itself is system state. -/
theorem stepKeepsCode : Obligations.StepKeepsCode := by
  unfold Obligations.StepKeepsCode
  intro s t a ht hcode
  obtain ⟨i, -, -, hexec⟩ := step_next ht
  refine ⟨Decidable.byContradiction fun hchanged => ?_, by rw [(exec_next_system hexec).launch]⟩
  obtain ⟨-, m, bs, k, -, houtside, hk, rfl⟩ := exec_changed_byte hexec hchanged
  exact houtside ⟨k, hk, hcode⟩

/-- Settles O6: the encoder's bytes fit in a fetch, so what is fetched begins with them
(`fetch_of_codeAt`), and the decoder reads the instruction back (`decode_encode`). -/
theorem stepRunsCodeBytes : Obligations.StepRunsCodeBytes := by
  unfold Obligations.StepRunsCodeBytes
  intro s i hrunning hprotected hwf hcode
  obtain ⟨more, hfetch⟩ := fetch_of_codeAt hcode (length_encode_le i)
  exact step_instr hrunning hprotected (hfetch ▸ decode_encode hwf more)

/-- Settles O15: the parts are `admission_conforming`, `Conforming.exists_launch`, `admission_congr`,
the two admitted reads and `admission_default`. -/
theorem admitContract : Obligations.AdmitContract := by
  unfold Obligations.AdmitContract
  refine ⟨admission_conforming, fun s f hf => hf.exists_launch,
    fun seg a n kind s _ => ⟨?_, ?_, ?_, ?_⟩⟩
  · intro s' hlaunch halign hcpl
    exact admission_congr (by rw [hlaunch]) (by rw [hlaunch]) (by rw [hlaunch]) halign hcpl seg a n kind
  · exact memRead32_admitted
  · exact memRead64_admitted
  · exact admission_default

/-- Settles O18: the first clause by `misaligned_of_alignmentCheck`; under `ALIGN_CHECK` admitting a
misaligned operand contradicts `aligned_of_admitted`, and one that passes meets the check. -/
theorem alignmentChecked : Obligations.AlignmentChecked := by
  unfold Obligations.AlignmentChecked
  intro seg a n kind s
  refine ⟨fun h => ?_, fun ham hac hcpl hmis => ?_⟩
  · obtain ⟨hcheck, hmis⟩ := misaligned_of_alignmentCheck h
    obtain ⟨ham, hac, hcpl⟩ := alignCheck_iff.mp hcheck
    exact ⟨ham, hac, hcpl, hmis⟩
  · have hcheck : s.alignCheck = true := alignCheck_iff.mpr ⟨ham, hac, hcpl⟩
    have hpass : verdictOf seg a n kind s = .pass →
        admission seg a n kind s = some .alignmentCheck := fun hv => by
      rw [admission_of_pass hv, if_pos ⟨hcheck, hmis⟩]
    refine ⟨fun hadmitted => hmis (aligned_of_admitted hadmitted hcheck), hpass,
      fun hno hdenials hbelow => hpass ?_⟩
    rw [verdictOf_noDenials hno hdenials, if_neg fun htop => Nat.not_lt.mpr hbelow htop.1]

/-- Settles O19: the reads by `memRead32_error`, `memRead64_error` and the admitted reads; a store by
the three answers of `memWrite_cases`, its bytes by `readCell_writeCells_same`, and the rest by
`byteAt_writeCells_other`. -/
theorem memoryPrimitives : Obligations.MemoryPrimitives := by
  unfold Obligations.MemoryPrimitives
  intro seg a s
  refine ⟨fun _ => memRead32_error.mpr, fun _ => memRead64_error.mpr, memRead32_admitted,
    memRead64_admitted, fun bs hl => ?_⟩
  have hspace : bs.length ≤ Config.addressSpace := by
    simp only [Config.addressSpace]
    omega
  obtain ⟨y, hy, he⟩ | ⟨hy, htouches, he⟩ | ⟨hy, hcode, he⟩ := memWrite_cases seg a bs s
  · refine ⟨fun x _ hx => ?_, fun hadmitted => ?_⟩
    · rw [he, Option.some.inj (hy.symm.trans hx)]
    · cases hy.symm.trans hadmitted
  · exact ⟨fun x hcode => absurd htouches hcode, fun _ hcode => absurd htouches hcode⟩
  · refine ⟨fun x _ hx => ?_,
      fun _ _ => ⟨_, he, rfl, fun b hb => byteAt_writeCells_other s hb, fun hm k hk => ?_⟩⟩
    · cases hy.symm.trans hx
    · exact readCell_writeCells_same hm a bs hspace k hk

/-- Settles O20: the byte lanes are the bytes read (`memRead64_lanes`), and the wider lanes are made of
byte lanes. -/
theorem lanesInMemory : Obligations.LanesInMemory := by
  unfold Obligations.LanesInMemory
  intro seg a s v hread
  have hbyte : ∀ k, k < 8 → byteLane v k = s.byteAt (a + BitVec.ofNat 32 k) :=
    fun _ hk => memRead64_lanes hread hk
  refine ⟨hbyte, fun k hk => ?_, fun k hk => ?_⟩
  · rw [wordLane_eq_byteLanes, hbyte _ (by omega), hbyte _ (by omega)]
  · rw [dwordLane_eq_byteLanes, hbyte _ (by omega), hbyte _ (by omega), hbyte _ (by omega),
      hbyte _ (by omega)]

/-- Settles O21: each loaded byte is the byte of memory at its address, which after the store is as
`StoredByte` says; a load within the stored value has all its bytes from it. -/
theorem loadsReturnStoredBytes : Obligations.LoadsReturnStoredBytes := by
  unfold Obligations.LoadsReturnStoredBytes
  refine ⟨fun seg seg' a b bs s t hl hm ht => ?_, fun seg seg' a v s t hm ht => ?_,
    fun seg seg' a w s t hm ht => ?_⟩
  · have hspace : bs.length ≤ Config.addressSpace := by
      simp only [Config.addressSpace]
      omega
    refine ⟨fun hadmitted => ?_, fun hadmitted => ?_⟩
    · obtain ⟨v, hread, hv⟩ := memRead64_admitted hadmitted
      exact ⟨v, hread, fun i hi => hv i hi ▸ storedByte_of_memWrite hm hspace ht _⟩
    · obtain ⟨v, hread, hv⟩ := memRead32_admitted hadmitted
      exact ⟨v, hread, fun i hi => hv i hi ▸ storedByte_of_memWrite hm hspace ht _⟩
  · refine ⟨fun hadmitted => memRead64_eq hadmitted fun k hk => byteAt_of_storeQuad hm ht hk,
      fun hadmitted => memRead32_eq hadmitted fun k hk => ?_,
      fun hadmitted => memRead32_eq hadmitted fun k hk => ?_⟩
    · rw [byteAt_of_storeQuad hm ht (by omega), extract_extract v (by omega), Nat.zero_add]
    · have haddr : a + 4 + BitVec.ofNat 32 k = a + BitVec.ofNat 32 (4 + k) := by
        rw [BitVec.ofNat_add, BitVec.add_assoc]
        rfl
      rw [haddr, byteAt_of_storeQuad hm ht (by omega), extract_extract v (by omega), Nat.mul_add]
  · refine ⟨fun hadmitted => memRead32_eq hadmitted fun k hk => byteAt_of_storeDword hm ht hk,
      fun hadmitted => ?_⟩
    obtain ⟨v, hread, hv⟩ := memRead64_admitted hadmitted
    refine ⟨v, hread, eq_of_bytes (m := 4) fun k hk => ?_⟩
    have hlow : (v.extractLsb' 0 32).extractLsb' (8 * k) 8 = v.extractLsb' (8 * k) 8 := by
      rw [extract_extract v (by omega), Nat.zero_add]
    exact hlow.trans ((hv k (by omega)).trans (byteAt_of_storeDword hm ht hk))

/-- Settles O27: a changed byte is one of those that the instruction stores (`exec_changed_byte`), and
only the two stores store any (`storedBytes_some`). -/
theorem onlyStoresChangeMemory : Obligations.OnlyStoresChangeMemory := by
  unfold Obligations.OnlyStoresChangeMemory
  intro i s t a ht hchanged
  obtain ⟨pre, m, bs, k, hs, -, hk, ha⟩ := exec_changed_byte ht hchanged
  obtain ⟨reg, hi⟩ := storedBytes_some hs
  exact ⟨pre, reg, m, bs.length, hi, k, hk, ha⟩

/-- Settles O42: both stores are `toMemory` of four or eight bytes, which asks `Admit` first. -/
theorem deniedStoresFault : Obligations.DeniedStoresFault := by
  unfold Obligations.DeniedStoresFault
  intro pre reg m s x hr
  refine ⟨fun hx => ?_, fun hx => ?_⟩
  · rw [exec_movdFromMm_mem]
    exact toMemory_denied hr hx
  · rw [exec_movqFromMm_mem]
    exact toMemory_denied hr hx

end Sys2Proof.Machine
end

section
/-! Instructions and their bytes (spec 30_encoding.md R83, R84, R88, R97): what decodes is the
encoder's bytes, and the sizes and the displacement read off the fields of those bytes. -/

namespace Sys2Proof

/-! ## What decodes is what the encoder writes -/

/-- Bytes that decode are those of an instruction with encodable operands, and the rest (R97). -/
theorem encode_of_decode {bs rest : List Byte} {i : Instr} (h : decode bs = .instr i rest) :
    i.wf = true ∧ encode i ++ rest = bs := by
  obtain ⟨pre, tail, rfl, hopcode⟩ := decode_instr h
  obtain ⟨rfl, hwf, rfl⟩ := decodeOpcode_instr hopcode
  exact ⟨hwf, by simp [encode]⟩

/-- The encoder writes as many bytes as R88 says. -/
theorem length_encode (i : Instr) : (encode i).length = i.length := by
  rw [encode, List.length_append, prefixBytes_length, Instr.length]
  cases i.format with
  | rm op reg rm =>
    simp only [Format.bytes, List.length_cons, RegMem.length_bytes, rmLength]
    omega
  | shi op ext r imm => rfl
  | bare op => rfl

/-! ## The opcode of a format -/

/-- An instruction with a ModRM operand has an opcode that is neither `EMMS` nor of the shift
group (R90). -/
theorem opcode_of_format_rm {i : Instr} {op : Byte} {reg : RegNum} {rm : RegMem}
    (h : i.format = .rm op reg rm) : op ≠ 0x77#8 ∧ op ∉ [0x71#8, 0x72#8, 0x73#8] := by
  have hlisted := Machine.assemble_format i
  rw [h, assemble, Option.map_eq_some_iff] at hlisted
  obtain ⟨mk, hmk, -⟩ := hlisted
  obtain ⟨hemms, hshift⟩ := rmInstr_isSome (Option.isSome_of_eq_some hmk)
  exact ⟨hemms, by simpa [isShiftGroup, and_assoc] using hshift⟩

/-- A shift by immediate has an opcode of the shift group (R90). -/
theorem opcode_of_format_shi {i : Instr} {op : Byte} {ext : BitVec 3} {r : RegNum} {imm : Byte}
    (h : i.format = .shi op ext r imm) : op ≠ 0x77#8 ∧ op ∈ [0x71#8, 0x72#8, 0x73#8] := by
  have hlisted := Machine.assemble_format i
  rw [h, assemble, Option.map_eq_some_iff] at hlisted
  obtain ⟨mk, hmk, -⟩ := hlisted
  obtain ⟨hemms, hshift⟩ := shiInstr_isSome (Option.isSome_of_eq_some hmk)
  exact ⟨hemms, by simpa [isShiftGroup, or_assoc] using hshift⟩

/-- The one opcode of format `NONE` is that of `EMMS` (R90). -/
theorem opcode_of_format_bare {i : Instr} {op : Byte} (h : i.format = .bare op) : op = 0x77#8 := by
  have hlisted := Machine.assemble_format i
  rw [h, assemble] at hlisted
  split at hlisted
  · assumption
  · cases hlisted

/-! ## The optional override -/

/-- The first byte tells whether there is a segment override (R89). -/
theorem prefixLength_eq_firstByte (pre : Option Seg) (tail : List Byte) :
    (if (prefixBytes pre ++ escapeByte :: tail).getD 0 0 ∈
        [0x26#8, 0x2E#8, 0x36#8, 0x3E#8, 0x64#8, 0x65#8] then 1 else 0) = prefixLength pre := by
  cases pre with
  | none => rfl
  | some sg => cases sg <;> rfl

/-- The bytes after the escape byte, counted from the optional override. -/
theorem getD_afterEscape (pre : Option Seg) (tail : List Byte) (n : Nat) :
    (prefixBytes pre ++ escapeByte :: tail).getD (prefixLength pre + (n + 1)) 0 = tail.getD n 0 := by
  rw [← prefixBytes_length, List.getD_eq_getElem?_getD,
    List.getElem?_append_right (Nat.le_add_right _ _), Nat.add_sub_cancel_left,
    List.getElem?_cons_succ, List.getD_eq_getElem?_getD]

/-! ## The fields of ModRM and SIB as bit ranges -/

@[simp] theorem extract_mod_packFields (hi : BitVec 2) (mid lo : BitVec 3) :
    (packFields hi mid lo).extractLsb' 6 2 = hi := field76_packFields hi mid lo

@[simp] theorem extract_reg_packFields (hi : BitVec 2) (mid lo : BitVec 3) :
    (packFields hi mid lo).extractLsb' 3 3 = mid := field53_packFields hi mid lo

@[simp] theorem extract_rm_packFields (hi : BitVec 2) (mid lo : BitVec 3) :
    (packFields hi mid lo).extractLsb' 0 3 = lo := field20_packFields hi mid lo

/-! ## The displacement -/

/-- The size of a displacement by its `mod` field (R83, R88). -/
theorem Disp.size_eq_mod (d : Disp) :
    d.size = if d.mod = 2#2 then 4 else if d.mod = 1#2 then 1 else 0 := by cases d <;> rfl

theorem Disp.mod_ne_three (d : Disp) : d.mod ≠ 3#2 := by cases d <;> simp [Disp.mod]

/-- The doubleword in the first four bytes, least significant first (R51, R96). -/
def leadingDword (bs : List Byte) : Dword :=
  bs[3]?.getD 0#8 ++ bs[2]?.getD 0#8 ++ bs[1]?.getD 0#8 ++ bs[0]?.getD 0#8

theorem leadingDword_bytesOfDword (w : Dword) (rest : List Byte) :
    leadingDword (bytesOfDword w ++ rest) = w := dwordOfBytes_bytes w

/-- The value of a displacement, read off the `mod` field and its bytes (R83, R96). -/
theorem dispValue_eq_bytes (d : Disp) (rest : List Byte) :
    Machine.dispValue d =
      if d.mod = 1#2 then ((d.bytes ++ rest).getD 0 0).signExtend 32
      else if d.mod = 2#2 then leadingDword (d.bytes ++ rest) else 0 := by
  cases d with
  | none => rfl
  | d8 b => rfl
  | d32 w => exact (leadingDword_bytesOfDword w rest).symm

/-! ## Operands -/

/-- A base register without a SIB byte is not `ESP`, and not `EBP` without a displacement (R83). -/
theorem MemOperand.wf_base {r : RegNum} {d : Disp} :
    (MemOperand.base r d).wf = true ↔ r ≠ 4#3 ∧ ¬ (d.mod = 0#2 ∧ r = 5#3) := by
  cases d <;> simp [MemOperand.wf, Disp.mod]

/-- The base of a SIB byte is not `EBP` without a displacement (R84). -/
theorem MemOperand.wf_sib {ss : BitVec 2} {idx b : RegNum} {d : Disp} :
    (MemOperand.sib ss idx b d).wf = true ↔ ¬ (d.mod = 0#2 ∧ b = 5#3) := by
  cases d <;> simp [MemOperand.wf, Disp.mod]

/-- The number of SIB bytes that ModRM calls for (R88). -/
def sibBytes (mod : BitVec 2) (rm : BitVec 3) : Nat := if mod ≠ 3#2 ∧ rm = 4#3 then 1 else 0

theorem sibBytes_of_not_emms {op : Byte} (h : op ≠ 0x77#8) (mod : BitVec 2) (rm : BitVec 3) :
    (if op ≠ 0x77#8 ∧ mod ≠ 3#2 ∧ rm = 4#3 then 1 else 0) = sibBytes mod rm := by
  simp [sibBytes, h]

/-- `dispsize` of R88, from `mod`, `rm` and the base field of the SIB byte. -/
def dispBytes (mod : BitVec 2) (rm base : BitVec 3) : Nat :=
  if (mod = 0#2 ∧ rm = 5#3) ∨ (mod = 0#2 ∧ rm = 4#3 ∧ base = 5#3) ∨ mod = 2#2 then 4
  else if mod = 1#2 then 1
  else 0

/-- The size of a well-formed operand is what R88 reads off its ModRM byte and the byte after it. -/
theorem RegMem.size_eq_fields {rm : RegMem} (hwf : rm.wf = true) (reg : RegNum) (rest : List Byte) :
    let modrm := (rm.bytes reg ++ rest).getD 0 0
    let sib := (rm.bytes reg ++ rest).getD 1 0
    rm.size = sibBytes (field76 modrm) (field20 modrm) +
      dispBytes (field76 modrm) (field20 modrm) (field20 sib) := by
  cases rm with
  | reg r => simp [RegMem.size, RegMem.bytes, sibBytes, dispBytes]
  | mem m =>
    cases m with
    | base r d =>
      obtain ⟨hr, hbase⟩ := MemOperand.wf_base.mp hwf
      simp [RegMem.size, MemOperand.size, RegMem.bytes, MemOperand.bytes, sibBytes, dispBytes, hr,
        hbase, d.size_eq_mod]
    | abs w => simp [RegMem.size, MemOperand.size, RegMem.bytes, MemOperand.bytes, sibBytes, dispBytes]
    | sib ss idx b d =>
      have hbase := MemOperand.wf_sib.mp hwf
      simp [RegMem.size, MemOperand.size, RegMem.bytes, MemOperand.bytes, sibBytes, dispBytes, hbase,
        d.size_eq_mod, d.mod_ne_three]
    | sibNoBase ss idx w =>
      simp [RegMem.size, MemOperand.size, RegMem.bytes, MemOperand.bytes, sibBytes, dispBytes]

end Sys2Proof
end

section
/-! Bytes that are no instruction (spec 30_encoding.md R89, R91; 60_exceptions.md R261): what the
decoder answers for them after an optional override, and the step where they lie at `EIP`. -/

namespace Sys2Proof

/-- After an override, or where there is none to read, the decoder is at the escape byte (R94). -/
theorem decode_afterPrefix {pre : Option Seg} {b : Byte} (h : pre ≠ none ∨ segOfPrefix b = none)
    (bs : List Byte) : decode (prefixBytes pre ++ b :: bs) = decodeEscape pre (b :: bs) := by
  cases pre with
  | some sg => simp [prefixBytes, decode]
  | none =>
    have hb : segOfPrefix b = none := h.resolve_left fun hne => hne rfl
    simp [prefixBytes, decode, hb]

/-- `LOCK` is illegal first and after an override (R261). -/
theorem decode_lock (pre : Option Seg) (bs : List Byte) :
    decode (prefixBytes pre ++ 0xF0#8 :: bs) = .invalid :=
  decode_afterPrefix (.inr rfl) bs

/-- A byte that is refused where the escape byte is due; a segment override is one only after another
(R89). -/
theorem decode_refusedPrefix {pre : Option Seg} {b : Byte}
    (hb : b ∈ [0x66#8, 0x67#8, 0xF2#8, 0xF3#8] ∨
      (pre ≠ none ∧ b ∈ [0x26#8, 0x2E#8, 0x36#8, 0x3E#8, 0x64#8, 0x65#8])) (bs : List Byte) :
    decode (prefixBytes pre ++ b :: bs) = .refused (.prefixByte b) := by
  have hfields : (pre ≠ none ∨ segOfPrefix b = none) ∧ b ≠ lockPrefix ∧ refusedPrefix b = true := by
    obtain hb | ⟨hpre, hb⟩ := hb
    · have hall : ∀ c ∈ [0x66#8, 0x67#8, 0xF2#8, 0xF3#8],
          segOfPrefix c = none ∧ c ≠ lockPrefix ∧ refusedPrefix c = true := by decide
      exact ⟨.inr (hall b hb).1, (hall b hb).2⟩
    · have hall : ∀ c ∈ [0x26#8, 0x2E#8, 0x36#8, 0x3E#8, 0x64#8, 0x65#8],
          c ≠ lockPrefix ∧ refusedPrefix c = true := by decide
      exact ⟨.inl hpre, hall b hb⟩
  obtain ⟨hprefix, hlock, hrefused⟩ := hfields
  rw [decode_afterPrefix hprefix, decodeEscape, if_neg hlock, if_pos hrefused]

/-- A byte that neither comes before the escape byte nor is it starts no instruction (R91 (c)). -/
theorem decode_firstByte (pre : Option Seg) {b : Byte}
    (hb : b ∉ [0x0F#8, 0xF0#8, 0x66#8, 0x67#8, 0xF2#8, 0xF3#8, 0x26#8, 0x2E#8, 0x36#8, 0x3E#8,
      0x64#8, 0x65#8]) (bs : List Byte) :
    decode (prefixBytes pre ++ b :: bs) = .refused (.firstByte b) := by
  have hfields : segOfPrefix b = none ∧ b ≠ lockPrefix ∧ ¬ refusedPrefix b = true ∧
      b ≠ escapeByte := by
    revert b
    decide
  obtain ⟨hseg, hlock, hrefused, hescape⟩ := hfields
  rw [decode_afterPrefix (.inr hseg), decodeEscape, if_neg hlock, if_neg hrefused, if_neg hescape]

/-- The opcode map has no row for an opcode outside R90 (R91 (b)). -/
theorem decode_unlistedOpcode (pre : Option Seg) {op : Byte}
    (hop : op ∉ [0x60#8, 0x61#8, 0x62#8, 0x63#8, 0x64#8, 0x65#8, 0x66#8, 0x67#8, 0x68#8, 0x69#8,
      0x6A#8, 0x6B#8, 0x6E#8, 0x6F#8, 0x71#8, 0x72#8, 0x73#8, 0x74#8, 0x75#8, 0x76#8, 0x77#8, 0x7E#8,
      0x7F#8, 0xD1#8, 0xD2#8, 0xD3#8, 0xD5#8, 0xD8#8, 0xD9#8, 0xDB#8, 0xDC#8, 0xDD#8, 0xDF#8,
      0xE1#8, 0xE2#8, 0xE5#8, 0xE8#8, 0xE9#8, 0xEB#8, 0xEC#8, 0xED#8, 0xEF#8, 0xF1#8, 0xF2#8,
      0xF3#8, 0xF5#8, 0xF8#8, 0xF9#8, 0xFA#8, 0xFC#8, 0xFD#8, 0xFE#8]) (bs : List Byte) :
    decode (prefixBytes pre ++ 0x0F#8 :: op :: bs) = .refused (.opcode op (extensionName op)) := by
  have hfields : op ≠ emmsOpcode ∧ ¬ isShiftGroup op = true ∧ rmInstr op = none := by
    revert op
    decide
  obtain ⟨hemms, hshift, hrow⟩ := hfields
  exact (decode_prefix pre _).trans (by rw [decodeOpcode, if_neg hemms, if_neg hshift, hrow])

/-- The ModRM bytes that R91 (a) makes illegal after a shift group opcode: a memory operand, or an
extension that the opcode does not list. -/
def IllegalShift (op modrm : Byte) : Prop :=
  modrm.extractLsb' 6 2 ≠ 3#2 ∨
    (op ≠ 0x73#8 ∧ modrm.extractLsb' 3 3 ∈ [0#3, 1#3, 3#3, 5#3, 7#3]) ∨
    (op = 0x73#8 ∧ modrm.extractLsb' 3 3 ∈ [0#3, 1#3, 3#3, 4#3, 5#3, 7#3])

/-- The extensions that R91 (a) names have no row in the opcode map. -/
theorem shiInstr_unlisted {op : Byte} {ext : BitVec 3} (hop : op ∈ [0x71#8, 0x72#8, 0x73#8])
    (hext : (op ≠ 0x73#8 ∧ ext ∈ [0#3, 1#3, 3#3, 5#3, 7#3]) ∨
      (op = 0x73#8 ∧ ext ∈ [0#3, 1#3, 3#3, 4#3, 5#3, 7#3])) : shiInstr op ext = none := by
  have hall : ∀ op ∈ [0x71#8, 0x72#8, 0x73#8], ∀ ext : BitVec 3,
      (op ≠ 0x73#8 ∧ ext ∈ [0#3, 1#3, 3#3, 5#3, 7#3]) ∨
        (op = 0x73#8 ∧ ext ∈ [0#3, 1#3, 3#3, 4#3, 5#3, 7#3]) → shiInstr op ext = none := by decide
  exact hall op hop ext hext

/-- An illegal ModRM byte of the shift group is `#UD`, before the immediate is read (R91 (a)). -/
theorem decode_illegalShift (pre : Option Seg) {op modrm : Byte}
    (hop : op ∈ [0x71#8, 0x72#8, 0x73#8]) (h : IllegalShift op modrm) (bs : List Byte) :
    decode (prefixBytes pre ++ 0x0F#8 :: op :: modrm :: bs) = .invalid := by
  have hgroup : op ≠ emmsOpcode ∧ isShiftGroup op = true := by
    have hall : ∀ c ∈ [0x71#8, 0x72#8, 0x73#8], c ≠ emmsOpcode ∧ isShiftGroup c = true := by decide
    exact hall op hop
  obtain ⟨hemms, hshift⟩ := hgroup
  refine (decode_prefix pre _).trans ?_
  rw [decodeOpcode, if_neg hemms, if_pos hshift, decodeShift]
  split
  · next hmod =>
    obtain hmem | hext := h
    · exact absurd hmod hmem
    · rw [field53, shiInstr_unlisted hop hext]
  · rfl

end Sys2Proof

namespace Sys2Proof.Machine

variable {s : State} {pre : Option Seg} {bs : List Byte}

/-- Up to three bytes after an optional override at `EIP` are the first that a step fetches. -/
theorem fetch_of_prefixedCodeAt (hcode : CodeAt s (prefixBytes pre ++ bs)) (hl : bs.length ≤ 3) :
    ∃ more, fetch s = prefixBytes pre ++ (bs ++ more) := by
  have hprefix : prefixLength pre ≤ 1 := by cases pre <;> simp [prefixLength]
  have hfits : (prefixBytes pre ++ bs).length ≤ Config.maxLength := by
    rw [List.length_append, prefixBytes_length, Config.maxLength]
    omega
  obtain ⟨more, hfetch⟩ := fetch_of_codeAt hcode hfits
  exact ⟨more, hfetch.trans (List.append_assoc _ _ _)⟩

/-- Bytes at `EIP` that are `#UD` whatever follows them make the step raise it. -/
theorem step_invalid_of_codeAt (hrunning : s.eip ≠ s.launch.endAddr)
    (hprotected : s.mode = .protected32) (hcode : CodeAt s (prefixBytes pre ++ bs))
    (hl : bs.length ≤ 3) (h : ∀ more, decode (prefixBytes pre ++ (bs ++ more)) = .invalid) :
    step s = raise .invalidOpcode s := by
  obtain ⟨more, hfetch⟩ := fetch_of_prefixedCodeAt hcode hl
  exact step_invalid hrunning hprotected (hfetch ▸ h more)

/-- Bytes at `EIP` that the decoder refuses whatever follows them make the step refuse. -/
theorem step_refused_of_codeAt {r : DecodeRefusal} (hrunning : s.eip ≠ s.launch.endAddr)
    (hprotected : s.mode = .protected32) (hcode : CodeAt s (prefixBytes pre ++ bs))
    (hl : bs.length ≤ 3) (h : ∀ more, decode (prefixBytes pre ++ (bs ++ more)) = .refused r) :
    step s = .refused (.encoding r) := by
  obtain ⟨more, hfetch⟩ := fetch_of_prefixedCodeAt hcode hl
  exact step_refused hrunning hprotected (hfetch ▸ h more)

end Sys2Proof.Machine
end

section
/-! Effective addresses as sums of naturals (spec 30_encoding.md R84, R85). -/

namespace Sys2Proof.Machine

/-- The scaled index modulo 2^32 (R84). -/
theorem toNat_indexValue (ss : BitVec 2) (idx : RegNum) (s : State) :
    (indexValue ss idx s).toNat =
      (if idx ≠ 4#3 then (s.reg idx).toNat * 2 ^ ss.toNat else 0) % 4294967296 := by
  unfold indexValue
  split
  · next h => simp [h]
  · next h =>
    have hidx : idx ≠ 4#3 := h
    rw [if_pos hidx, BitVec.toNat_shiftLeft, Nat.shiftLeft_eq]

end Sys2Proof.Machine
end

section
/-! Proofs of the statements about encoding (spec 30_encoding.md). -/

namespace Sys2Proof.Machine

/-- Settles O1: the encoder's bytes lead through the optional override to the opcode map, which gives
the instruction back from its format (`decode_encode`). -/
theorem decodeOfEncode : Obligations.DecodeOfEncode := by
  unfold Obligations.DecodeOfEncode
  intro i rest hwf
  exact decode_encode hwf rest

/-- Settles O2: each reader of the decoder that succeeded has read what the encoder writes
(`encode_of_decode`). -/
theorem encodeOfDecode : Obligations.EncodeOfDecode := by
  unfold Obligations.EncodeOfDecode
  intro bs i rest h
  exact encode_of_decode h

/-- Settles O3: the bytes are the encoder's, so the fields are those of the instruction's format, and
the three formats differ in what follows the opcode. -/
theorem lengthFromFields : Obligations.LengthFromFields := by
  unfold Obligations.LengthFromFields
  intro bs i rest h
  obtain ⟨hwf, rfl⟩ := encode_of_decode h
  refine ⟨?_, by rw [List.length_append, length_encode], length_encode i ▸ length_encode_le i⟩
  rw [encode, List.append_assoc, List.cons_append, prefixLength_eq_firstByte,
    getD_afterEscape _ _ 0, getD_afterEscape _ _ 1, getD_afterEscape _ _ 2, Instr.length]
  cases hf : i.format with
  | rm op reg rm =>
    obtain ⟨hemms, hshift⟩ := opcode_of_format_rm hf
    have hsize := RegMem.size_eq_fields (Instr.wf_rm hf ▸ hwf) reg rest
    simp only [Format.bytes, List.cons_append, List.getD_cons_zero, List.getD_cons_succ]
    rw [if_neg hemms, if_neg hemms, if_neg hshift, sibBytes_of_not_emms hemms, rmLength, hsize]
    exact (Nat.add_assoc _ _ _).symm
  | shi op ext r imm =>
    obtain ⟨hemms, hshift⟩ := opcode_of_format_shi hf
    simp [Format.bytes, shiLength, hemms, hshift]
  | bare op =>
    obtain rfl := opcode_of_format_bare hf
    simp [Format.bytes, bareLength]

/-- Settles O8: each clause is what the decoder answers for the bytes whatever follows them. -/
theorem unlistedEncodings : Obligations.UnlistedEncodings := by
  unfold Obligations.UnlistedEncodings
  intro s pre hrunning hprotected
  refine ⟨fun op modrm hop hillegal hcode => ?_, fun hcode => ?_, fun op hop hcode => ?_,
    fun b hb hcode => ?_⟩
  · exact step_invalid_of_codeAt hrunning hprotected hcode (Nat.le_refl 3)
      (decode_illegalShift pre hop hillegal)
  · exact step_invalid_of_codeAt hrunning hprotected hcode (Nat.le_add_left 1 2) (decode_lock pre)
  · exact ⟨extensionName op, step_refused_of_codeAt hrunning hprotected hcode (Nat.le_succ 2)
      (decode_unlistedOpcode pre hop)⟩
  · exact step_refused_of_codeAt hrunning hprotected hcode (Nat.le_add_left 1 2)
      (decode_firstByte pre hb)

/-- Settles O9: the decoder refuses such a byte whatever follows it (`decode_refusedPrefix`). -/
theorem refusedPrefixes : Obligations.RefusedPrefixes := by
  unfold Obligations.RefusedPrefixes
  intro s pre b hrunning hprotected hb hcode
  exact step_refused_of_codeAt hrunning hprotected hcode (Nat.le_add_left 1 2)
    (decode_refusedPrefix hb)

/-- Settles O4: the decoder run on the seven byte strings. -/
theorem decodingSamples : Obligations.DecodingSamples := by
  unfold Obligations.DecodingSamples
  decide

/-- Settles O37: the two forms of each source operand are its defining equations. -/
theorem sourceOperands : Obligations.SourceOperands := by
  unfold Obligations.SourceOperands
  intro pre s r m
  exact ⟨rfl, rfl, rfl, rfl, rfl, rfl⟩

/-- Settles O36: the bytes that gave the operand are those that the encoder writes for it
(`takeRegMem_some`), so in each form of operand the fields are its own. -/
theorem effectiveAddress : Obligations.EffectiveAddress := by
  unfold Obligations.EffectiveAddress
  intro modrm bs rest m pre s h
  obtain ⟨hwf, hbytes⟩ := takeRegMem_some h
  generalize field53 modrm = reg at hbytes
  cases m with
  | base r d =>
    obtain ⟨hr, hbase⟩ := MemOperand.wf_base.mp hwf
    obtain ⟨rfl, rfl⟩ := List.cons.inj hbytes
    simp [effAddr, segOf, defaultSeg, dispValue_eq_bytes d rest, leadingDword, hr, hbase]
  | abs w =>
    obtain ⟨rfl, rfl⟩ := List.cons.inj hbytes
    have hdisp := leadingDword_bytesOfDword w rest
    unfold leadingDword at hdisp
    have hw : w.toNat = w.toNat % 4294967296 := (Nat.mod_eq_of_lt w.isLt).symm
    simpa [effAddr, segOf, defaultSeg, hdisp] using hw
  | sib ss idx b d =>
    have hbase := MemOperand.wf_sib.mp hwf
    obtain ⟨rfl, rfl⟩ := List.cons.inj hbytes
    simp [effAddr, segOf, defaultSeg, dispValue_eq_bytes d rest, leadingDword, hbase,
      toNat_indexValue]
  | sibNoBase ss idx w =>
    obtain ⟨rfl, rfl⟩ := List.cons.inj hbytes
    have hdisp := leadingDword_bytesOfDword w rest
    unfold leadingDword at hdisp
    simp [effAddr, segOf, defaultSeg, hdisp, toNat_indexValue]

end Sys2Proof.Machine
end

section
/-! The doubleword moves (spec 40_data_transfer.md R121, R122): the lanes of a zero-extended doubleword,
the bytes of a low doubleword, and `MOVD` to a general register. -/

namespace Sys2Proof.Machine

/-- The low doubleword of a zero-extended doubleword is the doubleword itself (R121). -/
theorem dwordLane_zeroExtend_low (w : Dword) : dwordLane (w.zeroExtend 64) 0 = w :=
  (extract_zeroExtend w (Nat.le_refl 32)).trans BitVec.extractLsb'_eq_self

/-- The high doubleword of a zero-extended doubleword is 0 (R121). -/
theorem dwordLane_zeroExtend_high (w : Dword) : dwordLane (w.zeroExtend 64) 1 = 0 := by
  apply BitVec.eq_of_getLsbD_eq
  intro i _
  have hbit : (w.zeroExtend 64 : Quad).getLsbD (32 * 1 + i) = false := by
    simp [BitVec.zeroExtend, BitVec.getLsbD_setWidth]
  rw [dwordLane, BitVec.getLsbD_extractLsb', hbit, Bool.and_false]
  exact BitVec.getLsbD_zero.symm

/-- The bytes of the low doubleword of a quadword are the low bytes of the quadword (R122). -/
theorem getElem_bytesOfDword_low (v : Quad) {k : Nat}
    (h : k < (bytesOfDword (v.extractLsb' 0 32)).length) :
    (bytesOfDword (v.extractLsb' 0 32))[k] = v.extractLsb' (8 * k) 8 := by
  have hk : k < 4 := h
  rw [getElem_bytesOfDword, extract_extract v (by omega), Nat.zero_add]

/-- `MOVD r32, mm` that `MMXCheck()` lets pass writes the low doubleword (R122). -/
theorem exec_movdFromMm_reg_ready {pre : Option Seg} {reg r : RegNum} {s : State} (h : Ready s) :
    exec (.movdFromMm pre reg (.reg r)) s =
      .next ((s.writeReg r ((s.mm reg).extractLsb' 0 32)).complete (rmLength pre (.reg r))) := by
  unfold Ready at h
  simp only [exec, execMovdFromMm, h]

end Sys2Proof.Machine
end

section
/-! Proofs of the statements about data transfer (spec 40_data_transfer.md). -/

namespace Sys2Proof.Machine

/-- Settles O38: the row is `toMm` of the doubleword source, and the two lanes of the zero-extended
doubleword are the source and 0. -/
theorem movdToMmx : Obligations.MovdToMmx := by
  unfold Obligations.MovdToMmx
  exact rmRule_toMm (fun _ _ _ => ⟨rfl, rfl⟩) exec_movdToMm
    fun _ w => ⟨dwordLane_zeroExtend_low w, dwordLane_zeroExtend_high w⟩

/-- Settles O39: the register form is the check (`exec_check`) and the frame of a write of a general
register; the memory form is `toMemory` of the bytes of the low doubleword. -/
theorem movdFromMmx : Obligations.MovdFromMmx := by
  unfold Obligations.MovdFromMmx
  intro pre reg
  refine ⟨fun _ => ⟨rfl, rfl⟩, fun r s => ⟨fun x hx => exec_check hx _, fun hr => ?_⟩, fun m => ?_⟩
  · refine ⟨_, exec_movdFromMm_reg_ready hr, writesGeneral_complete s r _ _, ?_⟩
    rw [complete_reg, reg_writeReg, if_pos rfl]
  · exact storeResult_toMemory (exec_movdFromMm_mem pre reg m) (fun _ => rfl) (by decide)
      fun s _ => getElem_bytesOfDword_low (s.mm reg)

/-- Settles O40: the row is `toMm` of the quadword source, which is the new value. -/
theorem movqToMmx : Obligations.MovqToMmx := by
  unfold Obligations.MovqToMmx
  exact rmRule_toMm (fun _ _ _ => ⟨rfl, rfl⟩) exec_movqToMm fun _ _ => rfl

/-- Settles O41: the register form is `toMm` with the MMX register `reg` as its source, which never
faults; the memory form is `toMemory` of the bytes of that register. -/
theorem movqFromMmx : Obligations.MovqFromMmx := by
  unfold Obligations.MovqFromMmx
  intro pre reg
  refine ⟨fun _ => ⟨rfl, rfl⟩, fun r s => ⟨fun x hx => exec_check hx _, fun hr => ?_⟩, fun m => ?_⟩
  · refine ⟨_, (exec_movqFromMm_reg pre reg r s).trans (toMm_ok hr rfl), writesMm_complete s r _ _, ?_⟩
    rw [complete_mm, mm_writeMm_same]
  · exact storeResult_toMemory (exec_movqFromMm_mem pre reg m) (fun _ => rfl) (by decide)
      fun s _ => getElem_bytesOfQuad (s.mm reg)

end Sys2Proof.Machine
end

section
/-! The lanes of packs and unpacks (spec 41_conversion.md R130 to R139): the halves of a pack, the even and
odd lanes of an interleave, and saturation to a byte or a word as a clamp between numbers. -/

namespace Sys2Proof.Machine

/-! ## The two halves of a pack -/

/-- The low half of a pack of words is made of the destination's words (R130). -/
theorem byteLane_packWords_low (f : Word → Byte) (a b : Quad) {k : Nat} (h : k < 4) :
    byteLane (packWords f a b) k = f (wordLane a k) := by
  rw [byteLane_packWords f a b (by omega), if_pos h]

/-- The high half of a pack of words is made of the source's words (R130). -/
theorem byteLane_packWords_high (f : Word → Byte) (a b : Quad) {k : Nat} (h : k < 4) :
    byteLane (packWords f a b) (4 + k) = f (wordLane b k) := by
  rw [byteLane_packWords f a b (by omega), if_neg (by omega), Nat.add_sub_cancel_left]

/-- The low half of a pack of doublewords is made of the destination's doublewords (R130). -/
theorem wordLane_packDwords_low (f : Dword → Word) (a b : Quad) {k : Nat} (h : k < 2) :
    wordLane (packDwords f a b) k = f (dwordLane a k) := by
  rw [wordLane_packDwords f a b (by omega), if_pos h]

/-- The high half of a pack of doublewords is made of the source's doublewords (R130). -/
theorem wordLane_packDwords_high (f : Dword → Word) (a b : Quad) {k : Nat} (h : k < 2) :
    wordLane (packDwords f a b) (2 + k) = f (dwordLane b k) := by
  rw [wordLane_packDwords f a b (by omega), if_neg (by omega), Nat.add_sub_cancel_left]

/-! ## Saturation to a byte or a word, with the bounds as numbers (R9) -/

/-- `SatS8` clamps to -128..127 (R9). -/
theorem toInt_satS_byte (x : Int) : (satS 8 x).toInt = max (-128) (min 127 x) :=
  toInt_satS (by decide) x

/-- `SatS16` clamps to -32768..32767 (R9). -/
theorem toInt_satS_word (x : Int) : (satS 16 x).toInt = max (-32768) (min 32767 x) :=
  toInt_satS (by decide) x

/-- `SatU8` clamps to 0..255 (R9). -/
theorem toNat_satU_byte (x : Int) : ((satU 8 x).toNat : Int) = max 0 (min 255 x) := toNat_satU 8 x

/-! ## The even and odd lanes of an interleave -/

/-- The even bytes of an interleave are the destination's (R130). -/
theorem byteLane_interleaveBytes_even (p : Nat) (a b : Quad) {k : Nat} (h : k < 4) :
    byteLane (interleaveBytes p a b) (2 * k) = byteLane a (p + k) := by
  rw [byteLane_interleaveBytes p a b (by omega), if_pos (by omega),
    Nat.mul_div_cancel_left k (by decide)]

/-- The odd bytes of an interleave are the source's (R130). -/
theorem byteLane_interleaveBytes_odd (p : Nat) (a b : Quad) {k : Nat} (h : k < 4) :
    byteLane (interleaveBytes p a b) (2 * k + 1) = byteLane b (p + k) := by
  rw [byteLane_interleaveBytes p a b (by omega), if_neg (by omega),
    show (2 * k + 1) / 2 = k by omega]

/-- The four words of an interleave, the destination's in the even places (R130). -/
theorem wordLanes_interleaveWords (p : Nat) (a b : Quad) :
    wordLane (interleaveWords p a b) 0 = wordLane a p ∧
      wordLane (interleaveWords p a b) 1 = wordLane b p ∧
      wordLane (interleaveWords p a b) 2 = wordLane a (p + 1) ∧
      wordLane (interleaveWords p a b) 3 = wordLane b (p + 1) :=
  ⟨wordLane_interleaveWords p a b (by decide), wordLane_interleaveWords p a b (by decide),
    wordLane_interleaveWords p a b (by decide), wordLane_interleaveWords p a b (by decide)⟩

/-- The two doublewords of an interleave, the destination's in the low place (R130). -/
theorem dwordLanes_interleaveDwords (p : Nat) (a b : Quad) :
    dwordLane (interleaveDwords p a b) 0 = dwordLane a p ∧
      dwordLane (interleaveDwords p a b) 1 = dwordLane b p :=
  ⟨dwordLane_interleaveDwords p a b (by decide), dwordLane_interleaveDwords p a b (by decide)⟩

/-! ## The lanes of a 32-bit source -/

/-- The low byte lanes of a zero-extended doubleword are its bytes (R137). -/
theorem byteLane_zeroExtend (w : Dword) {k : Nat} (h : k < 4) :
    byteLane (w.zeroExtend 64) k = w.extractLsb' (8 * k) 8 := extract_zeroExtend w (by omega)

/-- The low word lanes of a zero-extended doubleword are its words (R138). -/
theorem wordLane_zeroExtend (w : Dword) {k : Nat} (h : k < 2) :
    wordLane (w.zeroExtend 64) k = w.extractLsb' (16 * k) 16 := extract_zeroExtend w (by omega)

end Sys2Proof.Machine
end

section
/-! Proofs of the statements about conversion (spec 41_conversion.md). -/

namespace Sys2Proof.Machine

/-- Settles O43: each row is `toMm` of a pack, whose low half comes from the destination and high half
from the source, element by element through the saturation of its row. -/
theorem packs : Obligations.Packs := by
  unfold Obligations.Packs
  refine ⟨rmRule_toMm (fun _ _ _ => ⟨rfl, rfl⟩) exec_packsswb fun a b k hk => ⟨?_, ?_⟩,
    rmRule_toMm (fun _ _ _ => ⟨rfl, rfl⟩) exec_packssdw fun a b k hk => ⟨?_, ?_⟩,
    rmRule_toMm (fun _ _ _ => ⟨rfl, rfl⟩) exec_packuswb fun a b k hk => ⟨?_, ?_⟩⟩
  · rw [byteLane_packWords_low _ a b hk, toInt_satS_byte]
  · rw [byteLane_packWords_high _ a b hk, toInt_satS_byte]
  · rw [wordLane_packDwords_low _ a b hk, toInt_satS_word]
  · rw [wordLane_packDwords_high _ a b hk, toInt_satS_word]
  · rw [byteLane_packWords_low _ a b hk, toNat_satU_byte]
  · rw [byteLane_packWords_high _ a b hk, toNat_satU_byte]

/-- Settles O44: each row is `toMm` of an interleave that begins at the first lane of the high half. -/
theorem unpacksHigh : Obligations.UnpacksHigh := by
  unfold Obligations.UnpacksHigh
  exact ⟨rmRule_toMm (fun _ _ _ => ⟨rfl, rfl⟩) exec_punpckhbw fun a b _ hk =>
      ⟨byteLane_interleaveBytes_even 4 a b hk, byteLane_interleaveBytes_odd 4 a b hk⟩,
    rmRule_toMm (fun _ _ _ => ⟨rfl, rfl⟩) exec_punpckhwd (wordLanes_interleaveWords 2),
    rmRule_toMm (fun _ _ _ => ⟨rfl, rfl⟩) exec_punpckhdq (dwordLanes_interleaveDwords 1)⟩

/-- Settles O45: each row is `toMm` of an interleave from lane 0 of the destination and the
zero-extended doubleword source, whose low lanes are the lanes of the doubleword. -/
theorem unpacksLow : Obligations.UnpacksLow := by
  unfold Obligations.UnpacksLow
  refine ⟨rmRule_toMm (fun _ _ _ => ⟨rfl, rfl⟩) exec_punpcklbw fun a b k hk => ⟨?_, ?_⟩,
    rmRule_toMm (fun _ _ _ => ⟨rfl, rfl⟩) exec_punpcklwd fun a b => ?_,
    rmRule_toMm (fun _ _ _ => ⟨rfl, rfl⟩) exec_punpckldq fun a b => ?_⟩
  · rw [byteLane_interleaveBytes_even 0 a _ hk, Nat.zero_add]
  · rw [byteLane_interleaveBytes_odd 0 a _ hk, Nat.zero_add, byteLane_zeroExtend b hk]
  · obtain ⟨h0, h1, h2, h3⟩ := wordLanes_interleaveWords 0 a (b.zeroExtend 64)
    exact ⟨h0, h1.trans (wordLane_zeroExtend b (by decide)), h2,
      h3.trans (wordLane_zeroExtend b (by decide))⟩
  · obtain ⟨hlow, hhigh⟩ := dwordLanes_interleaveDwords 0 a (b.zeroExtend 64)
    exact ⟨hlow, hhigh.trans (dwordLane_zeroExtend_low b)⟩

end Sys2Proof.Machine
end

section
/-! The saturating lane arithmetic (spec 42_packed_arithmetic.md R168, 00_scope.md R9) as a clamp of the
exact sum or difference, at every width. -/

namespace Sys2Proof.Machine

/-- The signed saturating sum is the exact sum clamped to the signed range (R154, R155). -/
theorem toInt_addSatS {n : Nat} (hn : 0 < n) (x y : BitVec n) :
    (addSatS x y).toInt =
      max (-(2 ^ (n - 1) : Int)) (min ((2 ^ (n - 1) : Int) - 1) (x.toInt + y.toInt)) :=
  toInt_satS hn _

/-- The signed saturating difference is the exact difference clamped to the signed range (R161,
R162). -/
theorem toInt_subSatS {n : Nat} (hn : 0 < n) (x y : BitVec n) :
    (subSatS x y).toInt =
      max (-(2 ^ (n - 1) : Int)) (min ((2 ^ (n - 1) : Int) - 1) (x.toInt - y.toInt)) :=
  toInt_satS hn _

/-- The unsigned saturating sum needs no lower clamp: a sum of unsigned lanes is never negative (R156,
R157). -/
theorem toNat_addSatU {n : Nat} (x y : BitVec n) :
    (addSatU x y).toNat = min (2 ^ n - 1) (x.toNat + y.toNat) := by
  have hclamp : ((addSatU x y).toNat : Int) =
      max 0 (min ((2 ^ n : Int) - 1) ((x.toNat : Int) + (y.toNat : Int))) := toNat_satU n _
  have hpow : ((2 ^ n : Nat) : Int) = (2 ^ n : Int) := by push_cast; rfl
  have hpos : 0 < 2 ^ n := Nat.two_pow_pos n
  omega

/-- The unsigned saturating difference is the exact difference clamped to the unsigned range (R163,
R164). -/
theorem toNat_subSatU {n : Nat} (x y : BitVec n) :
    ((subSatU x y).toNat : Int) =
      max 0 (min ((2 ^ n : Int) - 1) ((x.toNat : Int) - (y.toNat : Int))) :=
  toNat_satU n _

end Sys2Proof.Machine
end

section
/-! Proofs of the statements about packed arithmetic (spec 42_packed_arithmetic.md). Each row is `toMm` of a
lane-wise operation (`rmRule_toMm` with the row's `exec_` equation), a lane of its result is the operation on
the two lanes in the same place, and the law of that operation gives the value. -/

namespace Sys2Proof.Machine

/-- Settles O46: each lane is `addWrap` of the two lanes. -/
theorem addsWrap : Obligations.AddsWrap := by
  unfold Obligations.AddsWrap
  refine ⟨rmRule_toMm (fun _ _ _ => ⟨rfl, rfl⟩) exec_paddb fun a b k hk => ?_,
    rmRule_toMm (fun _ _ _ => ⟨rfl, rfl⟩) exec_paddw fun a b k hk => ?_,
    rmRule_toMm (fun _ _ _ => ⟨rfl, rfl⟩) exec_paddd fun a b k hk => ?_⟩
  · rw [byteLane_zipBytes addWrap a b hk]; exact toNat_addWrap _ _
  · rw [wordLane_zipWords addWrap a b hk]; exact toNat_addWrap _ _
  · rw [dwordLane_zipDwords addWrap a b hk]; exact toNat_addWrap _ _

/-- Settles O47: each lane is `addSatS` of the two lanes. -/
theorem addsSaturateSigned : Obligations.AddsSaturateSigned := by
  unfold Obligations.AddsSaturateSigned
  refine ⟨rmRule_toMm (fun _ _ _ => ⟨rfl, rfl⟩) exec_paddsb fun a b k hk => ?_,
    rmRule_toMm (fun _ _ _ => ⟨rfl, rfl⟩) exec_paddsw fun a b k hk => ?_⟩
  · rw [byteLane_zipBytes addSatS a b hk]; exact toInt_addSatS (by decide) _ _
  · rw [wordLane_zipWords addSatS a b hk]; exact toInt_addSatS (by decide) _ _

/-- Settles O48: each lane is `addSatU` of the two lanes. -/
theorem addsSaturateUnsigned : Obligations.AddsSaturateUnsigned := by
  unfold Obligations.AddsSaturateUnsigned
  refine ⟨rmRule_toMm (fun _ _ _ => ⟨rfl, rfl⟩) exec_paddusb fun a b k hk => ?_,
    rmRule_toMm (fun _ _ _ => ⟨rfl, rfl⟩) exec_paddusw fun a b k hk => ?_⟩
  · rw [byteLane_zipBytes addSatU a b hk]; exact toNat_addSatU _ _
  · rw [wordLane_zipWords addSatU a b hk]; exact toNat_addSatU _ _

/-- Settles O49: each lane is `subWrap` of the destination's lane and the source's. -/
theorem subtractsWrap : Obligations.SubtractsWrap := by
  unfold Obligations.SubtractsWrap
  refine ⟨rmRule_toMm (fun _ _ _ => ⟨rfl, rfl⟩) exec_psubb fun a b k hk => ?_,
    rmRule_toMm (fun _ _ _ => ⟨rfl, rfl⟩) exec_psubw fun a b k hk => ?_,
    rmRule_toMm (fun _ _ _ => ⟨rfl, rfl⟩) exec_psubd fun a b k hk => ?_⟩
  · rw [byteLane_zipBytes subWrap a b hk]; exact toNat_subWrap _ _
  · rw [wordLane_zipWords subWrap a b hk]; exact toNat_subWrap _ _
  · rw [dwordLane_zipDwords subWrap a b hk]; exact toNat_subWrap _ _

/-- Settles O50: each lane is `subSatS` of the destination's lane and the source's. -/
theorem subtractsSaturateSigned : Obligations.SubtractsSaturateSigned := by
  unfold Obligations.SubtractsSaturateSigned
  refine ⟨rmRule_toMm (fun _ _ _ => ⟨rfl, rfl⟩) exec_psubsb fun a b k hk => ?_,
    rmRule_toMm (fun _ _ _ => ⟨rfl, rfl⟩) exec_psubsw fun a b k hk => ?_⟩
  · rw [byteLane_zipBytes subSatS a b hk]; exact toInt_subSatS (by decide) _ _
  · rw [wordLane_zipWords subSatS a b hk]; exact toInt_subSatS (by decide) _ _

/-- Settles O51: each lane is `subSatU` of the destination's lane and the source's. -/
theorem subtractsSaturateUnsigned : Obligations.SubtractsSaturateUnsigned := by
  unfold Obligations.SubtractsSaturateUnsigned
  refine ⟨rmRule_toMm (fun _ _ _ => ⟨rfl, rfl⟩) exec_psubusb fun a b k hk => ?_,
    rmRule_toMm (fun _ _ _ => ⟨rfl, rfl⟩) exec_psubusw fun a b k hk => ?_⟩
  · rw [byteLane_zipBytes subSatU a b hk]; exact toNat_subSatU _ _
  · rw [wordLane_zipWords subSatU a b hk]; exact toNat_subSatU _ _

/-- Settles O52: each word is `mulHigh` or `mulLow` of the two words, the halves of a product that is
exact in 32 bits. -/
theorem multiplies : Obligations.Multiplies := by
  unfold Obligations.Multiplies
  refine ⟨rmRule_toMm (fun _ _ _ => ⟨rfl, rfl⟩) exec_pmulhw fun a b k hk => ?_,
    rmRule_toMm (fun _ _ _ => ⟨rfl, rfl⟩) exec_pmullw fun a b k hk => ?_⟩
  · rw [wordLane_zipWords mulHigh a b hk, toInt_mulHigh]
  · rw [wordLane_zipWords mulLow a b hk, toNat_mulLow]

/-- Settles O53: each doubleword is the wrapping sum of two exact products (`toNat_product_add`). -/
theorem multiplyAdds : Obligations.MultiplyAdds := by
  unfold Obligations.MultiplyAdds
  refine rmRule_toMm (fun _ _ _ => ⟨rfl, rfl⟩) exec_pmaddwd fun a b j hj => ?_
  rw [dwordLane_multiplyAdd a b hj, toNat_product_add]

end Sys2Proof.Machine
end

section
/-! Proofs of the statements about comparison (spec 43_comparison.md, R181 to R186). Each row is `toMm` of a
lane-wise comparison (`rmRule_toMm` with the row's `exec_` equation), and a lane of its result is the mask of
the two lanes in the same place: the statement's constant of ones is `BitVec.allOnes` at the lane's width. -/

namespace Sys2Proof.Machine

/-- Settles O54: each lane is `cmpEq` of the two lanes. -/
theorem comparesEqual : Obligations.ComparesEqual := by
  unfold Obligations.ComparesEqual
  refine ⟨rmRule_toMm (fun _ _ _ => ⟨rfl, rfl⟩) exec_pcmpeqb fun a b k hk => ?_,
    rmRule_toMm (fun _ _ _ => ⟨rfl, rfl⟩) exec_pcmpeqw fun a b k hk => ?_,
    rmRule_toMm (fun _ _ _ => ⟨rfl, rfl⟩) exec_pcmpeqd fun a b k hk => ?_⟩
  · rw [byteLane_zipBytes cmpEq a b hk]; exact cmpEq_eq _ _
  · rw [wordLane_zipWords cmpEq a b hk]; exact cmpEq_eq _ _
  · rw [dwordLane_zipDwords cmpEq a b hk]; exact cmpEq_eq _ _

/-- Settles O55: each lane is `cmpGt` of the destination's lane and the source's, read as signed. -/
theorem comparesGreater : Obligations.ComparesGreater := by
  unfold Obligations.ComparesGreater
  refine ⟨rmRule_toMm (fun _ _ _ => ⟨rfl, rfl⟩) exec_pcmpgtb fun a b k hk => ?_,
    rmRule_toMm (fun _ _ _ => ⟨rfl, rfl⟩) exec_pcmpgtw fun a b k hk => ?_,
    rmRule_toMm (fun _ _ _ => ⟨rfl, rfl⟩) exec_pcmpgtd fun a b k hk => ?_⟩
  · rw [byteLane_zipBytes cmpGt a b hk]; exact cmpGt_eq _ _
  · rw [wordLane_zipWords cmpGt a b hk]; exact cmpGt_eq _ _
  · rw [dwordLane_zipDwords cmpGt a b hk]; exact cmpGt_eq _ _

end Sys2Proof.Machine
end

section
/-! Proof of the statement about the logical instructions (spec 44_logical.md, R191 to R194). There are no
lanes: each row is `toMm` of a bitwise operation on the whole quadword (`rmRule_toMm` with the row's `exec_`
equation), and bit `i` of its result depends on bit `i` of the operands only. -/

namespace Sys2Proof.Machine

/-- Settles O56: the bits of `AND`, `OR` and `XOR` are the library's laws; `PANDN` asks for the bit of a
complement, which is the complemented bit only inside the width. -/
theorem logicalBits : Obligations.LogicalBits := by
  unfold Obligations.LogicalBits
  refine ⟨rmRule_toMm (fun _ _ _ => ⟨rfl, rfl⟩) exec_pand fun a b i _ => ?_,
    rmRule_toMm (fun _ _ _ => ⟨rfl, rfl⟩) exec_pandn fun a b i hi => ?_,
    rmRule_toMm (fun _ _ _ => ⟨rfl, rfl⟩) exec_por fun a b i _ => ?_,
    rmRule_toMm (fun _ _ _ => ⟨rfl, rfl⟩) exec_pxor fun a b i _ => ?_⟩
  · exact BitVec.getLsbD_and
  · rw [BitVec.getLsbD_and, BitVec.getLsbD_not, decide_eq_true hi, Bool.true_and]
  · exact BitVec.getLsbD_or
  · exact BitVec.getLsbD_xor

end Sys2Proof.Machine
end

section
/-! Proofs of the statements about shifts (spec 45_shift.md, R201 to R208). The two rows of a shift are `toMm`
of the same function of the count (`shiftRule_toMm` with the rows' two `exec_` equations), so the value is
proved once for every count: each lane is the lane shift of the lane in the same place, and `PSLLQ` and `PSRLQ`
shift the whole quadword as one lane. The statement's `c > 15` is the lane shift's `16 ≤ c`. -/

namespace Sys2Proof.Machine

/-- Settles O57: each lane is `shl` of the destination's lane, the product with `2 ^ c` modulo the width. -/
theorem shiftsLeft : Obligations.ShiftsLeft := by
  unfold Obligations.ShiftsLeft
  refine ⟨shiftRule_toMm (f := fun c => mapWords (shl c)) (fun _ _ _ => ⟨rfl, rfl⟩) exec_psllw
      (fun _ _ _ => ⟨rfl, rfl⟩) exec_psllwImm fun c a k hk => ?_,
    shiftRule_toMm (f := fun c => mapDwords (shl c)) (fun _ _ _ => ⟨rfl, rfl⟩) exec_pslld
      (fun _ _ _ => ⟨rfl, rfl⟩) exec_pslldImm fun c a k hk => ?_,
    shiftRule_toMm (f := shl) (fun _ _ _ => ⟨rfl, rfl⟩) exec_psllq
      (fun _ _ _ => ⟨rfl, rfl⟩) exec_psllqImm fun c a => ?_⟩
  · rw [wordLane_mapWords (shl c) a hk]; exact toNat_shl c _
  · rw [dwordLane_mapDwords (shl c) a hk]; exact toNat_shl c _
  · exact toNat_shl c a

/-- Settles O58: each lane is `shrLogical` of the destination's lane, its quotient by `2 ^ c`. -/
theorem shiftsRight : Obligations.ShiftsRight := by
  unfold Obligations.ShiftsRight
  refine ⟨shiftRule_toMm (f := fun c => mapWords (shrLogical c)) (fun _ _ _ => ⟨rfl, rfl⟩) exec_psrlw
      (fun _ _ _ => ⟨rfl, rfl⟩) exec_psrlwImm fun c a k hk => ?_,
    shiftRule_toMm (f := fun c => mapDwords (shrLogical c)) (fun _ _ _ => ⟨rfl, rfl⟩) exec_psrld
      (fun _ _ _ => ⟨rfl, rfl⟩) exec_psrldImm fun c a k hk => ?_,
    shiftRule_toMm (f := shrLogical) (fun _ _ _ => ⟨rfl, rfl⟩) exec_psrlq
      (fun _ _ _ => ⟨rfl, rfl⟩) exec_psrlqImm fun c a => ?_⟩
  · rw [wordLane_mapWords (shrLogical c) a hk]; exact toNat_shrLogical c _
  · rw [dwordLane_mapDwords (shrLogical c) a hk]; exact toNat_shrLogical c _
  · exact toNat_shrLogical c a

/-- Settles O59: each lane is `shrArith` of the destination's lane, the floor of its signed quotient with the
count capped at the width. -/
theorem shiftsRightArithmetic : Obligations.ShiftsRightArithmetic := by
  unfold Obligations.ShiftsRightArithmetic
  refine ⟨shiftRule_toMm (f := fun c => mapWords (shrArith c)) (fun _ _ _ => ⟨rfl, rfl⟩) exec_psraw
      (fun _ _ _ => ⟨rfl, rfl⟩) exec_psrawImm fun c a k hk => ?_,
    shiftRule_toMm (f := fun c => mapDwords (shrArith c)) (fun _ _ _ => ⟨rfl, rfl⟩) exec_psrad
      (fun _ _ _ => ⟨rfl, rfl⟩) exec_psradImm fun c a k hk => ?_⟩
  · rw [wordLane_mapWords (shrArith c) a hk]; exact toInt_shrArith c _
  · rw [dwordLane_mapDwords (shrArith c) a hk]; exact toInt_shrArith c _

end Sys2Proof.Machine
end

section
/-! Proof of the statement about `EMMS` (spec 46_state_management.md, R221). `EMMS` that `MMXCheck()` lets pass
ends in `s.empty.advance (bareLength pre)`: the tag word is `empty_tag`, the two parts of the status word follow
from `empty_fsw`, and everything else is kept by both updates. -/

namespace Sys2Proof.Machine

/-- `EMMS` that `MMXCheck()` lets pass empties the x87 tags and advances by its length (R221). -/
theorem exec_emms_ready {pre : Option Seg} {s : State} (h : Ready s) :
    exec (.emms pre) s = .next (s.empty.advance (bareLength pre)) := by
  unfold Ready at h
  simp only [exec, execEmms, h]

/-- `EMMS` clears `TOS` if the launch carries the x87 side effects and says so (R221). -/
theorem empty_tos (s : State) :
    s.empty.tos = if s.launch.modelX87Alias ∧ s.launch.emmsTosZero then 0 else s.tos := by
  rw [State.tos, empty_fsw]
  simp only [Bool.and_eq_true]
  split
  · exact setTos_tos _ _
  · rfl

/-- `EMMS` keeps the status word outside `TOS` (R221). -/
theorem sameStatusRest_empty (s : State) : SameStatusRest s s.empty := by
  intro k hk
  rw [empty_fsw]
  split
  · exact setTos_rest _ _ _ hk
  · rfl

/-- `EMMS` is two bytes, three with a segment override (R88). -/
theorem ofNat_bareLength (pre : Option Seg) :
    BitVec.ofNat 32 (bareLength pre) = if pre = none then 2 else 3 := by
  cases pre with
  | none => rfl
  | some seg => rfl

/-- Settles O60: a fault of the check is every instruction's (`exec_check`), and the state of
`exec_emms_ready` is read off part by part. -/
theorem emmsEmptiesTags : Obligations.EmmsEmptiesTags := by
  unfold Obligations.EmmsEmptiesTags
  intro pre s
  refine ⟨rfl, rfl, fun x hx => exec_check hx _, fun hr => ⟨_, exec_emms_ready hr, ?_⟩⟩
  have hx87 : SameX87Regs s (s.empty.advance (bareLength pre)) := fun i => by simp [State.x87Reg]
  have hgeneral : SameGeneral s (s.empty.advance (bareLength pre)) := fun g => by simp [State.reg]
  have hmemory : SameMemory s (s.empty.advance (bareLength pre)) := fun a => by simp [State.byteAt]
  exact ⟨empty_tag s, empty_tos s, sameStatusRest_empty s, hx87, hgeneral, hmemory,
    sameSystem_empty_advance s _, by rw [advance_eip, empty_eip, ofNat_bareLength]⟩

end Sys2Proof.Machine
end

section
/-! What stops an instruction (spec 60_exceptions.md R262 to R264, R266, R271): each answer of
`MMXCheck()` by the bits that cause it, the pending x87 error across an instruction, and all that a
step which faults can have done. -/

namespace Sys2Proof.Machine

variable {s : State}

/-! ## `MMXCheck()` by its bits (R266) -/

/-- `#UD` exactly without MMX or under `CR0.EM` (R262, R266). -/
theorem mmxCheck_invalidOpcode_iff :
    mmxCheck s = some .invalidOpcode ↔ s.launch.hasMmx = false ∨ s.cr0.getLsbD 2 = true := by
  change _ ↔ _ ∨ s.em = true
  obtain ⟨h, hbits⟩ | ⟨h, hmmx, hem, -⟩ | ⟨h, hmmx, hem, -⟩ | ⟨h, hmmx, hem, -⟩ := mmxCheck_cases s
  · exact iff_of_true h hbits
  all_goals simp [h, hmmx, hem]

/-- `#NM` exactly under `CR0.TS` where there is no cause of `#UD` (R263). -/
theorem mmxCheck_deviceNotAvailable_iff :
    mmxCheck s = some .deviceNotAvailable ↔
      s.launch.hasMmx = true ∧ s.cr0.getLsbD 2 = false ∧ s.cr0.getLsbD 3 = true := by
  change _ ↔ _ ∧ s.em = false ∧ s.ts = true
  obtain ⟨h, hmmx | hem⟩ | ⟨h, hbits⟩ | ⟨h, -, -, hts, -⟩ | ⟨h, -, -, hts, -⟩ := mmxCheck_cases s
  · simp [h, hmmx]
  · simp [h, hem]
  · exact iff_of_true h hbits
  all_goals simp [h, hts]

/-- `#MF` exactly where an x87 error is pending and there is no cause of `#UD` or `#NM` (R264). -/
theorem mmxCheck_x87Error_iff :
    mmxCheck s = some .x87Error ↔
      s.launch.hasMmx = true ∧ s.cr0.getLsbD 2 = false ∧ s.cr0.getLsbD 3 = false ∧
        s.fsw.getLsbD 7 = true := by
  change _ ↔ _ ∧ s.em = false ∧ s.ts = false ∧ s.x87Pending = true
  obtain ⟨h, hmmx | hem⟩ | ⟨h, -, -, hts⟩ | ⟨h, hbits⟩ | ⟨h, -, -, -, hpending⟩ := mmxCheck_cases s
  · simp [h, hmmx]
  · simp [h, hem]
  · simp [h, hts]
  · exact iff_of_true h hbits
  · simp [h, hpending]

/-- Every instruction that completes, `EMMS` included, keeps the status word outside `TOS` (R23, R221). -/
theorem exec_next_statusRest {i : Instr} {t : State} (h : exec i s = .next t) :
    SameStatusRest s t := by
  obtain ⟨-, htouched⟩ | ⟨pre, -, rfl⟩ := exec_next_touched_or_emms h
  · exact htouched.rest
  · exact sameStatusRest_empty s

/-! ## A step that faults -/

/-- All that a step which faults can have done: the decoder found an illegal encoding, or the decoded
instruction faulted. -/
theorem step_fault {f : Fault} (h : step s = .fault f) :
    (decode (fetch s) = .invalid ∧ f = .raised .invalidOpcode s) ∨
      ∃ i rest, decode (fetch s) = .instr i rest ∧ exec i s = .fault f := by
  unfold step raise at h
  split at h
  · cases h
  · split at h
    · next i rest hdecode => exact .inr ⟨i, rest, hdecode, h⟩
    · next hdecode =>
      cases h
      exact .inl ⟨hdecode, rfl⟩
    · cases h
    · cases h

end Sys2Proof.Machine
end

section
/-! Segment violations and page faults of a memory operand (spec 60_exceptions.md R265, R268): what a
verdict raises, where the verdict of a page fault comes from, and the bits of its error code. -/

namespace Sys2Proof.Machine

variable {seg : Seg} {a : Dword} {n : Nat} {kind : AccessKind} {s : State}

/-- A segment violation of the launch is raised as it is (R265). -/
theorem admission_of_segment (hv : verdictOf seg a n kind s = .segment) :
    admission seg a n kind s = some (if seg = .ss then .stackFault else .generalProtection) := by
  rw [admission, hv, ← segmentException_eq]
  rfl

/-- A page fault of the launch is raised as it is (R268). -/
theorem admission_of_page {present rsvd : Bool} {k : Nat}
    (hv : verdictOf seg a n kind s = .page present rsvd k) :
    admission seg a n kind s =
      some (.pageFault (pageFaultCode present rsvd kind s) (a + BitVec.ofNat 32 (k % n))) := by
  rw [admission, hv]
  rfl

/-- A segment violation is never a page fault (R265). -/
theorem segmentException_ne_pageFault (seg : Seg) (code : BitVec 5) (b : Dword) :
    segmentException seg ≠ .pageFault code b := by
  cases seg <;> nofun

/-- Only a verdict of a page fault makes `Admit` answer one, and gives it its code and address (R268). -/
theorem page_of_admission {code : BitVec 5} {b : Dword}
    (h : admission seg a n kind s = some (.pageFault code b)) :
    ∃ present rsvd k, verdictOf seg a n kind s = .page present rsvd k ∧
      code = pageFaultCode present rsvd kind s ∧ b = a + BitVec.ofNat 32 (k % n) := by
  obtain ⟨-, he⟩ | ⟨-, he⟩ | ⟨present, rsvd, k, hv, he⟩ := admission_cases seg a n kind s
  · rw [he] at h
    split at h <;> cases h
  · exact absurd (Option.some.inj (he.symm.trans h)) (segmentException_ne_pageFault seg code b)
  · cases he.symm.trans h
    exact ⟨present, rsvd, k, hv, rfl, rfl⟩

/-- A page fault of the denials is that of one page denial, at the first byte that it denies. -/
theorem page_of_denialsVerdict {present rsvd : Bool} {k : Nat}
    (h : denialsVerdict seg a n kind s = .page present rsvd k) :
    ∃ d ∈ s.launch.denials, d.cause = .page present rsvd ∧ d.firstByte seg a n kind s = some k := by
  obtain ⟨-, he⟩ | ⟨-, d, hd, present', rsvd', k', hcause, hfirst, he⟩ | ⟨-, -, he⟩ :=
    denialsVerdict_cases seg a n kind s
  · cases he.symm.trans h
  · cases he.symm.trans h
    exact ⟨d, hd, hcause, hfirst⟩
  · cases he.symm.trans h

/-- A page denial that speaks of the access and covers a byte of an operand which the segment admits
makes the denials answer a page fault (R268; notes/assumptions/9.md). -/
theorem denialsVerdict_page {d : Denial} (hsegment : ¬ segmentDenied seg a n kind s = true)
    (hd : d ∈ s.launch.denials) (hcause : d.cause ≠ .segment) (hspeaks : d.Speaks seg kind s)
    (hcovers : d.Covers a n) :
    ∃ present rsvd k, denialsVerdict seg a n kind s = .page present rsvd k := by
  obtain ⟨hdenied, -⟩ | ⟨-, -, -, present, rsvd, k, -, -, he⟩ | ⟨-, hnone, -⟩ :=
    denialsVerdict_cases seg a n kind s
  · exact absurd hdenied hsegment
  · exact ⟨present, rsvd, k, he⟩
  · cases hc : d.cause with
    | segment => exact absurd hc hcause
    | page present rsvd =>
      have hfirst := Denial.firstByte_isSome.mpr ⟨hspeaks, hcovers⟩
      rw [hnone d hd present rsvd hc] at hfirst
      cases hfirst

/-- The error code has `P`, `W/R`, `U/S` and `RSVD` in bits 0 to 3 and `I/D = 0` in bit 4 (R268). -/
theorem pageFaultCode_bits (present rsvd : Bool) (kind : AccessKind) (s : State) :
    (pageFaultCode present rsvd kind s).getLsbD 0 = present ∧
    (pageFaultCode present rsvd kind s).getLsbD 1 = decide (kind = .write) ∧
    (pageFaultCode present rsvd kind s).getLsbD 2 = decide (s.cpl = 3) ∧
    (pageFaultCode present rsvd kind s).getLsbD 3 = rsvd ∧
    (pageFaultCode present rsvd kind s).getLsbD 4 = false := by
  have hbits : ∀ p w u r : Bool,
      let code := BitVec.ofBool false ++ BitVec.ofBool r ++ BitVec.ofBool u ++ BitVec.ofBool w ++
        BitVec.ofBool p
      code.getLsbD 0 = p ∧ code.getLsbD 1 = w ∧ code.getLsbD 2 = u ∧ code.getLsbD 3 = r ∧
        code.getLsbD 4 = false := by decide
  have huser : s.user = decide (s.cpl = 3) := rfl
  have hwrite : (kind == .write) = decide (kind = .write) := rfl
  rw [← huser, ← hwrite]
  exact hbits present (kind == .write) s.user rsvd

end Sys2Proof.Machine
end

section
/-! Proofs of the statements about exceptions (spec 60_exceptions.md). -/

namespace Sys2Proof.Machine

/-- Settles O7: the decoder answers `#UD` for `LOCK` whatever follows it (`decode_lock`), and the step
raises it before any control bit is read. -/
theorem lockRaisesInvalidOpcode : Obligations.LockRaisesInvalidOpcode := by
  unfold Obligations.LockRaisesInvalidOpcode
  intro s pre hrunning hprotected hcode
  exact step_invalid_of_codeAt hrunning hprotected hcode (Nat.le_add_left 1 2) (decode_lock pre)

/-- Settles O12: every instruction raises what `MMXCheck()` finds (`exec_check`), and one that completes
keeps the status word outside `TOS`, bit 7 among it. -/
theorem controlBitsGateEveryInstruction : Obligations.ControlBitsGateEveryInstruction := by
  unfold Obligations.ControlBitsGateEveryInstruction
  intro i s
  refine ⟨fun hmmx => ?_, fun hem => ?_, fun hmmx hem hts => ?_, fun hmmx hem hts hpending => ?_,
    fun t ht => ?_⟩
  · exact exec_check (mmxCheck_invalidOpcode_iff.mpr (.inl hmmx)) i
  · exact exec_check (mmxCheck_invalidOpcode_iff.mpr (.inr hem)) i
  · exact exec_check (mmxCheck_deviceNotAvailable_iff.mpr ⟨hmmx, hem, hts⟩) i
  · exact exec_check (mmxCheck_x87Error_iff.mpr ⟨hmmx, hem, hts, hpending⟩) i
  · exact exec_next_statusRest ht 7 (.inl (by decide))

/-- Settles O13: a step faults in the decoder or in the instruction (`step_fault`), and both raise with
the state before the step. -/
theorem faultsArePrecise : Obligations.FaultsArePrecise := by
  unfold Obligations.FaultsArePrecise
  intro s f h
  obtain ⟨-, rfl⟩ | ⟨i, rest, -, hexec⟩ := step_fault h
  · exact ⟨.invalidOpcode, rfl⟩
  · exact exec_fault hexec

/-- Settles O16: where no ruling speaks, a segment denial of any byte makes the denials answer a segment
violation before they look at a page. -/
theorem segmentDenialsRaise : Obligations.SegmentDenialsRaise := by
  unfold Obligations.SegmentDenialsRaise
  intro seg a n kind s d hno hd hcause hspeaks hcovers
  have hdenied : segmentDenied seg a n kind s = true :=
    segmentDenied_iff.mpr (.inr ⟨d, hd, hcause, hspeaks, hcovers⟩)
  exact admission_of_segment (by rw [verdictOf_noRuling hno, denialsVerdict, if_pos hdenied])

/-- Settles O17: a page fault comes from a verdict of one (`page_of_admission`), which is a ruling's or,
where none speaks, the denials'; and the denials answer one if the segment admits the operand. -/
theorem pageFaultCode_holds : Obligations.PageFaultCode := by
  unfold Obligations.PageFaultCode
  intro seg a n kind s hpos
  refine ⟨fun code b h => ?_, fun d hd hno htop hsegment hcause hspeaks hcovers => ?_⟩
  · obtain ⟨present, rsvd, k, hv, rfl, rfl⟩ := page_of_admission h
    obtain ⟨hp, hw, hu, hr, hi⟩ := pageFaultCode_bits present rsvd kind s
    refine ⟨⟨k % n, Nat.mod_lt k hpos, rfl⟩, hw, hu, hi, ?_⟩
    rw [hp, hr]
    obtain ⟨r, hmem, happlies, he⟩ | ⟨hno, he⟩ := verdictOf_cases seg a n kind s
    · exact .inl ⟨r, hmem, k, happlies, he.symm.trans hv⟩
    · obtain ⟨d, hd, hcause, hfirst⟩ := page_of_denialsVerdict (he.symm.trans hv)
      obtain ⟨hspeaks, hk, hrange⟩ := Denial.firstByte_some hfirst
      rw [Nat.mod_eq_of_lt hk]
      exact .inr ⟨hno, d, hd, hcause, hspeaks, hrange⟩
  · have hadmits : ¬ segmentDenied seg a n kind s = true := by
      rw [segmentDenied_iff]
      rintro (⟨hpasses, hwrap⟩ | ⟨e, he, hc, hs, hcov⟩)
      · obtain hbelow | hallowed := htop
        · exact absurd hpasses (Nat.not_lt.mpr hbelow)
        · exact absurd (hwrap.symm.trans hallowed) Bool.false_ne_true
      · exact hsegment e he hc hs hcov
    obtain ⟨present, rsvd, k, he⟩ := denialsVerdict_page hadmits hd hcause hspeaks hcovers
    exact ⟨_, _, admission_of_page ((verdictOf_noRuling hno).trans he)⟩

/-- Settles O14: each vector and error code is a defining equation. -/
theorem exceptionVectors : Obligations.ExceptionVectors := by
  unfold Obligations.ExceptionVectors
  intro code a
  exact ⟨rfl, rfl, rfl, rfl, rfl, rfl, rfl, rfl, rfl, rfl, rfl, rfl, rfl, rfl⟩

end Sys2Proof.Machine
end

section
/-! Proof of the statement about the end of a run (spec 70_reset_and_hazards.md R302; R92). -/

namespace Sys2Proof.Machine

/-- A step that is stopped is refused with what stopped it (R92, R302). -/
theorem step_stopped {s : State} {r : Refusal} (h : stop s = some r) : step s = .refused r := by
  rw [step, h]

/-- Settles O11: at the end address the step stops because the run is over, and elsewhere because of the
mode. -/
theorem runEnds : Obligations.RunEnds := by
  unfold Obligations.RunEnds
  intro s
  refine ⟨fun hend => step_stopped ?_, fun hrunning hmode => step_stopped ?_⟩
  · rw [stop, if_pos hend]
  · rw [stop, if_neg hrunning, if_neg hmode]

end Sys2Proof.Machine
end
